-- ==== Sys2Proof/Word.lean ====
section
/-! DEFINITION. The words of IA-CPU: bytes (every datum and every memory word, 00_scope.md R8) and addresses. -/

namespace Sys2Proof

/-- A data word: 8 bits in both machine modes (R8). -/
abbrev Byte := BitVec 8

/-- The storage of an A-bit register. A is 32 in Expanded mode and 8 in Standard mode, where the upper
24 bits are kept 0 by every write (`Machine.fitTo`). -/
abbrev Addr := BitVec 32

end Sys2Proof
end

