-- ==== Sys2Proof/Config.lean ====
section
/-! DEFINITION. The parameters of IA-CPU (00_scope.md R8): MODE, DEVICE, the host's YIELD_OPS, and the model's own
bound on the micro-ops of one phase. -/

namespace Sys2Proof

/-- The machine mode MODE, chosen at construction and constant for a run (R3). -/
inductive MachineMode where
  | standard
  | expanded
deriving DecidableEq, Repr

/-- The address width A (R8). -/
def MachineMode.addrBits : MachineMode → Nat
  | .standard => 8
  | .expanded => 32

/-- The number of addresses of the memory, 2^A (R8, R37, R38). -/
def MachineMode.memSize : MachineMode → Nat
  | .standard => 256
  | .expanded => 4294967296

/-- The parameter DEVICE (45_io.md R136), as plain data that names a function from the list of values output so far to
the byte the device answers with; `Machine.deviceReply` is the function. DESIGN CHOICE (entry 2). -/
inductive Device where
  /-- Never responds (R136, the default). -/
  | silent
  /-- Answers every output v with v + k: the device of program P3 for k = 1. -/
  | lastPlus (k : Byte)
  /-- Answers the histories it lists, the first row of a history deciding, and no other. -/
  | table (rows : List (List Byte × Byte))
  /-- Any device: the function `Config.anyDevice index`, of which nothing is known. -/
  | any (index : Nat)
deriving DecidableEq, Repr

/-- The functions of the devices `Device.any`, one per index. They have no body that a proof can see, so what is proved of
a machine with such a device holds whatever function the device is (entry 2). -/
opaque Config.anyDevice : Nat → List Byte → Option Byte

/-- The default device never responds (R136). -/
def Config.silentDevice : Device := .silent

/-- DESIGN CHOICE (entry 1): the machine mode of `State.reset`. -/
def Config.resetMode : MachineMode := .standard

/-- YIELD_OPS (R8, R105): host scheduling only, no rule depends on it. -/
def Config.yieldOps : Nat := 10000

/-- DESIGN CHOICE (entry 5): how many micro-ops one phase of `step` may dispatch. The longest phase of a run
has 37 of its own (the Expanded fetch of R94 and R95 after its `Fetch`). -/
def Config.phaseFuel : Nat := 64

end Sys2Proof
end

