-- ==== Sys2Proof/Syntax.lean ====
section
/-! DEFINITION. The instructions of IA-CPU: one constructor of `Instr` per row of spec/opcode_table.json, with every
field its row has, the ignored ones of 30_encoding.md R68 too, so that an instruction fixes the bits CIR holds. -/

namespace Sys2Proof

/-- The addressing mode (30_encoding.md R65): mode 0 is direct, mode 1 is address. -/
inductive AddrMode where
  | direct
  | address
deriving DecidableEq, Repr

/-- The 16 opcodes in the order of R64. -/
inductive Opcode where
  | add | sub | and | or | xor | not | read | write | goto
  | branchIfZero | branchIfNegative | branchIfOverflow | branchIfCarry
  | output | input | endRun
deriving DecidableEq, Repr

/-- The operand classes of R66. -/
inductive OpClass where
  | data
  | addr
  | none
deriving DecidableEq, Repr

/-- The bits of an instruction as CIR holds them (10_state.md R20): 14 bits in Standard mode, the list of
instruction bytes in Expanded mode. -/
inductive Code where
  | std (word : BitVec 14)
  | exp (bytes : List Byte)
deriving DecidableEq, Repr

/-- One constructor per row of spec/opcode_table.json. `std…` are the Standard rows (format std14: mode and 8-bit
operand), `exp…` the Expanded rows: `…Lit` has an 8-bit literal (exp16), `…Mem` a 32-bit address of a data byte
(exp40), the address-class rows a mode bit and a 32-bit operand (exp40), the operand-free rows the ignored mode bit
(exp8). -/
inductive Instr where
  | stdAdd (m : AddrMode) (n : Byte)
  | stdSub (m : AddrMode) (n : Byte)
  | stdAnd (m : AddrMode) (n : Byte)
  | stdOr (m : AddrMode) (n : Byte)
  | stdXor (m : AddrMode) (n : Byte)
  | stdNot (m : AddrMode) (n : Byte)
  | stdRead (m : AddrMode) (n : Byte)
  | stdWrite (m : AddrMode) (n : Byte)
  | stdGoto (m : AddrMode) (n : Byte)
  | stdBranchIfZero (m : AddrMode) (n : Byte)
  | stdBranchIfNegative (m : AddrMode) (n : Byte)
  | stdBranchIfOverflow (m : AddrMode) (n : Byte)
  | stdBranchIfCarry (m : AddrMode) (n : Byte)
  | stdOutput (m : AddrMode) (n : Byte)
  | stdInput (m : AddrMode) (n : Byte)
  | stdEnd (m : AddrMode) (n : Byte)
  | expAddLit (n : Byte)
  | expAddMem (a : Addr)
  | expSubLit (n : Byte)
  | expSubMem (a : Addr)
  | expAndLit (n : Byte)
  | expAndMem (a : Addr)
  | expOrLit (n : Byte)
  | expOrMem (a : Addr)
  | expXorLit (n : Byte)
  | expXorMem (a : Addr)
  | expNot (m : AddrMode)
  | expRead (m : AddrMode) (a : Addr)
  | expWrite (m : AddrMode) (a : Addr)
  | expGoto (m : AddrMode) (a : Addr)
  | expBranchIfZero (m : AddrMode) (a : Addr)
  | expBranchIfNegative (m : AddrMode) (a : Addr)
  | expBranchIfOverflow (m : AddrMode) (a : Addr)
  | expBranchIfCarry (m : AddrMode) (a : Addr)
  | expOutputLit (n : Byte)
  | expOutputMem (a : Addr)
  | expInput (m : AddrMode)
  | expEnd (m : AddrMode)
deriving DecidableEq, Repr

/-- The machine mode whose format the instruction is spelt in (30_encoding.md R69). -/
def Instr.machineMode : Instr → MachineMode
  | .stdAdd _ _ | .stdSub _ _ | .stdAnd _ _ | .stdOr _ _ | .stdXor _ _ | .stdNot _ _ | .stdRead _ _ | .stdWrite _ _
  | .stdGoto _ _ | .stdBranchIfZero _ _ | .stdBranchIfNegative _ _ | .stdBranchIfOverflow _ _
  | .stdBranchIfCarry _ _ | .stdOutput _ _ | .stdInput _ _ | .stdEnd _ _ => .standard
  | .expAddLit _ | .expAddMem _ | .expSubLit _ | .expSubMem _ | .expAndLit _ | .expAndMem _ | .expOrLit _
  | .expOrMem _ | .expXorLit _ | .expXorMem _ | .expNot _ | .expRead _ _ | .expWrite _ _ | .expGoto _ _
  | .expBranchIfZero _ _ | .expBranchIfNegative _ _ | .expBranchIfOverflow _ _ | .expBranchIfCarry _ _
  | .expOutputLit _ | .expOutputMem _ | .expInput _ | .expEnd _ => .expanded

end Sys2Proof
end

