-- ==== Sys2Proof/WellFormed.lean ====
section
/-! DEFINITION. Well-formedness of an instruction on a machine: it must be spelt in the format of the machine's mode
(30_encoding.md R69). The fields of `Instr` admit no other ill-formed term: each has exactly the values its encoding
admits. -/

namespace Sys2Proof

/-- The one check: the machine mode, not a bit of the instruction, selects the format (R69), so a Standard instruction
is no instruction of an Expanded machine and the other way round. -/
def Instr.wellFormed (mode : MachineMode) (i : Instr) : Bool :=
  decide (i.machineMode = mode)

end Sys2Proof
end

