-- ==== Sys2Proof/Decode.lean ====
section
/-! DEFINITION. The decoder of 30_encoding.md (total, rejecting by name) and, after it, the encoder, both written from
the spec's encoding tables (R58, R60, R64, R67). -/

namespace Sys2Proof

/-! ## Fields -/

/-- The opcode map (R64), by the value of the 4-bit field. -/
def Opcode.ofBits (b : BitVec 4) : Opcode :=
  match b.toNat with
  | 0 => .add
  | 1 => .sub
  | 2 => .and
  | 3 => .or
  | 4 => .xor
  | 5 => .not
  | 6 => .read
  | 7 => .write
  | 8 => .goto
  | 9 => .branchIfZero
  | 10 => .branchIfNegative
  | 11 => .branchIfOverflow
  | 12 => .branchIfCarry
  | 13 => .output
  | 14 => .input
  | _ => .endRun

/-- The addressing mode a mode bit selects (R65). -/
def AddrMode.ofBit (b : BitVec 1) : AddrMode :=
  if b = 0#1 then .direct else .address

/-- The operand class of an opcode, per machine mode (R64, R66). -/
def Opcode.classIn : MachineMode → Opcode → OpClass
  | _, .add | _, .sub | _, .and | _, .or | _, .xor => .data
  | _, .read | _, .write | _, .goto => .addr
  | _, .branchIfZero | _, .branchIfNegative | _, .branchIfOverflow | _, .branchIfCarry => .addr
  | _, .not | _, .input | _, .endRun => .none
  | .standard, .output => .none
  | .expanded, .output => .data

/-- The legal values of the Expanded length field (R61). -/
def legalLength (n : BitVec 3) : Bool :=
  decide (n = 0#3) || decide (n = 1#3) || decide (n = 4#3)

/-- The length the class and the mode require (R67). -/
def OpClass.legalLen : OpClass → AddrMode → BitVec 3
  | .data, .direct => 1#3
  | .data, .address => 4#3
  | .addr, _ => 4#3
  | .none, _ => 0#3

/-- The decode faults of R68 and R143, with the offending fields. -/
inductive DecodeReason where
  | badMode (m : BitVec 2)
  | badLength (n : BitVec 3)
  | badForm (op : BitVec 4) (m : BitVec 1) (n : BitVec 3)
deriving DecidableEq, Repr

/-- Why the byte decoder rejects: an encoding the machine faults on, or fewer bytes than the instruction has (the
machine never runs short: its memory has a byte at every address). -/
inductive DecodeError where
  | illegal (r : DecodeReason)
  | truncated
deriving DecidableEq, Repr

/-! ## The decoder -/

/-- The Standard row of an opcode (R58, R64). -/
def stdInstr (op : Opcode) (m : AddrMode) (n : Byte) : Instr :=
  match op with
  | .add => .stdAdd m n
  | .sub => .stdSub m n
  | .and => .stdAnd m n
  | .or => .stdOr m n
  | .xor => .stdXor m n
  | .not => .stdNot m n
  | .read => .stdRead m n
  | .write => .stdWrite m n
  | .goto => .stdGoto m n
  | .branchIfZero => .stdBranchIfZero m n
  | .branchIfNegative => .stdBranchIfNegative m n
  | .branchIfOverflow => .stdBranchIfOverflow m n
  | .branchIfCarry => .stdBranchIfCarry m n
  | .output => .stdOutput m n
  | .input => .stdInput m n
  | .endRun => .stdEnd m n

/-- Standard decode of the 14 bits of CIR: mode values 10 and 11 are reserved for every opcode (R58, R65, R96). -/
def decodeStd (word : BitVec 14) : Except DecodeReason Instr :=
  let m := word.extractLsb' 8 2
  if m = 2#2 ∨ m = 3#2 then .error (.badMode m)
  else .ok (stdInstr (Opcode.ofBits (word.extractLsb' 10 4)) (AddrMode.ofBit (word.extractLsb' 8 1))
    (word.extractLsb' 0 8))

/-- The Expanded row of an opcode with no operand byte (R67, class NONE). -/
def expNone (op : Opcode) (m : AddrMode) : Option Instr :=
  match op with
  | .not => some (.expNot m)
  | .input => some (.expInput m)
  | .endRun => some (.expEnd m)
  | _ => none

/-- The Expanded row of an opcode with one operand byte (R67, class DATA, mode 0). -/
def expLit (op : Opcode) (m : AddrMode) (n : Byte) : Option Instr :=
  match op, m with
  | .add, .direct => some (.expAddLit n)
  | .sub, .direct => some (.expSubLit n)
  | .and, .direct => some (.expAndLit n)
  | .or, .direct => some (.expOrLit n)
  | .xor, .direct => some (.expXorLit n)
  | .output, .direct => some (.expOutputLit n)
  | _, _ => none

/-- The Expanded row of an opcode with four operand bytes (R67, class DATA in mode 1, class ADDR in both). -/
def expWide (op : Opcode) (m : AddrMode) (a : Addr) : Option Instr :=
  match op, m with
  | .add, .address => some (.expAddMem a)
  | .sub, .address => some (.expSubMem a)
  | .and, .address => some (.expAndMem a)
  | .or, .address => some (.expOrMem a)
  | .xor, .address => some (.expXorMem a)
  | .output, .address => some (.expOutputMem a)
  | .read, m => some (.expRead m a)
  | .write, m => some (.expWrite m a)
  | .goto, m => some (.expGoto m a)
  | .branchIfZero, m => some (.expBranchIfZero m a)
  | .branchIfNegative, m => some (.expBranchIfNegative m a)
  | .branchIfOverflow, m => some (.expBranchIfOverflow m a)
  | .branchIfCarry, m => some (.expBranchIfCarry m a)
  | _, _ => none

/-- The Expanded operand of R62: big-endian, zero-extended to 32 bits; no operand byte is 0. -/
def expOperand : List Byte → Addr
  | [b1] => b1.setWidth 32
  | [b1, b2, b3, b4] => b1 ++ b2 ++ b3 ++ b4
  | _ => 0#32

/-- The Expanded row that opcode, mode and operand bytes spell; `none` where R67 gives no such form. -/
def expInstr (op : Opcode) (m : AddrMode) (operand : List Byte) : Option Instr :=
  match operand with
  | [] => expNone op m
  | [b1] => expLit op m b1
  | [b1, b2, b3, b4] => expWide op m (b1 ++ b2 ++ b3 ++ b4)
  | _ => none

/-- Expanded decode of a first byte and the operand bytes that its length field announces: a length with no legal
form is rejected first (R61, R146), then a form R67 does not give. -/
def decodeExp (b0 : Byte) (operand : List Byte) : Except DecodeReason Instr :=
  let n := b0.extractLsb' 0 3
  if legalLength n then
    match expInstr (Opcode.ofBits (b0.extractLsb' 4 4)) (AddrMode.ofBit (b0.extractLsb' 3 1)) operand with
    | some i => .ok i
    | none => .error (.badForm (b0.extractLsb' 4 4) (b0.extractLsb' 3 1) n)
  else .error (.badLength n)

/-- The instruction that the bits in CIR spell on a machine of this mode, once the fetch is complete; `none` where
the `Decode` micro-op raises a fault (R96, R97). -/
def decodeCode : MachineMode → Code → Option Instr
  | .standard, .std word => (decodeStd word).toOption
  | .expanded, .exp (b0 :: operand) =>
    if operand.length = (b0.extractLsb' 0 3).toNat then (decodeExp b0 operand).toOption else none
  | _, _ => none

/-- The 14 bits of the two words of a Standard instruction; bits 7:6 of the second are discarded (R44, R59). -/
def stdWord (w0 w1 : Byte) : BitVec 14 :=
  w0 ++ w1.extractLsb' 0 6

/-- The decoder: the instruction the first bytes of a list spell on a machine of this mode, and the bytes after
it. -/
def decode (mode : MachineMode) (bytes : List Byte) : Except DecodeError (Instr × List Byte) :=
  match mode, bytes with
  | .standard, w0 :: w1 :: rest =>
    match decodeStd (stdWord w0 w1) with
    | .ok i => .ok (i, rest)
    | .error r => .error (.illegal r)
  | .expanded, b0 :: rest =>
    let n := (b0.extractLsb' 0 3).toNat
    if legalLength (b0.extractLsb' 0 3) && decide (rest.length < n) then .error .truncated
    else
      match decodeExp b0 (rest.take n) with
      | .ok i => .ok (i, rest.drop n)
      | .error r => .error (.illegal r)
  | _, _ => .error .truncated

/-! ## The encoder -/

/-- The 4-bit opcode field (R64). -/
def Opcode.bits : Opcode → BitVec 4
  | .add => 0#4
  | .sub => 1#4
  | .and => 2#4
  | .or => 3#4
  | .xor => 4#4
  | .not => 5#4
  | .read => 6#4
  | .write => 7#4
  | .goto => 8#4
  | .branchIfZero => 9#4
  | .branchIfNegative => 10#4
  | .branchIfOverflow => 11#4
  | .branchIfCarry => 12#4
  | .output => 13#4
  | .input => 14#4
  | .endRun => 15#4

/-- The mode bit (R65). -/
def AddrMode.bit : AddrMode → BitVec 1
  | .direct => 0#1
  | .address => 1#1

/-- The opcode of an instruction (R64). -/
def Instr.opcode : Instr → Opcode
  | .stdAdd _ _ | .expAddLit _ | .expAddMem _ => .add
  | .stdSub _ _ | .expSubLit _ | .expSubMem _ => .sub
  | .stdAnd _ _ | .expAndLit _ | .expAndMem _ => .and
  | .stdOr _ _ | .expOrLit _ | .expOrMem _ => .or
  | .stdXor _ _ | .expXorLit _ | .expXorMem _ => .xor
  | .stdNot _ _ | .expNot _ => .not
  | .stdRead _ _ | .expRead _ _ => .read
  | .stdWrite _ _ | .expWrite _ _ => .write
  | .stdGoto _ _ | .expGoto _ _ => .goto
  | .stdBranchIfZero _ _ | .expBranchIfZero _ _ => .branchIfZero
  | .stdBranchIfNegative _ _ | .expBranchIfNegative _ _ => .branchIfNegative
  | .stdBranchIfOverflow _ _ | .expBranchIfOverflow _ _ => .branchIfOverflow
  | .stdBranchIfCarry _ _ | .expBranchIfCarry _ _ => .branchIfCarry
  | .stdOutput _ _ | .expOutputLit _ | .expOutputMem _ => .output
  | .stdInput _ _ | .expInput _ => .input
  | .stdEnd _ _ | .expEnd _ => .endRun

/-- The addressing mode of an instruction (R65, R67). -/
def Instr.addrMode : Instr → AddrMode
  | .stdAdd m _ | .stdSub m _ | .stdAnd m _ | .stdOr m _ | .stdXor m _ | .stdNot m _ | .stdRead m _ | .stdWrite m _
  | .stdGoto m _ | .stdBranchIfZero m _ | .stdBranchIfNegative m _ | .stdBranchIfOverflow m _
  | .stdBranchIfCarry m _ | .stdOutput m _ | .stdInput m _ | .stdEnd m _ => m
  | .expAddLit _ | .expSubLit _ | .expAndLit _ | .expOrLit _ | .expXorLit _ | .expOutputLit _ => .direct
  | .expAddMem _ | .expSubMem _ | .expAndMem _ | .expOrMem _ | .expXorMem _ | .expOutputMem _ => .address
  | .expNot m | .expRead m _ | .expWrite m _ | .expGoto m _ | .expBranchIfZero m _ | .expBranchIfNegative m _
  | .expBranchIfOverflow m _ | .expBranchIfCarry m _ | .expInput m | .expEnd m => m

/-- The operand bytes that follow b0 in the Expanded format, first byte first, big-endian (R43, R60, R62); a
Standard instruction's one operand byte. -/
def Instr.operandBytes : Instr → List Byte
  | .stdAdd _ n | .stdSub _ n | .stdAnd _ n | .stdOr _ n | .stdXor _ n | .stdNot _ n | .stdRead _ n | .stdWrite _ n
  | .stdGoto _ n | .stdBranchIfZero _ n | .stdBranchIfNegative _ n | .stdBranchIfOverflow _ n
  | .stdBranchIfCarry _ n | .stdOutput _ n | .stdInput _ n | .stdEnd _ n => [n]
  | .expAddLit n | .expSubLit n | .expAndLit n | .expOrLit n | .expXorLit n | .expOutputLit n => [n]
  | .expAddMem a | .expSubMem a | .expAndMem a | .expOrMem a | .expXorMem a | .expOutputMem a
  | .expRead _ a | .expWrite _ a | .expGoto _ a | .expBranchIfZero _ a | .expBranchIfNegative _ a
  | .expBranchIfOverflow _ a | .expBranchIfCarry _ a =>
    [a.extractLsb' 24 8, a.extractLsb' 16 8, a.extractLsb' 8 8, a.extractLsb' 0 8]
  | .expNot _ | .expInput _ | .expEnd _ => []

/-- The 14-bit Standard format (R58): opcode, 2-bit mode, 8-bit operand. -/
def stdCode (op : Opcode) (m : AddrMode) (n : Byte) : BitVec 14 :=
  op.bits ++ (0#1 ++ m.bit) ++ n

/-- The first byte of the Expanded format (R60): opcode, mode bit, length field. -/
def expHead (op : Opcode) (m : AddrMode) (len : Nat) : Byte :=
  op.bits ++ m.bit ++ BitVec.ofNat 3 len

/-- The bits of an instruction as the fetch leaves them in CIR (R20, R58, R60). -/
def Instr.code (i : Instr) : Code :=
  match i.machineMode, i.operandBytes with
  | .standard, n :: _ => .std (stdCode i.opcode i.addrMode n)
  | .standard, [] => .std (stdCode i.opcode i.addrMode 0#8)
  | .expanded, bs => .exp (expHead i.opcode i.addrMode bs.length :: bs)

/-- The two memory words of a Standard instruction (R44, R59): I[13:6], then 00 and I[5:0]. -/
def stdBytes (word : BitVec 14) : List Byte :=
  [word.extractLsb' 6 8, 0#2 ++ word.extractLsb' 0 6]

/-- The bytes that hold the bits of CIR in memory, lowest address first (R59, R60). -/
def Code.bytes : Code → List Byte
  | .std word => stdBytes word
  | .exp bytes => bytes

/-- The encoder: the bytes of an instruction, lowest address first. -/
def encode (i : Instr) : List Byte :=
  i.code.bytes

/-! ## Words as spec/opcode_table.json numbers them -/

/-- The machine mode of a table row with this many bits. The Standard rows (format std14) are the rows of 9 to 16
bits: their number is the 14-bit word I (the table's note: match and mask apply to I). The Expanded rows give their
first byte only (match and mask apply to b0). DEDUCED (entry 7). -/
def tableMode (nbits : Nat) : MachineMode :=
  if 8 < nbits ∧ nbits ≤ 16 then .standard else .expanded

/-- The bytes, lowest address first, of the instruction whose table bits are w: a Standard word is split as R59 says,
an Expanded instruction is its bytes, first byte in bits 7..0; the bits above nbits are 0, up to the longest
instruction. -/
def tableBytes (nbits w : Nat) : List Byte :=
  let v := w % 2 ^ nbits
  match tableMode nbits with
  | .standard => stdBytes (BitVec.ofNat 14 v)
  | .expanded =>
    [BitVec.ofNat 8 v, BitVec.ofNat 8 (v / 2 ^ 8), BitVec.ofNat 8 (v / 2 ^ 16), BitVec.ofNat 8 (v / 2 ^ 24),
      BitVec.ofNat 8 (v / 2 ^ 32)]

/-- The instruction the decoder reads from an instruction whose bits the table numbers w. -/
def decodeTableWord (nbits w : Nat) : Option Instr :=
  match decode (tableMode nbits) (tableBytes nbits w) with
  | .ok (i, _) => some i
  | .error _ => none

end Sys2Proof
end

