-- ==== Sys2Proof/Machine/State.lean ====
section
/-! DEFINITION. The machine record of 10_state.md R14, its reset value (R35), the closed set of micro-operations the
queue holds (40_control_unit.md §3, §4), and the reasons a step, a meaning or a host action can stop. -/

namespace Sys2Proof.Machine

/-! ## Micro-operations -/

/-- A STATUS flag (10_state.md R21). -/
inductive Flag where
  | z
  | n
  | v
  | c
deriving DecidableEq, Repr

/-- The sources of `MarFrom` (40_control_unit.md R82). -/
inductive MarSrc where
  | pc
  | mdr
deriving DecidableEq, Repr

/-- The sources of `AbusFrom` (R83). -/
inductive AbusSrc where
  | mar
  | mdr
deriving DecidableEq, Repr

/-- The sources of `DbusFrom` (R86). -/
inductive DbusSrc where
  | acc
  | mdr
  | opnd
  | res
deriving DecidableEq, Repr

/-- The destinations of `Load` (R87). -/
inductive LoadReg where
  | acc
  | mdr
  | pc
deriving DecidableEq, Repr

/-- The registers `Rot` rotates (R88). -/
inductive RotReg where
  | mdr
  | pc
deriving DecidableEq, Repr

/-- The registers `Inc` increments (R89). -/
inductive IncReg where
  | pc
  | mar
deriving DecidableEq, Repr

/-- The two halves `CirStd` assembles (R90). -/
inductive CirPart where
  | first
  | second
deriving DecidableEq, Repr

/-- The latch `GetVal` writes (41_alu_arithmetic.md R112). -/
inductive Latch where
  | val1
  | val2
deriving DecidableEq, Repr

/-- The argument of `AluAdd` (41_alu_arithmetic.md R113). -/
inductive AddKind where
  | plain
  | sub
deriving DecidableEq, Repr

/-- The micro-operations: the closed set of 40_control_unit.md §3 and §4, 41_alu_arithmetic.md §2, 45_io.md R133 and
R135, 44_control_transfer.md R126 and 46_end.md R141. -/
inductive Micro where
  | fetch
  | fetchRest
  | decode
  | execute
  | branch (f : Flag)
  | busReq
  | busGrant
  | busRelease
  | readOn
  | readOff
  | writeOn
  | writeOff
  | marFrom (src : MarSrc)
  | abusFrom (src : AbusSrc)
  | memOut
  | memIn
  | dbusFrom (src : DbusSrc)
  | load (dst : LoadReg)
  | rot (reg : RotReg)
  | inc (reg : IncReg)
  | cirStd (part : CirPart)
  | cirExp (k : Fin 5)
  | loadOperand
  | getVal (latch : Latch)
  | aluAdd (kind : AddKind)
  | aluTwos
  | aluAnd
  | aluOr
  | aluXor
  | aluNot
  | ioOpen
  | ioPut
  | ioCallback
  | ioClose
  | inLoad
  | ioRelease
  | ioHandler
  | endRun
deriving DecidableEq, Repr

/-! ## Faults of the machine, run state, events -/

/-- The machine's faults (60_exceptions.md R143). Taking one is a next state (R144), so these are data of the state,
not the `Fault` of an outcome. The address is an integer because a host may name any (20_memory.md R56). -/
inductive FaultReason where
  | memAddr (a : Int)
  | decode (r : DecodeReason)
deriving DecidableEq, Repr

/-- The run state (10_state.md R32). -/
inductive Run where
  | idle
  | running
  | paused
  | haltedEnd
  | haltedFault (r : FaultReason)
deriving DecidableEq, Repr

/-- The host-visible events (10_state.md R32). -/
inductive Event where
  | output (v : Byte)
  | complete
  | error (r : FaultReason)
deriving DecidableEq, Repr

/-! ## Why a step, a meaning or a host action stops -/

/-- The faults of an outcome: states in which the spec gives no step. Each is safe: the machine does nothing there
either. -/
inductive Fault where
  /-- Raised by `step`, `microStep` and every meaning when the run state is not Running (40_control_unit.md R73: "When
  `run ≠ Running` there is no step"). Safe. -/
  | notRunning (r : Run)
  /-- Raised by `step` and `microStep` when a Running machine's queue is empty, which no run reaches (R73). Safe. -/
  | queueEmpty
deriving DecidableEq, Repr

/-- The refusals of an outcome. -/
inductive Refusal where
  /-- Raised by an arm of `exec` whose instruction has no meaning yet; no arm is. Safe. -/
  | notModelled (mnemonic : String)
  /-- Raised by a meaning asked to run an instruction of the format of the other machine mode, which that machine's
  decoder never gives (30_encoding.md R69); `step` never raises it. Safe. -/
  | otherMachineMode
  /-- Raised by a host action outside the run states 70_reset_and_hazards.md R155 admits it in. Safe. -/
  | notAdmitted
  /-- Raised by the loader for an image R152 refuses. Safe. -/
  | badImage
deriving DecidableEq, Repr

/-! ## The machine record -/

/-- Memory (20_memory.md R37, R38): the materialized entries, addresses strictly rising, no zero byte. -/
abbrev Memory := List Host.Cell

/-- STATUS (10_state.md R21). -/
structure Status where
  z : Bool
  n : Bool
  v : Bool
  c : Bool
deriving DecidableEq, Repr

/-- CONTROLBUS (10_state.md R26). `fidx` and `fval` are the flags vector. -/
structure Ctl where
  req : Bool
  gnt : Bool
  rd : Bool
  wr : Bool
  clk : Bool
  ioreq : Bool
  iognt : Bool
  fidx : BitVec 2
  fval : Bool
deriving DecidableEq, Repr

/-- The machine record (10_state.md R14), with the two parameters a run carries: `hz`, the clock frequency of
`Start(hz)` (R103), and `device`, the parameter DEVICE (45_io.md R136, entry 2). `pc`, `mar`, `mdr` and `abus` are A bits wide:
in Standard mode their upper 24 bits are 0. -/
@[ext]
structure State where
  mode : MachineMode
  pc : Addr
  mar : Addr
  mdr : Addr
  acc : Byte
  cir : Code
  status : Status
  abus : Addr
  dbus : Byte
  iobus : Byte
  ctl : Ctl
  val1 : Byte
  val2 : Byte
  res : Byte
  submark : Bool
  mem : Memory
  q : List Micro
  savedQ : List Micro
  ioPending : Bool
  ioVal : Byte
  ioAck : Bool
  run : Run
  events : List Event
  hz : Nat
  device : Device
deriving DecidableEq, Repr

/-- Every flag 0 (R35). -/
def Status.reset : Status := { z := false, n := false, v := false, c := false }

/-- Every line 0 and flags = (0, 0) (R35). -/
def Ctl.reset : Ctl :=
  { req := false, gnt := false, rd := false, wr := false, clk := false, ioreq := false, iognt := false,
    fidx := 0#2, fval := false }

/-- CIR at reset (R35): 14 zero bits, or the one-byte list [0x00]. -/
def resetCir : MachineMode → Code
  | .standard => .std 0#14
  | .expanded => .exp [0#8]

/-- The host's initialisation of a machine of this mode with this device (R35, 70_reset_and_hazards.md R151). -/
def State.resetIn (mode : MachineMode) (device : Device) : State :=
  { mode := mode, pc := 0#32, mar := 0#32, mdr := 0#32, acc := 0#8, cir := resetCir mode, status := Status.reset,
    abus := 0#32, dbus := 0#8, iobus := 0#8, ctl := Ctl.reset, val1 := 0#8, val2 := 0#8, res := 0#8,
    submark := false, mem := [], q := [], savedQ := [], ioPending := false, ioVal := 0#8, ioAck := false,
    run := .idle, events := [], hz := 0, device := device }

/-- The machine right after reset (R35), of the mode and with the device the parameters default to (entries 1
and 2). -/
def State.reset : State := State.resetIn Config.resetMode Config.silentDevice

end Sys2Proof.Machine
end

