-- ==== Sys2Proof/Machine/Ops.lean ====
section
/-! DEFINITION. The named operations over memory, registers, buses, control lines, the queue, the events and the I/O
arbiter, and the one operation that takes a fault. Every write to a component of State goes through one of these. -/

namespace Sys2Proof.Machine

/-! ## Memory (20_memory.md) -/

/-- What an address that the memory does not list reads as, in both machine modes: the zero word (R37, R38). -/
def Memory.unlisted : Byte := 0#8

/-- `MemRead(a, 1)` (R41). -/
def Memory.read : Memory → Nat → Byte
  | [], _ => Memory.unlisted
  | (a, v) :: m, x => if x = a then v else Memory.read m x

/-- `MemWrite(a, 1, v)` (R42): the zero word deletes the entry, any other word stores or overwrites it; the list stays
in address order. -/
def Memory.write : Memory → Nat → Byte → Memory
  | [], x, v => if v = Memory.unlisted then [] else [(x, v)]
  | (a, w) :: m, x, v =>
    if x < a then (if v = Memory.unlisted then (a, w) :: m else (x, v) :: (a, w) :: m)
    else if x = a then (if v = Memory.unlisted then m else (x, v) :: m)
    else (a, w) :: Memory.write m x v

/-- The canonical form (R38: "the materialized key set is exactly the set of addresses holding a nonzero word"), held
in both machine modes: addresses strictly rising, no entry equal to what an unlisted address reads as. -/
abbrev Memory.wf (m : Memory) : Prop :=
  m.Pairwise (fun x y => x.1 < y.1) ∧ ∀ c ∈ m, c.2 ≠ Memory.unlisted

/-- Every materialized address is one of the machine's (R36). -/
abbrev Memory.inRange (mode : MachineMode) (m : Memory) : Prop :=
  ∀ c ∈ m, c.1 < mode.memSize

/-! ## A-bit values (00_scope.md R8, R10) -/

/-- The low A bits of a value: what an A-bit register keeps of it (R10, 20_memory.md R47). -/
def fitTo : MachineMode → Addr → Addr
  | .standard, v => (v.setWidth 8).setWidth 32
  | .expanded, v => v

/-- What `Load` makes of an A-bit register (40_control_unit.md R87): all of it in Standard mode, its tail byte in
Expanded mode. -/
def loadTail : MachineMode → Addr → Byte → Addr
  | .standard, _, d => d.setWidth 32
  | .expanded, r, d => r.extractLsb' 8 24 ++ d

/-- `rotl_A(r, 8)` (R88): the identity on the 8 bits of a Standard register. -/
def rotA : MachineMode → Addr → Addr
  | .standard, r => r
  | .expanded, r => r.rotateLeft 8

/-- The constant of `Inc(PC)` (R89). -/
def pcIncrement : MachineMode → Addr
  | .standard => 2#32
  | .expanded => 1#32

/-! ## Registers and buses (10_state.md R16 to R20, R25, R29) -/

/-- Writes PC, A bits. -/
def State.writePc (s : State) (v : Addr) : State := { s with pc := fitTo s.mode v }

/-- Writes MAR, A bits. -/
def State.writeMar (s : State) (v : Addr) : State := { s with mar := fitTo s.mode v }

/-- Writes MDR, A bits. -/
def State.writeMdr (s : State) (v : Addr) : State := { s with mdr := fitTo s.mode v }

/-- Writes ACC. -/
def State.writeAcc (s : State) (v : Byte) : State := { s with acc := v }

/-- Writes CIR. -/
def State.writeCir (s : State) (c : Code) : State := { s with cir := c }

/-- Drives ADDRESSBUS, A bits (R25). -/
def State.driveAbus (s : State) (v : Addr) : State := { s with abus := fitTo s.mode v }

/-- Drives DATABUS (R25). -/
def State.driveDbus (s : State) (v : Byte) : State := { s with dbus := v }

/-- Drives IOBUS (R25). -/
def State.driveIobus (s : State) (v : Byte) : State := { s with iobus := v }

/-- Writes the ALU latch `val1` (R29). -/
def State.writeVal1 (s : State) (v : Byte) : State := { s with val1 := v }

/-- Writes the ALU latch `val2` (R29). -/
def State.writeVal2 (s : State) (v : Byte) : State := { s with val2 := v }

/-- Writes the ALU result latch (R29). -/
def State.writeRes (s : State) (v : Byte) : State := { s with res := v }

/-- Writes the subtraction mark (R29). -/
def State.writeSubmark (s : State) (b : Bool) : State := { s with submark := b }

/-! ## CIR (R20) -/

/-- The 14 bits of a Standard CIR. -/
def cirWord : Code → BitVec 14
  | .std word => word
  | .exp _ => 0#14

/-- The bytes of an Expanded CIR. -/
def cirBytes : Code → List Byte
  | .std _ => []
  | .exp bytes => bytes

/-- `CIR.b[0]` of an Expanded CIR. -/
def cirHead (c : Code) : Byte := (cirBytes c).headD 0#8

/-- The opcode field of CIR (R20, 30_encoding.md R58, R60). -/
def cirOpcode : MachineMode → Code → BitVec 4
  | .standard, c => (cirWord c).extractLsb' 10 4
  | .expanded, c => (cirHead c).extractLsb' 4 4

/-- `CIR[7:0]` of a Standard CIR, the operand field `OPND` (40_control_unit.md R86). -/
def cirOpnd (c : Code) : Byte := (cirWord c).extractLsb' 0 8

/-- The zero-extended operand of an Expanded CIR (30_encoding.md R62). -/
def cirOperand (c : Code) : Addr := expOperand (cirBytes c).tail

/-! ## CONTROLBUS lines (R26) -/

/-- Drives `req`. -/
def State.setReq (s : State) (b : Bool) : State := { s with ctl := { s.ctl with req := b } }

/-- Drives `gnt`. -/
def State.setGnt (s : State) (b : Bool) : State := { s with ctl := { s.ctl with gnt := b } }

/-- Drives `rd`. -/
def State.setRd (s : State) (b : Bool) : State := { s with ctl := { s.ctl with rd := b } }

/-- Drives `wr`. -/
def State.setWr (s : State) (b : Bool) : State := { s with ctl := { s.ctl with wr := b } }

/-- Drives `clk`. -/
def State.setClk (s : State) (b : Bool) : State := { s with ctl := { s.ctl with clk := b } }

/-- Drives `ioreq`. -/
def State.setIoreq (s : State) (b : Bool) : State := { s with ctl := { s.ctl with ioreq := b } }

/-- Drives `iognt`. -/
def State.setIognt (s : State) (b : Bool) : State := { s with ctl := { s.ctl with iognt := b } }

/-! ## Queue, events, arbiter cells, run state (R30 to R32) -/

/-- `append(Q, ms)`: micro-ops enter only at the tail (40_control_unit.md R75). -/
def State.append (s : State) (ms : List Micro) : State := { s with q := s.q ++ ms }

/-- Replaces the queue: what a pop, an emptying or a restore leaves. -/
def State.setQ (s : State) (ms : List Micro) : State := { s with q := ms }

/-- Replaces the saved queue. -/
def State.setSavedQ (s : State) (ms : List Micro) : State := { s with savedQ := ms }

/-- `emit E` (00_scope.md R11). -/
def State.emit (s : State) (e : Event) : State := { s with events := s.events ++ [e] }

/-- Writes `run`. -/
def State.setRun (s : State) (r : Run) : State := { s with run := r }

/-- Writes `io_ack`. -/
def State.setIoAck (s : State) (b : Bool) : State := { s with ioAck := b }

/-- Writes `io_pending`. -/
def State.setIoPending (s : State) (b : Bool) : State := { s with ioPending := b }

/-- Writes `io_val`. -/
def State.setIoVal (s : State) (v : Byte) : State := { s with ioVal := v }

/-- Replaces the memory. -/
def State.setMem (s : State) (m : Memory) : State := { s with mem := m }

/-! ## Taking a fault -/

/-- The numeric code of a fault (60_exceptions.md R143): no state holds it, the host that needs a number reads it. -/
def FaultReason.code : FaultReason → Nat
  | .memAddr _ => 1
  | .decode (.badMode _) => 2
  | .decode (.badLength _) => 3
  | .decode (.badForm _ _ _) => 4

/-- `raise Fault(r)` (60_exceptions.md R144): the queue is emptied, the run is halted with the reason, the error is
emitted; every other component keeps its value. Nothing saves a pc or a status, nothing is vectored to, and no
operation returns from it (R147, R149). -/
def State.raise (s : State) (r : FaultReason) : State :=
  ((s.setQ []).setRun (.haltedFault r)).emit (.error r)

/-! ## Memory access by the CU -/

/-- `getAddress()` (20_memory.md R39): the address on ADDRESSBUS, or the fault of one outside the memory. -/
def State.getAddress (s : State) : Except FaultReason Nat :=
  if s.abus.toNat < s.mode.memSize then .ok s.abus.toNat else .error (.memAddr s.abus.toNat)

/-- `MemOut` (40_control_unit.md R84). -/
def State.memOut (s : State) : State :=
  match s.getAddress with
  | .ok a => s.driveDbus (Memory.read s.mem a)
  | .error r => s.raise r

/-- `MemIn` (R85). -/
def State.memIn (s : State) : State :=
  match s.getAddress with
  | .ok a => s.setMem (Memory.write s.mem a s.dbus)
  | .error r => s.raise r

/-! ## The I/O arbiter (45_io.md) -/

/-- `SetIoGrant(b)` (R132): on assertion a pending input goes onto IOBUS. -/
def State.setIoGrant (s : State) (b : Bool) : State :=
  if b && s.ioPending then ((s.setIognt b).driveIobus s.ioVal).setIoPending false
  else s.setIognt b

/-- `receiveInput(v)` (R131). -/
def State.receiveInput (s : State) (v : Byte) : State :=
  ((s.setIoPending true).setIoVal v).setIoreq true

/-- The values output so far (R136), oldest first. -/
def outputsOf (events : List Event) : List Byte :=
  events.filterMap fun e => match e with
    | .output v => some v
    | _ => none

/-- The answer of a table to a history of outputs: the first row for that history. -/
def tableReply : List (List Byte × Byte) → List Byte → Option Byte
  | [], _ => none
  | (outs, v) :: rows, x => if x = outs then some v else tableReply rows x

/-- The device's answer to a history of outputs, oldest first (R136): the function DEVICE (entry 2). -/
def deviceReply : Device → List Byte → Option Byte
  | .silent, _ => none
  | .lastPlus k, outs => outs.getLast?.map fun v => v + k
  | .table rows, outs => tableReply rows outs
  | .any index, outs => Config.anyDevice index outs

/-- `IoCheck` (40_control_unit.md R76). -/
def State.ioCheck (s : State) : State :=
  if s.ctl.ioreq && !s.ioAck then (s.append [.ioHandler]).setIoAck true else s

end Sys2Proof.Machine
end

