-- ==== Sys2Proof/Machine/Flags.lean ====
section
/-! DEFINITION. The ALU functions and the flags they compute (41_alu_arithmetic.md §1), and the flag writes through
CONTROLBUS (10_state.md R27). -/

namespace Sys2Proof.Machine

/-- The index of a STATUS bit on the flags line (10_state.md R21). -/
def Flag.index : Flag → BitVec 2
  | .z => 0#2
  | .n => 1#2
  | .v => 2#2
  | .c => 3#2

/-- STATUS with one bit written. -/
def Status.write (st : Status) (f : Flag) (b : Bool) : Status :=
  match f with
  | .z => { st with z := b }
  | .n => { st with n := b }
  | .v => { st with v := b }
  | .c => { st with c := b }

/-- One bit of STATUS, as the branches read it (10_state.md R23). -/
def Status.get (st : Status) : Flag → Bool
  | .z => st.z
  | .n => st.n
  | .v => st.v
  | .c => st.c

/-- `FlagWrite(i, b)` (10_state.md R27): the flags line, then the STATUS bit. -/
def State.flagWrite (s : State) (f : Flag) (b : Bool) : State :=
  { s with ctl := { s.ctl with fidx := f.index, fval := b }, status := s.status.write f b }

/-- The result of `add8` (R108). -/
def add8 (a b : Byte) : Byte := BitVec.ofNat 8 (a.toNat + b.toNat)

/-- The carry of `add8` (R108): the integer sum is at least 256. -/
def add8Carry (a b : Byte) : Bool := decide (256 ≤ a.toNat + b.toNat)

/-- The overflow of `add8` (R108): the operands share a sign that the result does not have. -/
def add8Overflow (a b : Byte) : Bool := a.msb == b.msb && (add8 a b).msb != a.msb

/-- `NOT x`, the operand `twos8` adds 1 to (R109). -/
def not8 (x : Byte) : Byte := ~~~x

/-- The result of `twos8` (R109): `add8(NOT x, 1)`. -/
def twos8 (x : Byte) : Byte := add8 (not8 x) 1#8

/-- `zn8(r)` (R110): Z, then N. -/
def State.zn8 (s : State) (r : Byte) : State :=
  (s.flagWrite .z (decide (r = 0#8))).flagWrite .n r.msb

/-- The flag writes of `add8(a, b)`, in R108's order: C, V, Z, N. -/
def State.addFlags (s : State) (a b : Byte) : State :=
  ((s.flagWrite .c (add8Carry a b)).flagWrite .v (add8Overflow a b)).zn8 (add8 a b)

/-- `AluAdd(k)` (R113). -/
def State.aluAdd (s : State) (k : AddKind) : State :=
  ((s.addFlags s.val1 s.val2).writeRes (add8 s.val1 s.val2)).writeSubmark (decide (k = .sub))

/-- `AluTwos` (R114): the complement replaces `val1`, with the flags of its inner addition. -/
def State.aluTwos (s : State) : State :=
  ((s.addFlags (not8 s.val1) 1#8).writeVal1 (twos8 s.val1)).writeRes (twos8 s.val1)

/-- A bitwise ALU micro-op with result r (R115): `res <- r; zn8(r)`, C and V unchanged. -/
def State.aluBitwise (s : State) (r : Byte) : State :=
  (s.writeRes r).zn8 r

/-! ## The adder bit by bit

R108: "Each bit position is a standard full adder". The statements relate these to `add8`; the machine uses `add8`. -/

/-- The sum bit of a standard full adder. -/
def fullSum (a b c : Bool) : Bool := (a != b) != c

/-- The carry out of a standard full adder. -/
def fullCarry (a b c : Bool) : Bool := (a && b) || (c && (a || b))

/-- The carry into bit i of the ripple addition of two bit vectors, carry-in 0. -/
def rippleCarry (a b : BitVec w) : Nat → Bool
  | 0 => false
  | i + 1 => fullCarry (a.getLsbD i) (b.getLsbD i) (rippleCarry a b i)

/-- Bit i of the ripple sum. -/
def rippleBit (a b : BitVec w) (i : Nat) : Bool :=
  fullSum (a.getLsbD i) (b.getLsbD i) (rippleCarry a b i)

end Sys2Proof.Machine
end

