-- ==== Sys2Proof/Machine/Operands.lean ====
section
/-! DEFINITION. The operand phase: the micro-ops that `Decode` appends to leave the resolved operand in MDR
(40_control_unit.md R98, R99), for every operand class, addressing mode and machine mode. -/

namespace Sys2Proof.Machine

/-- `GetOpStd(class, m)` (R98). -/
def getOpStd : OpClass → AddrMode → List Micro
  | .none, _ => []
  | _, .direct => [.busReq, .busGrant, .dbusFrom .opnd, .load .mdr, .busRelease]
  | _, .address =>
    [.busReq, .busGrant, .dbusFrom .opnd, .load .mdr, .marFrom .mdr, .readOn, .abusFrom .mar, .memOut, .load .mdr,
      .readOff, .busRelease]

/-- One of the four rounds of a pointer read (R99, address class in mode 1). -/
def pointerRound : List Micro :=
  [.abusFrom .mar, .memOut, .rot .mdr, .load .mdr, .inc .mar]

/-- `GetOpExp(class, m)` (R99). -/
def getOpExp : OpClass → AddrMode → List Micro
  | .none, _ => []
  | .data, .direct => [.loadOperand]
  | .addr, .direct => [.loadOperand]
  | .data, .address =>
    [.loadOperand, .busReq, .busGrant, .marFrom .mdr, .readOn, .abusFrom .mar, .memOut, .load .mdr, .readOff,
      .busRelease]
  | .addr, .address =>
    [.loadOperand, .busReq, .busGrant, .marFrom .mdr, .readOn] ++ pointerRound ++ pointerRound ++ pointerRound
      ++ pointerRound ++ [.readOff, .busRelease]

end Sys2Proof.Machine
end

