-- ==== Sys2Proof/Machine/Bodies.lean ====
section
/-! DEFINITION. The Bodies: the micro-ops `Execute` appends for each opcode (40_control_unit.md R101), as the
instruction rules of 41 to 46 list them. -/

namespace Sys2Proof.Machine

/-- The Body of `add` (41_alu_arithmetic.md R116). -/
def addBody : List Micro :=
  [.busReq, .busGrant, .dbusFrom .acc, .getVal .val1, .dbusFrom .mdr, .getVal .val2, .aluAdd .plain, .dbusFrom .res,
    .load .acc, .busRelease, .fetch]

/-- The Body of `sub` (R117): the operand is complemented, ACC is added. -/
def subBody : List Micro :=
  [.busReq, .busGrant, .dbusFrom .mdr, .getVal .val1, .aluTwos, .dbusFrom .acc, .getVal .val2, .aluAdd .sub,
    .dbusFrom .res, .load .acc, .busRelease, .fetch]

/-- The Body that `and`, `or` and `xor` share but for their ALU micro-op (42_logic.md R118 to R120). -/
def logicBody (alu : Micro) : List Micro :=
  [.busReq, .busGrant, .dbusFrom .mdr, .getVal .val1, .dbusFrom .acc, .getVal .val2, alu, .dbusFrom .res, .load .acc,
    .busRelease, .fetch]

/-- The Body of `and` (R118). -/
def andBody : List Micro := logicBody .aluAnd

/-- The Body of `or` (R119). -/
def orBody : List Micro := logicBody .aluOr

/-- The Body of `xor` (R120). -/
def xorBody : List Micro := logicBody .aluXor

/-- The Body of `not` (R121). -/
def notBody : List Micro :=
  [.busReq, .busGrant, .dbusFrom .acc, .getVal .val1, .aluNot, .dbusFrom .res, .load .acc, .busRelease, .fetch]

/-- The Body of `read` (43_memory_access.md R122). -/
def readBody : List Micro :=
  [.busReq, .busGrant, .readOn, .abusFrom .mdr, .memOut, .load .acc, .readOff, .busRelease, .fetch]

/-- The Body of `write` (R123). -/
def writeBody : List Micro :=
  [.busReq, .busGrant, .writeOn, .abusFrom .mdr, .dbusFrom .acc, .memIn, .writeOff, .busRelease, .fetch]

/-- One of the four rounds of the Expanded `GotoBody` (44_control_transfer.md R124). -/
def gotoRound : List Micro := [.rot .mdr, .dbusFrom .mdr, .rot .pc, .load .pc]

/-- `GotoBody` (R124). -/
def gotoBody : MachineMode → List Micro
  | .standard => [.busReq, .busGrant, .dbusFrom .mdr, .load .pc, .busRelease, .fetch]
  | .expanded =>
    [.busReq, .busGrant] ++ gotoRound ++ gotoRound ++ gotoRound ++ gotoRound ++ [.busRelease, .fetch]

/-- The Body of a conditional branch (R127 to R130). -/
def branchBody (f : Flag) : List Micro := [.branch f]

/-- The Body of `output` (45_io.md R137). -/
def outputBody : List Micro := [.ioOpen, .ioPut, .ioCallback, .ioClose, .fetch]

/-- The Body of `input` (R138). -/
def inputBody : List Micro := [.inLoad, .ioRelease, .fetch]

/-- The Body of `end` (46_end.md R142): no `Fetch` follows. -/
def endBody : List Micro := [.endRun]

/-- `Body(op)` (40_control_unit.md R101). -/
def bodyOf (mode : MachineMode) : Opcode → List Micro
  | .add => addBody
  | .sub => subBody
  | .and => andBody
  | .or => orBody
  | .xor => xorBody
  | .not => notBody
  | .read => readBody
  | .write => writeBody
  | .goto => gotoBody mode
  | .branchIfZero => branchBody .z
  | .branchIfNegative => branchBody .n
  | .branchIfOverflow => branchBody .v
  | .branchIfCarry => branchBody .c
  | .output => outputBody
  | .input => inputBody
  | .endRun => endBody

end Sys2Proof.Machine
end

