-- ==== Sys2Proof/Machine/MicroStep.lean ====
section
/-! DEFINITION. The control unit: the effect of every micro-op, the step of 40_control_unit.md R73 that dispatches one,
and the phases of the instruction cycle (R77) as runs of such steps. -/

namespace Sys2Proof.Machine

/-! ## The phase micro-ops (R93 to R97, R101, 44_control_transfer.md R126) -/

/-- What `Fetch` appends in Standard mode (R93). -/
def fetchStd : List Micro :=
  [.busReq, .busGrant, .marFrom .pc, .readOn, .abusFrom .mar, .memOut, .load .mdr, .cirStd .first, .inc .mar,
    .abusFrom .mar, .memOut, .load .mdr, .cirStd .second, .readOff, .inc .pc, .busRelease, .decode]

/-- What `Fetch` appends in Expanded mode (R94). -/
def fetchExp : List Micro :=
  [.busReq, .busGrant, .marFrom .pc, .readOn, .abusFrom .mar, .memOut, .load .mdr, .cirExp 0, .inc .pc, .fetchRest]

/-- What `Fetch` appends (R93, R94). -/
def fetchOf : MachineMode → List Micro
  | .standard => fetchStd
  | .expanded => fetchExp

/-- The micro-ops that fetch operand byte k (R95). -/
def fetchByte (k : Fin 5) : List Micro :=
  [.marFrom .pc, .abusFrom .mar, .memOut, .load .mdr, .cirExp k, .inc .pc]

/-- The operand-byte fetches of `FetchRest` for a legal length n (R95). -/
def fetchOperand (n : BitVec 3) : List Micro :=
  if n = 1#3 then fetchByte 1
  else if n = 4#3 then fetchByte 1 ++ fetchByte 2 ++ fetchByte 3 ++ fetchByte 4
  else []

/-- `FetchRest` (R95): a length that is not legal faults before any operand byte is fetched. -/
def State.fetchRest (s : State) : State :=
  let n := (cirHead s.cir).extractLsb' 0 3
  if legalLength n then s.append (fetchOperand n ++ [.readOff, .busRelease, .decode])
  else s.raise (.decode (.badLength n))

/-- `Decode` in Standard mode (R96). -/
def State.decodeStdOp (s : State) : State :=
  let m := (cirWord s.cir).extractLsb' 8 2
  if m = 2#2 ∨ m = 3#2 then s.raise (.decode (.badMode m))
  else
    s.append (getOpStd ((Opcode.ofBits (cirOpcode .standard s.cir)).classIn .standard)
      (AddrMode.ofBit ((cirWord s.cir).extractLsb' 8 1)) ++ [.execute])

/-- `Decode` in Expanded mode (R97). -/
def State.decodeExpOp (s : State) : State :=
  let op := cirOpcode .expanded s.cir
  let m := (cirHead s.cir).extractLsb' 3 1
  let n := (cirHead s.cir).extractLsb' 0 3
  let cls := (Opcode.ofBits op).classIn .expanded
  if n = cls.legalLen (AddrMode.ofBit m) then s.append (getOpExp cls (AddrMode.ofBit m) ++ [.execute])
  else s.raise (.decode (.badForm op m n))

/-- `Decode` (R96, R97). -/
def State.decodeOp (s : State) : State :=
  match s.mode with
  | .standard => s.decodeStdOp
  | .expanded => s.decodeExpOp

/-- `Execute` (R101). -/
def State.executeOp (s : State) : State :=
  s.append (bodyOf s.mode (Opcode.ofBits (cirOpcode s.mode s.cir)))

/-- `Branch(X)` (44_control_transfer.md R126). -/
def State.branchOp (s : State) (f : Flag) : State :=
  if s.status.get f then s.append (gotoBody s.mode) else s.append [.fetch]

/-! ## The datapath micro-ops (R82 to R92) -/

/-- `MarFrom(src)` (R82). -/
def State.marFrom (s : State) : MarSrc → State
  | .pc => s.writeMar s.pc
  | .mdr => s.writeMar s.mdr

/-- `AbusFrom(src)` (R83). -/
def State.abusFrom (s : State) : AbusSrc → State
  | .mar => s.driveAbus s.mar
  | .mdr => s.driveAbus s.mdr

/-- `DbusFrom(src)` (R86). -/
def State.dbusFrom (s : State) : DbusSrc → State
  | .acc => s.driveDbus s.acc
  | .mdr => s.driveDbus (s.mdr.setWidth 8)
  | .opnd => s.driveDbus (cirOpnd s.cir)
  | .res => s.driveDbus s.res

/-- `Load(dst)` (R87). -/
def State.load (s : State) : LoadReg → State
  | .acc => s.writeAcc s.dbus
  | .mdr => s.writeMdr (loadTail s.mode s.mdr s.dbus)
  | .pc => s.writePc (loadTail s.mode s.pc s.dbus)

/-- `Rot(reg)` (R88). -/
def State.rot (s : State) : RotReg → State
  | .mdr => s.writeMdr (rotA s.mode s.mdr)
  | .pc => s.writePc (rotA s.mode s.pc)

/-- `Inc(reg)` (R89): modulo 2^A, no flag. -/
def State.inc (s : State) : IncReg → State
  | .pc => s.writePc (s.pc + pcIncrement s.mode)
  | .mar => s.writeMar (s.mar + 1#32)

/-- `CirStd(part)` (R90), Standard mode only (entry 10). -/
def State.cirStd (s : State) (part : CirPart) : State :=
  match s.mode, part with
  | .standard, .first => s.writeCir (.std (s.mdr.setWidth 8 ++ (cirWord s.cir).extractLsb' 0 6))
  | .standard, .second => s.writeCir (.std ((cirWord s.cir).extractLsb' 6 8 ++ s.mdr.setWidth 6))
  | .expanded, _ => s

/-- `CirExp(k)` (R91), Expanded mode only (entry 10). -/
def State.cirExp (s : State) (k : Fin 5) : State :=
  match s.mode with
  | .standard => s
  | .expanded => s.writeCir (.exp ((cirBytes s.cir).take k ++ [s.mdr.setWidth 8]))

/-- `LoadOperand(MDR)` (R92). -/
def State.loadOperand (s : State) : State :=
  s.writeMdr (cirOperand s.cir)

/-- `GetVal(latch)` (41_alu_arithmetic.md R112). -/
def State.getVal (s : State) : Latch → State
  | .val1 => s.writeVal1 s.dbus
  | .val2 => s.writeVal2 s.dbus

/-! ## The I/O micro-ops (45_io.md R133, R135, R136) and End (46_end.md R141) -/

/-- `IoPut` (R135): ACC in Standard mode, MDR[7:0] in Expanded mode. -/
def State.ioPut (s : State) : State :=
  match s.mode with
  | .standard => s.driveIobus s.acc
  | .expanded => s.driveIobus (s.mdr.setWidth 8)

/-- `IoCallback` (R135, R136): the output event, then the device's answer in the same step. -/
def State.ioCallback (s : State) : State :=
  let s' := s.emit (.output s.iobus)
  match deviceReply s'.device (outputsOf s'.events) with
  | some v => s'.receiveInput v
  | none => s'

/-- `IoHandler` (R133). -/
def State.ioHandler (s : State) : State :=
  if s.ctl.gnt || s.ctl.iognt then s.append [.ioHandler]
  else ((s.setIoGrant true).setIoreq false).setIoAck false

/-- `End` (46_end.md R141). -/
def State.endRun (s : State) : State :=
  (((((s.setQ []).setSavedQ []).setIoAck false).setClk false).setRun .haltedEnd).emit .complete

/-! ## The step of R73 -/

/-- `perform m` (R73): the rule of each micro-op. -/
def perform (m : Micro) (s : State) : State :=
  match m with
  | .fetch => s.append (fetchOf s.mode)
  | .fetchRest => s.fetchRest
  | .decode => s.decodeOp
  | .execute => s.executeOp
  | .branch f => s.branchOp f
  | .busReq => s.setReq true
  | .busGrant => s.setGnt true
  | .busRelease => (s.setReq false).setGnt false
  | .readOn => s.setRd true
  | .readOff => s.setRd false
  | .writeOn => s.setWr true
  | .writeOff => s.setWr false
  | .marFrom src => s.marFrom src
  | .abusFrom src => s.abusFrom src
  | .memOut => s.memOut
  | .memIn => s.memIn
  | .dbusFrom src => s.dbusFrom src
  | .load dst => s.load dst
  | .rot reg => s.rot reg
  | .inc reg => s.inc reg
  | .cirStd part => s.cirStd part
  | .cirExp k => s.cirExp k
  | .loadOperand => s.loadOperand
  | .getVal latch => s.getVal latch
  | .aluAdd kind => s.aluAdd kind
  | .aluTwos => s.aluTwos
  | .aluAnd => s.aluBitwise (s.val1 &&& s.val2)
  | .aluOr => s.aluBitwise (s.val1 ||| s.val2)
  | .aluXor => s.aluBitwise (s.val1 ^^^ s.val2)
  | .aluNot => s.aluBitwise (~~~s.val1)
  | .ioOpen => s.setIoGrant true
  | .ioPut => s.ioPut
  | .ioCallback => s.ioCallback
  | .ioClose => s.setIoGrant false
  | .inLoad => s.writeAcc s.iobus
  | .ioRelease => s.setIoGrant false
  | .ioHandler => s.ioHandler
  | .endRun => s.endRun

/-- The check after the micro-op: only a machine still Running makes it (R73, R76). -/
def State.afterMicro (s : State) : State :=
  match s.run with
  | .running => s.ioCheck
  | _ => s

/-- One clock cycle around the effect `f` of a micro-op that has been popped (R73, R74). -/
def tick (f : State → State) (s : State) : State :=
  (f (s.setClk true)).afterMicro.setClk false

/-- The dispatch of a popped micro-op (R73). -/
def dispatch (m : Micro) (s : State) : State := tick (perform m) s

/-- The step of the spec (R73): pop one micro-op and dispatch it. -/
def microStep (s : State) : Host.Outcome State Fault Refusal :=
  match s.run with
  | .running =>
    match s.q with
    | [] => .fault .queueEmpty
    | m :: rest => .next (dispatch m (s.setQ rest))
  | r => .fault (.notRunning r)

/-- `n` steps of R73, stopping early in a state that has none. -/
def microRun : Nat → State → State
  | 0, s => s
  | n + 1, s =>
    match microStep s with
    | .next s' => microRun n s'
    | _ => s

/-! ## Phases of the instruction cycle (R77) -/

/-- Dispatches micro-ops until one that `stop` picks is at the head of the queue, the machine no longer has a step, or
the bound is used up (entry 5). -/
def runUntil (stop : Micro → Bool) : Nat → State → State
  | 0, s => s
  | n + 1, s =>
    match s.run, s.q with
    | .running, m :: rest => if stop m then s else runUntil stop n (dispatch m (s.setQ rest))
    | _, _ => s

/-- The head the fetch phase ends at: `Decode`, or the next `Fetch` when a step begins inside an instruction. -/
def atDecodeOrFetch (m : Micro) : Bool := decide (m = .decode) || decide (m = .fetch)

/-- The head the operand phase ends at. -/
def atExecute (m : Micro) : Bool := decide (m = .execute)

/-- The head an instruction ends at (R107). -/
def atFetch (m : Micro) : Bool := decide (m = .fetch)

/-- The Decode and GetOperand phases of an instruction whose operand micro-ops are `getOp`: the `Decode` micro-op's
dispatch, then all up to `Execute` (R77, R96 to R99). -/
def operandPhase (getOp : List Micro) (s : State) : State :=
  runUntil atExecute Config.phaseFuel (tick (fun t => t.append (getOp ++ [.execute])) s)

/-- The Execute phase of an instruction whose Body is `body`: the `Execute` micro-op's dispatch, then all up to the
next `Fetch` or a halt (R77, R101). -/
def executePhase (body : List Micro) (s : State) : State :=
  match s.q with
  | .execute :: rest => runUntil atFetch Config.phaseFuel (tick (fun t => t.append body) (s.setQ rest))
  | _ => s

/-- The instruction cycle after the fetch, for an instruction with these bits, operand micro-ops and Body: every
meaning is one call of it. The state is the one in which `Decode` has just been popped; the instruction stands in
CIR (R20, entry 12). -/
def runInstr (mode : MachineMode) (code : Code) (getOp body : List Micro) (s : State) :
    Host.Outcome State Fault Refusal :=
  match s.run with
  | .running =>
    if s.mode = mode then .next (executePhase body (operandPhase getOp (s.writeCir code)))
    else .refused .otherMachineMode
  | r => .fault (.notRunning r)

end Sys2Proof.Machine
end

