-- ==== Sys2Proof/Machine/Arithmetic.lean ====
section
/-! DEFINITION. The meanings of `add` and `sub` (41_alu_arithmetic.md R116, R117): class DATA in both machine modes. -/

namespace Sys2Proof.Machine

/-- `add`, Standard form (R116). -/
def execStdAdd (m : AddrMode) (n : Byte) (s : State) : Host.Outcome State Fault Refusal :=
  runInstr .standard (Instr.stdAdd m n).code (getOpStd .data m) addBody s

/-- `sub`, Standard form (R117). -/
def execStdSub (m : AddrMode) (n : Byte) (s : State) : Host.Outcome State Fault Refusal :=
  runInstr .standard (Instr.stdSub m n).code (getOpStd .data m) subBody s

/-- `add n`, Expanded literal form (R116). -/
def execExpAddLit (n : Byte) (s : State) : Host.Outcome State Fault Refusal :=
  runInstr .expanded (Instr.expAddLit n).code (getOpExp .data .direct) addBody s

/-- `add [n]`, Expanded address form (R116). -/
def execExpAddMem (a : Addr) (s : State) : Host.Outcome State Fault Refusal :=
  runInstr .expanded (Instr.expAddMem a).code (getOpExp .data .address) addBody s

/-- `sub n`, Expanded literal form (R117). -/
def execExpSubLit (n : Byte) (s : State) : Host.Outcome State Fault Refusal :=
  runInstr .expanded (Instr.expSubLit n).code (getOpExp .data .direct) subBody s

/-- `sub [n]`, Expanded address form (R117). -/
def execExpSubMem (a : Addr) (s : State) : Host.Outcome State Fault Refusal :=
  runInstr .expanded (Instr.expSubMem a).code (getOpExp .data .address) subBody s

end Sys2Proof.Machine
end

