-- ==== Sys2Proof/Machine/Control.lean ====
section
/-! DEFINITION. The meanings of `goto` and the four conditional branches (44_control_transfer.md R124 to R130): class ADDR. -/

namespace Sys2Proof.Machine

/-- `goto`, Standard form (R125). -/
def execStdGoto (m : AddrMode) (n : Byte) (s : State) : Host.Outcome State Fault Refusal :=
  runInstr .standard (Instr.stdGoto m n).code (getOpStd .addr m) (gotoBody .standard) s

/-- `branch_if_zero`, Standard form (R127). -/
def execStdBranchIfZero (m : AddrMode) (n : Byte) (s : State) : Host.Outcome State Fault Refusal :=
  runInstr .standard (Instr.stdBranchIfZero m n).code (getOpStd .addr m) (branchBody .z) s

/-- `branch_if_negative`, Standard form (R128). -/
def execStdBranchIfNegative (m : AddrMode) (n : Byte) (s : State) : Host.Outcome State Fault Refusal :=
  runInstr .standard (Instr.stdBranchIfNegative m n).code (getOpStd .addr m) (branchBody .n) s

/-- `branch_if_overflow`, Standard form (R129). -/
def execStdBranchIfOverflow (m : AddrMode) (n : Byte) (s : State) : Host.Outcome State Fault Refusal :=
  runInstr .standard (Instr.stdBranchIfOverflow m n).code (getOpStd .addr m) (branchBody .v) s

/-- `branch_if_carry`, Standard form (R130). -/
def execStdBranchIfCarry (m : AddrMode) (n : Byte) (s : State) : Host.Outcome State Fault Refusal :=
  runInstr .standard (Instr.stdBranchIfCarry m n).code (getOpStd .addr m) (branchBody .c) s

/-- `goto`, Expanded form (R125). -/
def execExpGoto (m : AddrMode) (a : Addr) (s : State) : Host.Outcome State Fault Refusal :=
  runInstr .expanded (Instr.expGoto m a).code (getOpExp .addr m) (gotoBody .expanded) s

/-- `branch_if_zero`, Expanded form (R127). -/
def execExpBranchIfZero (m : AddrMode) (a : Addr) (s : State) : Host.Outcome State Fault Refusal :=
  runInstr .expanded (Instr.expBranchIfZero m a).code (getOpExp .addr m) (branchBody .z) s

/-- `branch_if_negative`, Expanded form (R128). -/
def execExpBranchIfNegative (m : AddrMode) (a : Addr) (s : State) : Host.Outcome State Fault Refusal :=
  runInstr .expanded (Instr.expBranchIfNegative m a).code (getOpExp .addr m) (branchBody .n) s

/-- `branch_if_overflow`, Expanded form (R129). -/
def execExpBranchIfOverflow (m : AddrMode) (a : Addr) (s : State) : Host.Outcome State Fault Refusal :=
  runInstr .expanded (Instr.expBranchIfOverflow m a).code (getOpExp .addr m) (branchBody .v) s

/-- `branch_if_carry`, Expanded form (R130). -/
def execExpBranchIfCarry (m : AddrMode) (a : Addr) (s : State) : Host.Outcome State Fault Refusal :=
  runInstr .expanded (Instr.expBranchIfCarry m a).code (getOpExp .addr m) (branchBody .c) s

end Sys2Proof.Machine
end

