-- ==== Sys2Proof/Machine/EndOfRun.lean ====
section
/-! DEFINITION. The meaning of `end` (46_end.md R142): class NONE. -/

namespace Sys2Proof.Machine

/-- `end`, Standard form (R142). -/
def execStdEnd (m : AddrMode) (n : Byte) (s : State) : Host.Outcome State Fault Refusal :=
  runInstr .standard (Instr.stdEnd m n).code (getOpStd .none m) endBody s

/-- `end`, Expanded form (R142). -/
def execExpEnd (m : AddrMode) (s : State) : Host.Outcome State Fault Refusal :=
  runInstr .expanded (Instr.expEnd m).code (getOpExp .none m) endBody s

end Sys2Proof.Machine
end

