-- ==== Sys2Proof/Machine/Io.lean ====
section
/-! DEFINITION. The meanings of `output` and `input` (45_io.md R137, R138): `output` is class NONE in Standard mode and class DATA in
Expanded mode, `input` is class NONE. -/

namespace Sys2Proof.Machine

/-- `output`, Standard form (R137). -/
def execStdOutput (m : AddrMode) (n : Byte) (s : State) : Host.Outcome State Fault Refusal :=
  runInstr .standard (Instr.stdOutput m n).code (getOpStd .none m) outputBody s

/-- `input`, Standard form (R138). -/
def execStdInput (m : AddrMode) (n : Byte) (s : State) : Host.Outcome State Fault Refusal :=
  runInstr .standard (Instr.stdInput m n).code (getOpStd .none m) inputBody s

/-- `output n`, Expanded literal form (R137). -/
def execExpOutputLit (n : Byte) (s : State) : Host.Outcome State Fault Refusal :=
  runInstr .expanded (Instr.expOutputLit n).code (getOpExp .data .direct) outputBody s

/-- `output [n]`, Expanded address form (R137). -/
def execExpOutputMem (a : Addr) (s : State) : Host.Outcome State Fault Refusal :=
  runInstr .expanded (Instr.expOutputMem a).code (getOpExp .data .address) outputBody s

/-- `input`, Expanded form (R138). -/
def execExpInput (m : AddrMode) (s : State) : Host.Outcome State Fault Refusal :=
  runInstr .expanded (Instr.expInput m).code (getOpExp .none m) inputBody s

end Sys2Proof.Machine
end

