-- ==== Sys2Proof/Machine/Logic.lean ====
section
/-! DEFINITION. The meanings of `and`, `or`, `xor` (class DATA) and `not` (class NONE) (42_logic.md R118 to R121). -/

namespace Sys2Proof.Machine

/-- `and`, Standard form (R118). -/
def execStdAnd (m : AddrMode) (n : Byte) (s : State) : Host.Outcome State Fault Refusal :=
  runInstr .standard (Instr.stdAnd m n).code (getOpStd .data m) andBody s

/-- `or`, Standard form (R119). -/
def execStdOr (m : AddrMode) (n : Byte) (s : State) : Host.Outcome State Fault Refusal :=
  runInstr .standard (Instr.stdOr m n).code (getOpStd .data m) orBody s

/-- `xor`, Standard form (R120). -/
def execStdXor (m : AddrMode) (n : Byte) (s : State) : Host.Outcome State Fault Refusal :=
  runInstr .standard (Instr.stdXor m n).code (getOpStd .data m) xorBody s

/-- `not`, Standard form (R121). -/
def execStdNot (m : AddrMode) (n : Byte) (s : State) : Host.Outcome State Fault Refusal :=
  runInstr .standard (Instr.stdNot m n).code (getOpStd .none m) notBody s

/-- `and n`, Expanded literal form (R118). -/
def execExpAndLit (n : Byte) (s : State) : Host.Outcome State Fault Refusal :=
  runInstr .expanded (Instr.expAndLit n).code (getOpExp .data .direct) andBody s

/-- `and [n]`, Expanded address form (R118). -/
def execExpAndMem (a : Addr) (s : State) : Host.Outcome State Fault Refusal :=
  runInstr .expanded (Instr.expAndMem a).code (getOpExp .data .address) andBody s

/-- `or n`, Expanded literal form (R119). -/
def execExpOrLit (n : Byte) (s : State) : Host.Outcome State Fault Refusal :=
  runInstr .expanded (Instr.expOrLit n).code (getOpExp .data .direct) orBody s

/-- `or [n]`, Expanded address form (R119). -/
def execExpOrMem (a : Addr) (s : State) : Host.Outcome State Fault Refusal :=
  runInstr .expanded (Instr.expOrMem a).code (getOpExp .data .address) orBody s

/-- `xor n`, Expanded literal form (R120). -/
def execExpXorLit (n : Byte) (s : State) : Host.Outcome State Fault Refusal :=
  runInstr .expanded (Instr.expXorLit n).code (getOpExp .data .direct) xorBody s

/-- `xor [n]`, Expanded address form (R120). -/
def execExpXorMem (a : Addr) (s : State) : Host.Outcome State Fault Refusal :=
  runInstr .expanded (Instr.expXorMem a).code (getOpExp .data .address) xorBody s

/-- `not`, Expanded form (R121). -/
def execExpNot (m : AddrMode) (s : State) : Host.Outcome State Fault Refusal :=
  runInstr .expanded (Instr.expNot m).code (getOpExp .none m) notBody s

end Sys2Proof.Machine
end

