-- ==== Sys2Proof/Machine/MemoryAccess.lean ====
section
/-! DEFINITION. The meanings of `read` and `write` (43_memory_access.md R122, R123): class ADDR. -/

namespace Sys2Proof.Machine

/-- `read`, Standard form (R122). -/
def execStdRead (m : AddrMode) (n : Byte) (s : State) : Host.Outcome State Fault Refusal :=
  runInstr .standard (Instr.stdRead m n).code (getOpStd .addr m) readBody s

/-- `write`, Standard form (R123). -/
def execStdWrite (m : AddrMode) (n : Byte) (s : State) : Host.Outcome State Fault Refusal :=
  runInstr .standard (Instr.stdWrite m n).code (getOpStd .addr m) writeBody s

/-- `read`, Expanded form (R122). -/
def execExpRead (m : AddrMode) (a : Addr) (s : State) : Host.Outcome State Fault Refusal :=
  runInstr .expanded (Instr.expRead m a).code (getOpExp .addr m) readBody s

/-- `write`, Expanded form (R123). -/
def execExpWrite (m : AddrMode) (a : Addr) (s : State) : Host.Outcome State Fault Refusal :=
  runInstr .expanded (Instr.expWrite m a).code (getOpExp .addr m) writeBody s

end Sys2Proof.Machine
end

