-- ==== Sys2Proof/Machine/Dispatch.lean ====
section
/-! DEFINITION. One arm per instruction: the table of the meanings. -/

namespace Sys2Proof.Machine

def exec (i : Instr) (s : State) : Host.Outcome State Fault Refusal :=
  match i with
  | .stdAdd m n => Sys2Proof.Machine.execStdAdd m n s
  | .stdSub m n => Sys2Proof.Machine.execStdSub m n s
  | .stdAnd m n => Sys2Proof.Machine.execStdAnd m n s
  | .stdOr m n => Sys2Proof.Machine.execStdOr m n s
  | .stdXor m n => Sys2Proof.Machine.execStdXor m n s
  | .stdNot m n => Sys2Proof.Machine.execStdNot m n s
  | .stdRead m n => Sys2Proof.Machine.execStdRead m n s
  | .stdWrite m n => Sys2Proof.Machine.execStdWrite m n s
  | .stdGoto m n => Sys2Proof.Machine.execStdGoto m n s
  | .stdBranchIfZero m n => Sys2Proof.Machine.execStdBranchIfZero m n s
  | .stdBranchIfNegative m n => Sys2Proof.Machine.execStdBranchIfNegative m n s
  | .stdBranchIfOverflow m n => Sys2Proof.Machine.execStdBranchIfOverflow m n s
  | .stdBranchIfCarry m n => Sys2Proof.Machine.execStdBranchIfCarry m n s
  | .stdOutput m n => Sys2Proof.Machine.execStdOutput m n s
  | .stdInput m n => Sys2Proof.Machine.execStdInput m n s
  | .stdEnd m n => Sys2Proof.Machine.execStdEnd m n s
  | .expAddLit n => Sys2Proof.Machine.execExpAddLit n s
  | .expAddMem a => Sys2Proof.Machine.execExpAddMem a s
  | .expSubLit n => Sys2Proof.Machine.execExpSubLit n s
  | .expSubMem a => Sys2Proof.Machine.execExpSubMem a s
  | .expAndLit n => Sys2Proof.Machine.execExpAndLit n s
  | .expAndMem a => Sys2Proof.Machine.execExpAndMem a s
  | .expOrLit n => Sys2Proof.Machine.execExpOrLit n s
  | .expOrMem a => Sys2Proof.Machine.execExpOrMem a s
  | .expXorLit n => Sys2Proof.Machine.execExpXorLit n s
  | .expXorMem a => Sys2Proof.Machine.execExpXorMem a s
  | .expNot m => Sys2Proof.Machine.execExpNot m s
  | .expRead m a => Sys2Proof.Machine.execExpRead m a s
  | .expWrite m a => Sys2Proof.Machine.execExpWrite m a s
  | .expGoto m a => Sys2Proof.Machine.execExpGoto m a s
  | .expBranchIfZero m a => Sys2Proof.Machine.execExpBranchIfZero m a s
  | .expBranchIfNegative m a => Sys2Proof.Machine.execExpBranchIfNegative m a s
  | .expBranchIfOverflow m a => Sys2Proof.Machine.execExpBranchIfOverflow m a s
  | .expBranchIfCarry m a => Sys2Proof.Machine.execExpBranchIfCarry m a s
  | .expOutputLit n => Sys2Proof.Machine.execExpOutputLit n s
  | .expOutputMem a => Sys2Proof.Machine.execExpOutputMem a s
  | .expInput m => Sys2Proof.Machine.execExpInput m s
  | .expEnd m => Sys2Proof.Machine.execExpEnd m s

end Sys2Proof.Machine
end

