-- ==== Sys2Proof/Machine/Fetch.lean ====
section
/-! DEFINITION. The fetch phase of the instruction cycle (R77, R93 to R95) as a run of micro-ops, and the placing of an
instruction's bytes where the fetch reads them. -/

namespace Sys2Proof.Machine

/-- The fetch phase: the dispatch of the micro-op at the head, then all up to the next `Decode` (or, when the step
begins inside an instruction, up to the next `Fetch`) or a halt. A `Decode` already at the head ends it at once. -/
def fetchPhase (s : State) : State :=
  match s.q with
  | [] => s
  | m :: rest =>
    if m = .decode then s else runUntil atDecodeOrFetch Config.phaseFuel (dispatch m (s.setQ rest))

/-- Stores bytes at consecutive addresses from a, modulo 2^A (20_memory.md R47). -/
def storeBytes (mode : MachineMode) : Memory → Addr → List Byte → Memory
  | m, _, [] => m
  | m, a, b :: bs => storeBytes mode (Memory.write m (fitTo mode a).toNat b) (a + 1#32) bs

/-- A machine of the mode the table word belongs to, with the word's bytes at PC, about to fetch there: what loading
the word and `Start` leave (70_reset_and_hazards.md R153, entry 3). -/
def State.placeWord (s : State) (nbits w : Nat) : State :=
  { s with
    mode := tableMode nbits
    mem := storeBytes (tableMode nbits) s.mem s.pc (tableBytes nbits w)
    run := .running
    q := [.fetch] }

end Sys2Proof.Machine
end

