-- ==== Sys2Proof/Machine/Step.lean ====
section
/-! DEFINITION. The step of the model: one instruction cycle (40_control_unit.md R77, R107), entry 4. `microStep` is
the spec's own step of one micro-op (R73). -/

namespace Sys2Proof.Machine

/-- The end of an instruction cycle whose fetch phase is over. With `Decode` at the head, it is popped and the decoded
instruction runs; where CIR spells no instruction the `Decode` micro-op is dispatched and takes its fault (R96, R97).
Any other state (a halt in the fetch, or the end of an instruction that the step began inside) is the step's
result. -/
def finishCycle (s : State) : Host.Outcome State Fault Refusal :=
  match s.run, s.q with
  | .running, .decode :: rest =>
    match decodeCode s.mode s.cir with
    | some i => exec i (s.setQ rest)
    | none => .next (dispatch .decode (s.setQ rest))
  | _, _ => .next s

/-- One instruction cycle: from one `Fetch` at the head of the queue to the next, or to a halt (R77, R107). -/
def step (s : State) : Host.Outcome State Fault Refusal :=
  match s.run with
  | .running =>
    match s.q with
    | [] => .fault .queueEmpty
    | _ :: _ => finishCycle (fetchPhase s)
  | r => .fault (.notRunning r)

/-- `s` with the instruction whose table bits are w stored where the next step fetches, and the machine started on it
(entries 3 and 7). -/
def State.withFetchWord (s : State) (nbits w : Nat) : State := s.placeWord nbits w

end Sys2Proof.Machine
end

