-- ==== Sys2Proof/Machine/HostPort.lean ====
section
/-! DEFINITION. The host's actions between two steps (70_reset_and_hazards.md R155), with the run states that admit
them: loading, run control, the snapshot, the memory port, receiveInput and reset; the yield of the unlimited clock; the
outcome of a run. -/

namespace Sys2Proof.Machine

/-- The host's actions of R155; `State.resetIn` is its row "initialise". -/
inductive HostAct where
  | loadProgram (image : List (List Char))
  | start (hz : Nat)
  | pause
  | resume
  | snapshot
  | memRead (a : Int)
  | memWrite (a : Int) (v : Byte)
  | receiveInput (v : Byte)
  | reset
  | readEvents
deriving DecidableEq, Repr

/-- What the snapshot port shows (10_state.md R34). -/
structure Snapshot where
  pc : Addr
  mar : Addr
  mdr : Addr
  acc : Byte
  cir : Code
  status : Status
deriving DecidableEq, Repr

/-- The snapshot of a state (R34): reading it has no effect. -/
def snapshotOf (s : State) : Snapshot :=
  { pc := s.pc, mar := s.mar, mdr := s.mdr, acc := s.acc, cir := s.cir, status := s.status }

/-! ## The program image (R152) -/

/-- The value of a bit string written most significant bit first; `none` at a character that is no bit. -/
def bitString : List Char → Nat → Option Nat
  | [], v => some v
  | c :: cs, v => if c = '0' then bitString cs (2 * v) else if c = '1' then bitString cs (2 * v + 1) else none

/-- The bytes of a v whose low 8n bits are stored first 8 bits first. -/
def bigEndianBytes : Nat → Nat → List Byte
  | 0, _ => []
  | n + 1, v => BitVec.ofNat 8 (v / 2 ^ (8 * n)) :: bigEndianBytes n v

/-- The bytes of one instruction string: 14 bits in Standard mode, split as R59 says; 8, 16 or 40 bits in Expanded
mode, first 8 bits first (R152). Any other string is refused. -/
def stringBytes (mode : MachineMode) (str : List Char) : Option (List Byte) :=
  match bitString str 0 with
  | none => none
  | some v =>
    match mode with
    | .standard => if str.length = 14 then some (stdBytes (BitVec.ofNat 14 v)) else none
    | .expanded =>
      if str.length = 8 ∨ str.length = 16 ∨ str.length = 40 then some (bigEndianBytes (str.length / 8) v) else none

/-- The bytes of an image, its instructions one after the other (R152). -/
def imageBytes (mode : MachineMode) : List (List Char) → Option (List Byte)
  | [] => some []
  | str :: image =>
    match stringBytes mode str, imageBytes mode image with
    | some bs, some rest => some (bs ++ rest)
    | _, _ => none

/-- `LoadProgram(image)` (R152): placed from address 0; a malformed or oversized image changes nothing. -/
def hostLoad (image : List (List Char)) (s : State) : Host.Outcome State Fault Refusal :=
  if s.run = .idle then
    match imageBytes s.mode image with
    | none => .refused .badImage
    | some bytes =>
      if bytes.length ≤ s.mode.memSize then .next (s.setMem (storeBytes s.mode s.mem 0#32 bytes))
      else .refused .badImage
  else .refused .notAdmitted

/-! ## Run control (40_control_unit.md R103, R104) -/

/-- `Start(hz)` (R103). -/
def hostStart (hz : Nat) (s : State) : Host.Outcome State Fault Refusal :=
  if s.run = .idle then .next ({ s with hz := hz }.setQ [.fetch] |>.setRun .running)
  else .refused .notAdmitted

/-- `Pause` (R104): in unlimited mode the queue is detached. -/
def hostPause (s : State) : Host.Outcome State Fault Refusal :=
  if s.run = .running then
    if s.hz = 0 then .next (((s.setSavedQ s.q).setQ []).setRun .paused) else .next (s.setRun .paused)
  else .refused .notAdmitted

/-- `Resume` (R104): in unlimited mode the queue is restored. -/
def hostResume (s : State) : Host.Outcome State Fault Refusal :=
  if s.run = .paused then
    if s.hz = 0 then .next (((s.setQ s.savedQ).setSavedQ []).setRun .running) else .next (s.setRun .running)
  else .refused .notAdmitted

/-- One batch of the unlimited clock (R105): at most YIELD_OPS dispatches, then the yield, which is a Pause and the
Resume after it, where the machine still runs (entry 13). -/
def clockBatch (s : State) : State :=
  let t := microRun Config.yieldOps s
  match hostPause t with
  | .next p =>
    match hostResume p with
    | .next u => u
    | _ => p
  | _ => t

/-! ## The memory port (20_memory.md R56) -/

/-- An address the host names is one of the memory (R56). -/
def hostInRange (mode : MachineMode) (a : Int) : Bool := decide (0 ≤ a ∧ a < mode.memSize)

/-- The byte a host read answers with; an address outside the memory has none (R56). -/
def hostReadValue (s : State) (a : Int) : Option Byte :=
  if hostInRange s.mode a then some (Memory.read s.mem a.toNat) else none

/-- The effect of `HostRead(a)` (R56): none, or the fault of an address outside the memory. -/
def hostRead (a : Int) (s : State) : Host.Outcome State Fault Refusal :=
  if hostInRange s.mode a then .next s else .next (s.raise (.memAddr a))

/-- `HostWrite(a, v)` (R56). -/
def hostWrite (a : Int) (v : Byte) (s : State) : Host.Outcome State Fault Refusal :=
  if hostInRange s.mode a then .next (s.setMem (Memory.write s.mem a.toNat v)) else .next (s.raise (.memAddr a))

/-! ## The outcome of a run -/

/-- What a run that has ended shows (70_reset_and_hazards.md R156). -/
structure RunOutcome where
  events : List Event
  mem : Memory
  registers : Snapshot
deriving DecidableEq, Repr

/-- The observable outcome of a halted machine; a machine that has not halted has none yet (R156). -/
def runOutcome (s : State) : Option RunOutcome :=
  match s.run with
  | .haltedEnd | .haltedFault _ => some { events := s.events, mem := s.mem, registers := snapshotOf s }
  | .idle | .running | .paused => none

/-! ## All of them -/

/-- A host action between two steps (R155). -/
def hostAct (act : HostAct) (s : State) : Host.Outcome State Fault Refusal :=
  match act with
  | .loadProgram image => hostLoad image s
  | .start hz => hostStart hz s
  | .pause => hostPause s
  | .resume => hostResume s
  | .snapshot => .next s
  | .memRead a => hostRead a s
  | .memWrite a v => hostWrite a v s
  | .receiveInput v => .next (s.receiveInput v)
  | .reset => .next (State.resetIn s.mode s.device)
  | .readEvents => .next s

end Sys2Proof.Machine
end

