-- ==== Sys2Proof/Safety.lean ====
section
/-! DEFINITION. The terms the statements use: the states they speak of, the resolved operands of R100, the net effect
lines of the instruction rules as functions on states, what the I/O arbiter does meanwhile, and the invariants of the
machine. -/

namespace Sys2Proof.Machine

/-! ## States -/

/-- The state a meaning is given when nothing else is queued: Running, on a machine of this mode, `Decode` just popped,
no I/O request waiting. -/
abbrev Ready (mode : MachineMode) (s : State) : Prop :=
  s.run = .running ∧ s.mode = mode ∧ s.q = [] ∧ s.ctl.ioreq = false

/-- An instruction boundary (40_control_unit.md R107) with no I/O request waiting. -/
abbrev AtFetch (mode : MachineMode) (s : State) : Prop :=
  s.run = .running ∧ s.mode = mode ∧ s.q = [.fetch] ∧ s.ctl.ioreq = false

/-- The queue holds nothing but `IoHandler`s: at most one, and one exactly when `io_ack` says so (R76). -/
abbrev OnlyHandler (s : State) : Prop :=
  s.q = if s.ioAck then [.ioHandler] else []

/-- A meaning's state with the I/O arbiter in any state a run can leave it in. -/
abbrev ReadyIo (mode : MachineMode) (s : State) : Prop :=
  s.run = .running ∧ s.mode = mode ∧ OnlyHandler s

/-- An instruction boundary with the I/O arbiter in any state a run can leave it in. -/
abbrev AtFetchIo (mode : MachineMode) (s : State) : Prop :=
  s.run = .running ∧ s.mode = mode ∧ s.q = .fetch :: (if s.ioAck then [.ioHandler] else [])

/-! ## Resolved operands (40_control_unit.md R100) -/

/-- The byte a Standard operand resolves to: the operand, or the byte at it (R98). -/
def stdValue (m : AddrMode) (n : Byte) (mem : Memory) : Byte :=
  match m with
  | .direct => n
  | .address => Memory.read mem n.toNat

/-- The big-endian pointer at an Expanded address, which wraps at the top of memory (20_memory.md R43, R47). -/
def pointerAt (a : Addr) (mem : Memory) : Addr :=
  Memory.read mem a.toNat ++ Memory.read mem (a + 1#32).toNat ++ Memory.read mem (a + 2#32).toNat
    ++ Memory.read mem (a + 3#32).toNat

/-- The effective address of an Expanded address-class instruction: the operand, or the pointer at it (R99). -/
def expTarget (m : AddrMode) (a : Addr) (mem : Memory) : Addr :=
  match m with
  | .direct => a
  | .address => pointerAt a mem

/-! ## The operand phase as a net effect (R98, R99) -/

/-- An operand-free instruction: only CIR holds it, and the step has ended (R74). -/
def operandNone (i : Instr) (s : State) : State :=
  { s with cir := i.code, ctl := { s.ctl with clk := false } }

/-- The operand phase of a Standard instruction with an operand (R98). -/
def operandStd (i : Instr) (m : AddrMode) (n : Byte) (s : State) : State :=
  match m with
  | .direct =>
    { s with
      cir := i.code
      mdr := n.setWidth 32
      dbus := n
      ctl := { s.ctl with req := false, gnt := false, clk := false } }
  | .address =>
    { s with
      cir := i.code
      mdr := (Memory.read s.mem n.toNat).setWidth 32
      mar := n.setWidth 32
      abus := n.setWidth 32
      dbus := Memory.read s.mem n.toNat
      ctl := { s.ctl with req := false, gnt := false, rd := false, clk := false } }

/-- The operand phase of an Expanded data-class literal (R99). -/
def operandExpLit (i : Instr) (n : Byte) (s : State) : State :=
  { s with cir := i.code, mdr := n.setWidth 32, ctl := { s.ctl with clk := false } }

/-- The operand phase of an Expanded data-class address (R99): MDR keeps the upper operand bits. -/
def operandExpMem (i : Instr) (a : Addr) (s : State) : State :=
  { s with
    cir := i.code
    mdr := a.extractLsb' 8 24 ++ Memory.read s.mem a.toNat
    mar := a
    abus := a
    dbus := Memory.read s.mem a.toNat
    ctl := { s.ctl with req := false, gnt := false, rd := false, clk := false } }

/-- The operand phase of an Expanded address-class instruction (R99). -/
def operandExpAddr (i : Instr) (m : AddrMode) (a : Addr) (s : State) : State :=
  match m with
  | .direct => { s with cir := i.code, mdr := a, ctl := { s.ctl with clk := false } }
  | .address =>
    { s with
      cir := i.code
      mdr := pointerAt a s.mem
      mar := a + 4#32
      abus := a + 3#32
      dbus := Memory.read s.mem (a + 3#32).toNat
      ctl := { s.ctl with req := false, gnt := false, rd := false, clk := false } }

/-! ## The Execute phase as a net effect, from the state the operand phase leaves

Each is the "Net effect" line of an instruction rule; a component that is not named keeps its value. -/

/-- CONTROLBUS after a bus transaction whose last flag write is N = b (10_state.md R27). -/
def ctlAfterAlu (c : Ctl) (b : Bool) : Ctl :=
  { c with req := false, gnt := false, fidx := 1#2, fval := b }

/-- `add` (41_alu_arithmetic.md R116), dv in MDR[7:0]. -/
def netAdd (s : State) : State :=
  let dv : Byte := s.mdr.setWidth 8
  let r := s.acc + dv
  { s with
    acc := r
    dbus := r
    val1 := s.acc
    val2 := dv
    res := r
    submark := false
    status :=
      { z := decide (r = 0#8), n := r.msb, v := s.acc.msb == dv.msb && r.msb != s.acc.msb,
        c := decide (256 ≤ s.acc.toNat + dv.toNat) }
    ctl := ctlAfterAlu s.ctl r.msb
    q := [.fetch] }

/-- `sub` (R117), dv in MDR[7:0]: V by the complement t = −dv. -/
def netSub (s : State) : State :=
  let dv : Byte := s.mdr.setWidth 8
  let r := s.acc - dv
  { s with
    acc := r
    dbus := r
    val1 := -dv
    val2 := s.acc
    res := r
    submark := true
    status :=
      { z := decide (s.acc = dv), n := r.msb, v := (-dv).msb == s.acc.msb && r.msb != (-dv).msb,
        c := decide (dv ≠ 0#8 ∧ dv.toNat ≤ s.acc.toNat) }
    ctl := ctlAfterAlu s.ctl r.msb
    q := [.fetch] }

/-- `and`, `or`, `xor` (42_logic.md R118 to R120) with result `r dv ACC`, dv in MDR[7:0]. -/
def netLogic (op : Byte → Byte → Byte) (s : State) : State :=
  let dv : Byte := s.mdr.setWidth 8
  let r := op dv s.acc
  { s with
    acc := r
    dbus := r
    val1 := dv
    val2 := s.acc
    res := r
    status := { s.status with z := decide (r = 0#8), n := r.msb }
    ctl := ctlAfterAlu s.ctl r.msb
    q := [.fetch] }

/-- `not` (R121). -/
def netNot (s : State) : State :=
  let r := ~~~s.acc
  { s with
    acc := r
    dbus := r
    val1 := s.acc
    res := r
    status := { s.status with z := decide (s.acc = 255#8), n := !s.acc.msb }
    ctl := ctlAfterAlu s.ctl r.msb
    q := [.fetch] }

/-- `read` (43_memory_access.md R122), ea in MDR. -/
def netRead (s : State) : State :=
  { s with
    abus := s.mdr
    dbus := Memory.read s.mem s.mdr.toNat
    acc := Memory.read s.mem s.mdr.toNat
    ctl := { s.ctl with req := false, gnt := false, rd := false }
    q := [.fetch] }

/-- `write` (R123), ea in MDR. -/
def netWrite (s : State) : State :=
  { s with
    abus := s.mdr
    dbus := s.acc
    mem := Memory.write s.mem s.mdr.toNat s.acc
    ctl := { s.ctl with req := false, gnt := false, wr := false }
    q := [.fetch] }

/-- `goto` and a taken branch (44_control_transfer.md R124, R125), ea in MDR. -/
def netGoto (s : State) : State :=
  { s with
    pc := s.mdr
    dbus := s.mdr.setWidth 8
    ctl := { s.ctl with req := false, gnt := false }
    q := [.fetch] }

/-- A branch on the flag value b (R126): as `goto`, or nothing after the operand phase. -/
def netBranch (b : Bool) (s : State) : State :=
  if b then netGoto s else { s with q := [.fetch] }

/-- `output` of the byte src (45_io.md R137), the device's answer staged and acknowledged (R136, R140); the queue without
an `IoHandler`. -/
def outputEffect (src : Byte) (s : State) : State :=
  let events := s.events ++ [.output src]
  let t :=
    { s with
      iobus := src
      ioPending := false
      events := events
      ctl := { s.ctl with iognt := false }
      q := [.fetch] }
  match deviceReply s.device (outputsOf events) with
  | none => t
  | some v => { t with ioPending := true, ioVal := v, ctl := { t.ctl with ioreq := true }, ioAck := true }

/-- `output` where no request waits: an `IoHandler` is queued behind `Fetch` when the answer is not acknowledged yet. -/
def netOutput (src : Byte) (s : State) : State :=
  let t := outputEffect src s
  { t with q := if t.ioAck && !s.ioAck then [.fetch, .ioHandler] else [.fetch] }

/-- `input` (R138). -/
def netInput (s : State) : State :=
  { s with acc := s.iobus, ctl := { s.ctl with iognt := false }, q := [.fetch] }

/-- `end` (46_end.md R142). -/
def netEnd (s : State) : State :=
  { s with
    q := []
    savedQ := []
    ioAck := false
    ctl := { s.ctl with clk := false }
    run := .haltedEnd
    events := s.events ++ [.complete] }

/-! ## The I/O arbiter inside an instruction (40_control_unit.md R76, 45_io.md R133) -/

/-- A granted request: a pending byte goes onto IOBUS (R132, R133). -/
def granted (s : State) : State :=
  { s with
    iobus := if s.ioPending then s.ioVal else s.iobus
    ioPending := false
    ioAck := false
    ctl := { s.ctl with iognt := true, ioreq := false } }

/-- The arbiter when an instruction's Body begins, from what the operand phase leaves: a request that waits is granted
where neither grant is held, and stays acknowledged with its handler queued where one is. -/
def arbitrated (s : State) : State :=
  if s.ioAck || s.ctl.ioreq then
    if s.ctl.gnt || s.ctl.iognt then { s with ioAck := true } else granted s
  else s

/-- The arbiter when a fetch ends, from the instruction boundary: a handler that was queued there runs right after
`Fetch`; a request that only waits there gets its handler queued behind the fetch. -/
def arbitratedInFetch (s : State) : State :=
  if s.ioAck then
    if s.ctl.gnt || s.ctl.iognt then s else granted s
  else { s with ioAck := s.ctl.ioreq }

/-- The queue with the acknowledged handler at its tail. -/
def handlerBehind (s : State) : State :=
  { s with q := s.q ++ if s.ioAck then [.ioHandler] else [] }

/-! ## The fetch as a net effect (R93, R95) -/

/-- The address of byte k of an instruction at p, modulo 2^A (20_memory.md R47). -/
def fetchAddr (mode : MachineMode) (p : Addr) (k : Nat) : Addr := fitTo mode (p + BitVec.ofNat 32 k)

/-- The bytes of memory from p on, modulo 2^A. -/
def bytesAt (s : State) (count : Nat) : List Byte :=
  (List.range count).map fun k => Memory.read s.mem (fetchAddr s.mode s.pc k).toNat

/-- The 14 bits of the Standard instruction at PC (20_memory.md R44). -/
def wordAt (s : State) : BitVec 14 :=
  stdWord (Memory.read s.mem (fetchAddr s.mode s.pc 0).toNat) (Memory.read s.mem (fetchAddr s.mode s.pc 1).toNat)

/-- The first byte of the Expanded instruction at PC. -/
def headAt (s : State) : Byte := Memory.read s.mem (fetchAddr s.mode s.pc 0).toNat

/-- The length field of the Expanded instruction at PC (30_encoding.md R60). -/
def lengthAt (s : State) : BitVec 3 := (headAt s).extractLsb' 0 3

/-- What CIR holds once the instruction at PC is fetched. -/
def codeAt (s : State) : Code :=
  match s.mode with
  | .standard => .std (wordAt s)
  | .expanded => .exp (bytesAt s ((lengthAt s).toNat + 1))

/-- The instruction at PC, if the bytes there spell one. -/
def instrAt (s : State) : Option Instr := decodeCode s.mode (codeAt s)

/-- The state after a fetch that read its last byte at offset `last` and left PC past it. -/
def fetchedTo (last : Nat) (s : State) : State :=
  let a := fetchAddr s.mode s.pc last
  { s with
    cir := codeAt s
    pc := fetchAddr s.mode s.pc (last + 1)
    mar := a
    mdr := loadTail s.mode s.mdr (Memory.read s.mem a.toNat)
    abus := a
    dbus := Memory.read s.mem a.toNat
    ctl := { s.ctl with req := false, gnt := false, rd := false, clk := false }
    q := [] }

/-- The state after the fetch of the instruction at PC, `Decode` popped (R93; R95 for a legal length). -/
def fetched (s : State) : State :=
  match s.mode with
  | .standard => fetchedTo 1 s
  | .expanded => fetchedTo (lengthAt s).toNat s

/-- The state after the fetch of the instruction at PC with the I/O arbiter in any state, `Decode` popped. -/
def fetchedIo (s : State) : State := handlerBehind (fetched (arbitratedInFetch s))

/-! ## Step counts (70_reset_and_hazards.md R162) -/

/-- The steps from `Fetch` through `Decode`. -/
def fetchSteps (i : Instr) : Nat :=
  match i.machineMode with
  | .standard => 18
  | .expanded => 14 + 6 * i.operandBytes.length

/-- The steps of GetOperand. -/
def operandSteps (i : Instr) : Nat :=
  match i.opcode.classIn i.machineMode, i.machineMode, i.addrMode with
  | .none, _, _ => 0
  | _, .standard, .direct => 5
  | _, .standard, .address => 11
  | _, .expanded, .direct => 1
  | .data, .expanded, .address => 10
  | .addr, .expanded, .address => 27

/-- The steps of `goto`'s Execute phase. -/
def gotoSteps : MachineMode → Nat
  | .standard => 6
  | .expanded => 20

/-- The steps of a branch's Execute phase. -/
def branchSteps (mode : MachineMode) (taken : Bool) : Nat :=
  if taken then gotoSteps mode + 1 else 2

/-- The steps of the Execute phase, up to and not including the next `Fetch`. -/
def executeSteps (mode : MachineMode) (st : Status) : Opcode → Nat
  | .add | .and | .or | .xor => 11
  | .sub => 12
  | .not | .read | .write => 9
  | .goto => gotoSteps mode
  | .branchIfZero => branchSteps mode st.z
  | .branchIfNegative => branchSteps mode st.n
  | .branchIfOverflow => branchSteps mode st.v
  | .branchIfCarry => branchSteps mode st.c
  | .output => 5
  | .input => 3
  | .endRun => 2

/-- The steps of a whole instruction, without `IoHandler` steps. -/
def stepCount (i : Instr) (st : Status) : Nat :=
  fetchSteps i + operandSteps i + executeSteps i.machineMode st i.opcode

/-! ## Invariants -/

/-- Every A-bit register and bus holds an A-bit value (00_scope.md R8, 10_state.md R14). -/
abbrev WidthsOk (s : State) : Prop :=
  s.pc.toNat < s.mode.memSize ∧ s.mar.toNat < s.mode.memSize ∧ s.mdr.toNat < s.mode.memSize
    ∧ s.abus.toNat < s.mode.memSize

/-- CIR is of the machine's mode: 14 bits, or a list of 1 to 5 bytes (R20). -/
def cirOk : MachineMode → Code → Bool
  | .standard, .std _ => true
  | .expanded, .exp bytes => decide (1 ≤ bytes.length ∧ bytes.length ≤ 5)
  | _, _ => false

/-- The invariant of the machine record: widths, CIR's form, memory in canonical form and in range. -/
abbrev Inv (s : State) : Prop :=
  WidthsOk s ∧ cirOk s.mode s.cir = true ∧ Memory.wf s.mem ∧ Memory.inRange s.mode s.mem

/-- How many queued `IoHandler`s `io_ack` announces. -/
abbrev handlersAcknowledged (s : State) : Nat := if s.ioAck then 1 else 0

/-- `io_ack` is 1 exactly while an `IoHandler` is in Q, and Q holds at most one (R76); while an unlimited-mode pause has
detached the queue, the same of the saved queue (R104). Nothing is queued before `Start` or after `end`, and only such a
pause saves a queue. -/
abbrev AckOk (s : State) : Prop :=
  (s.run = .idle ∨ s.run = .haltedEnd → s.q = [] ∧ s.savedQ = [] ∧ s.ioAck = false)
    ∧ (s.run = .running → s.savedQ = [] ∧ s.q.count .ioHandler = handlersAcknowledged s)
    ∧ (s.run = .paused → s.hz = 0 → s.q = [] ∧ s.savedQ.count .ioHandler = handlersAcknowledged s)
    ∧ (s.run = .paused → s.hz ≠ 0 → s.savedQ = [] ∧ s.q.count .ioHandler = handlersAcknowledged s)

/-- The run has ended (70_reset_and_hazards.md R156). -/
def isHalted : Run → Bool
  | .haltedEnd | .haltedFault _ => true
  | .idle | .running | .paused => false

/-- What the I/O handler may write (45_io.md R133: IOBUS, iognt, ioreq, io_pending, io_ack and Q) or the host stage
(io_val) set to fixed values, and the handlers taken out of Q: the part of a state that R107 says no `IoHandler`
reaches. -/
def withoutIo (s : State) : State :=
  { s with
    iobus := 0#8
    ctl := { s.ctl with ioreq := false, iognt := false }
    ioPending := false
    ioVal := 0#8
    ioAck := false
    q := s.q.filter (· ≠ .ioHandler) }

/-! ## Program images (70_reset_and_hazards.md R152) -/

/-- The string of a bit vector, most significant bit first. -/
def bitChars {n : Nat} (w : BitVec n) : List Char :=
  (List.range n).map fun i => if w.getMsbD i then '1' else '0'

/-- The string lengths the loader takes. -/
def stringLengthOk : MachineMode → Nat → Prop
  | .standard, n => n = 14
  | .expanded, n => n = 8 ∨ n = 16 ∨ n = 40

end Sys2Proof.Machine
end

