-- ==== Sys2Proof/Certificates/Slice0/Obligations.lean ====
section
/-! DEFINITION. The statements for the provers: what the rules of spec/ say the instructions and the machine do.

The result statements of the instructions have one shape: on a Running machine of the instruction's mode, `Decode` just
popped and no I/O request waiting (`Ready`), the meaning answers exactly the state the "Net effect" lines give. The net
effects are record updates, so every component they do not name is unchanged: they are the frames too. `output` and
`input`, which alone see the I/O arbiter, are also stated with a request waiting or a handler queued (`ReadyIo`,
`handlerBehind`, `arbitrated`); for the others `HandlerNeverDisturbsAnInstruction` says what a handler adds.
`StepRunsTheDecodedInstruction` says what the fetch adds. -/

open Sys2Proof Sys2Proof.Machine

/-! ## Encoding -/

/-- Decoding the encoding of any instruction, whatever follows it, gives it back with every field
(30_encoding.md R58 to R62, R64, R67). -/
def Obligations.DecodingAnEncodingGivesTheInstruction : Prop :=
  ∀ (i : Instr) (rest : List Byte), decode i.machineMode (encode i ++ rest) = .ok (i, rest)

/-- What the decoder accepts is well-formed and is the encoding of what it answers: every byte of it in Expanded mode,
all but bits 7:6 of the second word in Standard mode. -/
def Obligations.DecodedBytesAreAnEncoding : Prop :=
  ∀ (mode : MachineMode) (bytes rest : List Byte) (i : Instr), decode mode bytes = .ok (i, rest) →
    i.wellFormed mode = true
      ∧ (mode = .expanded → bytes = encode i ++ rest)
      ∧ (mode = .standard → ∃ w0 w1, bytes = w0 :: w1 :: rest ∧ encode i = [w0, w1 &&& 0x3F#8])

/-- R59: the two words of a Standard instruction, its length, and the padding bits, which neither the decoder nor the
fetch's second CIR transfer reads. -/
def Obligations.StandardInstructionIsTwoWords : Prop :=
  (∀ (op : Opcode) (m : AddrMode) (n : Byte),
      encode (stdInstr op m n)
        = [BitVec.ofNat 8 (op.bits.toNat * 16 + m.bit.toNat * 4 + n.toNat / 64), n &&& 0x3F#8])
    ∧ (∀ (w0 w1 w1' : Byte) (rest : List Byte), w1 &&& 0x3F#8 = w1' &&& 0x3F#8 →
      decode .standard (w0 :: w1 :: rest) = decode .standard (w0 :: w1' :: rest))
    ∧ (∀ s s' : State, s.mode = .standard → s'.mode = .standard → s.cir = s'.cir →
      s.mdr &&& 0x3F#32 = s'.mdr &&& 0x3F#32 → (s.cirStd .second).cir = (s'.cirStd .second).cir)

/-- R67: the lengths that fit class and mode, the instruction lengths, and `BadForm` for any other combination with a
legal length, when `Decode` is dispatched. -/
def Obligations.ExpandedLengthMustFitTheForm : Prop :=
  (∀ op : Opcode,
      op.classIn .expanded = (match op with
        | .add | .sub | .and | .or | .xor | .output => .data
        | .read | .write | .goto | .branchIfZero | .branchIfNegative | .branchIfOverflow | .branchIfCarry => .addr
        | .not | .input | .endRun => .none))
    ∧ (OpClass.data.legalLen .direct = 1#3 ∧ OpClass.data.legalLen .address = 4#3
      ∧ (∀ m, OpClass.addr.legalLen m = 4#3) ∧ ∀ m, OpClass.none.legalLen m = 0#3)
    ∧ (∀ i : Instr, i.machineMode = .expanded →
      (encode i).length = 1 + ((i.opcode.classIn .expanded).legalLen i.addrMode).toNat)
    ∧ ∀ (s : State) (b0 : Byte) (bs : List Byte), s.run = .running → s.mode = .expanded → s.q = [] →
      s.cir = .exp (b0 :: bs) → legalLength (b0.extractLsb' 0 3) = true →
      let cls := (Opcode.ofBits (b0.extractLsb' 4 4)).classIn .expanded
      let m := AddrMode.ofBit (b0.extractLsb' 3 1)
      if b0.extractLsb' 0 3 = cls.legalLen m then
        (dispatch .decode s).run = .running ∧ ∃ hs, (dispatch .decode s).q = getOpExp cls m ++ [.execute] ++ hs
          ∧ ∀ h ∈ hs, h = .ioHandler
      else
        (dispatch .decode s).run
          = .haltedFault (.decode (.badForm (b0.extractLsb' 4 4) (b0.extractLsb' 3 1) (b0.extractLsb' 0 3)))

/-- R72: each of its encodings, both ways. -/
def Obligations.ListedEncodingsDecodeAsListed : Prop :=
  let agrees := fun (mode : MachineMode) (bytes : List Byte) (i : Instr) =>
    decode mode bytes = .ok (i, []) ∧ encode i = bytes
  agrees .standard [0x00#8, 0x05#8] (.stdAdd .direct 5#8)
    ∧ agrees .standard [0x10#8, 0x07#8] (.stdSub .direct 7#8)
    ∧ agrees .standard [0x07#8, 0x08#8] (.stdAdd .address 200#8)
    ∧ agrees .standard [0x90#8, 0x06#8] (.stdBranchIfZero .direct 6#8)
    ∧ agrees .standard [0x77#8, 0x3F#8] (.stdWrite .address 255#8)
    ∧ agrees .standard [0xF0#8, 0x00#8] (.stdEnd .direct 0#8)
    ∧ agrees .expanded [0x01#8, 0x05#8] (.expAddLit 5#8)
    ∧ agrees .expanded [0x0C#8, 0x00#8, 0x00#8, 0x10#8, 0x00#8] (.expAddMem 0x1000#32)
    ∧ agrees .expanded [0x84#8, 0x12#8, 0x34#8, 0x56#8, 0x78#8] (.expGoto .direct 0x12345678#32)
    ∧ agrees .expanded [0xD1#8, 0x41#8] (.expOutputLit 65#8)
    ∧ agrees .expanded [0xF0#8] (.expEnd .direct)

/-! ## The ALU -/

/-- R108: `add8`'s result, its four flags, the order of their writes, and that each bit is a full adder's. -/
def Obligations.AddEightAddsAndWritesTheFourFlags : Prop :=
  ∀ (a b : Byte) (s : State),
    (add8 a b).toNat = (a.toNat + b.toNat) % 256
      ∧ (∀ j, j < 8 → (add8 a b).getLsbD j = rippleBit a b j)
      ∧ add8Carry a b = rippleCarry a b 8
      ∧ s.addFlags a b
        = (((s.flagWrite .c (decide (256 ≤ a.toNat + b.toNat))).flagWrite .v
            (a.getLsbD 7 == b.getLsbD 7 && (add8 a b).getLsbD 7 != a.getLsbD 7)).flagWrite .z
              (decide (add8 a b = 0#8))).flagWrite .n ((add8 a b).getLsbD 7)
      ∧ (s.addFlags a b).status
        = { z := decide (add8 a b = 0#8), n := (add8 a b).getLsbD 7,
            v := a.getLsbD 7 == b.getLsbD 7 && (add8 a b).getLsbD 7 != a.getLsbD 7,
            c := decide (256 ≤ a.toNat + b.toNat) }

/-- R109 and R114: the two's complement, its flags, its being its own inverse, and where `AluTwos` puts it. -/
def Obligations.TwosComplementNegatesInVal1 : Prop :=
  (∀ x : Byte, twos8 x = add8 (~~~x) 1#8 ∧ (twos8 x).toNat = (256 - x.toNat) % 256 ∧ twos8 (twos8 x) = x)
    ∧ ∀ s : State,
      s.aluTwos =
        { s with
          val1 := twos8 s.val1
          res := twos8 s.val1
          status :=
            { z := decide (s.val1 = 0#8), n := (twos8 s.val1).msb, v := decide (s.val1 = 0x80#8),
              c := decide (s.val1 = 0#8) }
          ctl := { s.ctl with fidx := 1#2, fval := (twos8 s.val1).msb } }

/-! ## The micro-operations -/

/-- R82, R83, R86, R87, R88, R89, R90, R91, R92: what each datapath micro-op does to a machine record in form, and that
it does nothing else. -/
def Obligations.DatapathMicroOpsFollowTheCatalogue : Prop :=
  ∀ s : State, WidthsOk s →
    (perform (.marFrom .pc) s = { s with mar := s.pc } ∧ perform (.marFrom .mdr) s = { s with mar := s.mdr })
      ∧ (perform (.abusFrom .mar) s = { s with abus := s.mar } ∧ perform (.abusFrom .mdr) s = { s with abus := s.mdr })
      ∧ (perform (.dbusFrom .acc) s = { s with dbus := s.acc }
        ∧ perform (.dbusFrom .mdr) s = { s with dbus := s.mdr.extractLsb' 0 8 }
        ∧ perform (.dbusFrom .res) s = { s with dbus := s.res }
        ∧ ∀ w, s.cir = .std w → perform (.dbusFrom .opnd) s = { s with dbus := w.extractLsb' 0 8 })
      ∧ (perform (.load .acc) s = { s with acc := s.dbus }
        ∧ (s.mode = .standard →
          perform (.load .mdr) s = { s with mdr := 0#24 ++ s.dbus } ∧ perform (.load .pc) s = { s with pc := 0#24 ++ s.dbus })
        ∧ (s.mode = .expanded →
          perform (.load .mdr) s = { s with mdr := s.mdr.extractLsb' 8 24 ++ s.dbus }
            ∧ perform (.load .pc) s = { s with pc := s.pc.extractLsb' 8 24 ++ s.dbus }))
      ∧ ((s.mode = .standard → perform (.rot .mdr) s = s ∧ perform (.rot .pc) s = s)
        ∧ (s.mode = .expanded →
          perform (.rot .mdr) s = { s with mdr := s.mdr <<< 8 ||| s.mdr >>> 24 }
            ∧ perform (.rot .pc) s = { s with pc := s.pc <<< 8 ||| s.pc >>> 24 }))
      ∧ (∀ c : Nat, c = (match s.mode with
          | .standard => 2
          | .expanded => 1) →
        perform (.inc .pc) s = { s with pc := BitVec.ofNat 32 ((s.pc.toNat + c) % s.mode.memSize) })
      ∧ perform (.inc .mar) s = { s with mar := BitVec.ofNat 32 ((s.mar.toNat + 1) % s.mode.memSize) }
      ∧ (∀ w, s.mode = .standard → s.cir = .std w →
        perform (.cirStd .first) s = { s with cir := .std (s.mdr.extractLsb' 0 8 ++ w.extractLsb' 0 6) }
          ∧ perform (.cirStd .second) s = { s with cir := .std (w.extractLsb' 6 8 ++ s.mdr.extractLsb' 0 6) })
      ∧ (∀ bs, s.mode = .expanded → s.cir = .exp bs →
        perform (.cirExp 0) s = { s with cir := .exp [s.mdr.extractLsb' 0 8] }
          ∧ (∀ k : Fin 5, bs.length = k → perform (.cirExp k) s = { s with cir := .exp (bs ++ [s.mdr.extractLsb' 0 8]) }))
      ∧ ∀ b0, (s.cir = .exp [b0] → perform .loadOperand s = { s with mdr := 0#32 })
        ∧ (∀ b1, s.mode = .expanded → s.cir = .exp [b0, b1] → perform .loadOperand s = { s with mdr := 0#24 ++ b1 })
        ∧ ∀ b1 b2 b3 b4, s.mode = .expanded → s.cir = .exp [b0, b1, b2, b3, b4] →
          perform .loadOperand s = { s with mdr := b1 ++ b2 ++ b3 ++ b4 }

/-- R27: the flags line follows every flag write, and after an ALU micro-op it holds the N write; R22 at micro-op level:
no other micro-op writes a flag. -/
def Obligations.OnlyAluMicroOpsWriteFlags : Prop :=
  (∀ (s : State) (f : Flag) (b : Bool),
      s.flagWrite f b
        = { s with ctl := { s.ctl with fidx := f.index, fval := b }, status := (s.flagWrite f b).status }
      ∧ (s.flagWrite f b).status.get f = b
      ∧ (∀ g, g ≠ f → (s.flagWrite f b).status.get g = s.status.get g)
      ∧ (Flag.z.index, Flag.n.index, Flag.v.index, Flag.c.index) = (0#2, 1#2, 2#2, 3#2))
    ∧ (∀ (m : Micro) (s : State), m ∈ [.aluAdd .plain, .aluAdd .sub, .aluTwos, .aluAnd, .aluOr, .aluXor, .aluNot] →
      (perform m s).ctl.fidx = 1#2 ∧ (perform m s).ctl.fval = (perform m s).status.n
        ∧ (perform m s).status.z = decide ((perform m s).res = 0#8)
        ∧ (perform m s).status.n = (perform m s).res.msb)
    ∧ (∀ (m : Micro) (s : State), m ∈ [.aluAnd, .aluOr, .aluXor, .aluNot] →
      (perform m s).status.c = s.status.c ∧ (perform m s).status.v = s.status.v)
    ∧ ∀ (m : Micro) (s : State), m ∉ [.aluAdd .plain, .aluAdd .sub, .aluTwos, .aluAnd, .aluOr, .aluXor, .aluNot] →
      (perform m s).status = s.status ∧ (perform m s).ctl.fidx = s.ctl.fidx ∧ (perform m s).ctl.fval = s.ctl.fval

/-- R144 and R141: taking a fault and ending the run, as clock cycles: what they write, that everything else is kept, and
that no I/O check follows. -/
def Obligations.FaultAndEndStopTheClock : Prop :=
  ∀ s : State,
    (∀ r : FaultReason,
      tick (fun t => t.raise r) s
        = { s with
            q := []
            run := .haltedFault r
            events := s.events ++ [.error r]
            ctl := { s.ctl with clk := false } })
      ∧ dispatch .endRun s
        = { s with
            q := []
            savedQ := []
            ioAck := false
            run := .haltedEnd
            events := s.events ++ [.complete]
            ctl := { s.ctl with clk := false } }

/-! ## Memory -/

/-- R56, R38, R41, R42 at the host's port: a write is read back and changes no other address, the zero word leaves
no entry, and an address outside the memory faults with the memory unchanged. Three clauses rest on the model's readings:
that only nonzero bytes are entries in Standard mode too (entry 9), that an access out of range on a halted machine
halts it anew (entry 14), and that an address may be negative (entry 21). -/
def Obligations.HostPortReadsWhatItWrites : Prop :=
  ∀ (s : State) (a : Int) (v : Byte), Memory.wf s.mem →
    (0 ≤ a ∧ a < s.mode.memSize →
      hostRead a s = .next s
        ∧ ∃ t, hostWrite a v s = .next t ∧ t = { s with mem := t.mem } ∧ hostReadValue t a = some v
          ∧ (∀ b : Int, b ≠ a → hostReadValue t b = hostReadValue s b)
          ∧ (∀ x : Nat, (∃ w, (x, w) ∈ t.mem) ↔ Memory.read t.mem x ≠ 0#8))
    ∧ (¬ (0 ≤ a ∧ a < s.mode.memSize) →
      let t := { s with q := [], run := .haltedFault (.memAddr a), events := s.events ++ [.error (.memAddr a)] }
      hostReadValue s a = none ∧ hostRead a s = .next t ∧ hostWrite a v s = .next t)

/-- R54, both machine modes: the byte a `write` stores is the byte the next fetch reads, with no other step in between. In
Standard mode at the first and at the second byte of the next instruction; in Expanded mode at any of its bytes, the first
one deciding how many are fetched (R95). -/
def Obligations.WriteIsSeenByTheNextFetch : Prop :=
  (∀ (m : AddrMode) (n : Byte) (s : State), Ready .standard s → WidthsOk s → Memory.wf s.mem →
      let p1 := fetchAddr .standard s.pc 1
      ∃ t, exec (.stdWrite m n) s = .next t
        ∧ ((stdValue m n s.mem).setWidth 32 = s.pc →
          (fetchPhase t).cir = .std (stdWord s.acc (Memory.read s.mem p1.toNat)))
        ∧ ((stdValue m n s.mem).setWidth 32 = p1 →
          (fetchPhase t).cir = .std (stdWord (Memory.read s.mem s.pc.toNat) s.acc)))
    ∧ ∀ (m : AddrMode) (a : Addr) (s : State), Ready .expanded s → Memory.wf s.mem →
      ∃ t, exec (.expWrite m a) s = .next t
        ∧ ∀ k : Nat, k ≤ 4 → expTarget m a s.mem = fetchAddr .expanded s.pc k →
          let b := fun j : Nat => if j = k then s.acc else Memory.read s.mem (fetchAddr .expanded s.pc j).toNat
          let n := (b 0).extractLsb' 0 3
          (fetchPhase t).cir = .exp (if legalLength n then (List.range (n.toNat + 1)).map b else [b 0])

/-! ## The Standard instructions -/

/-- R116 `add`, both addressing modes. -/
def Obligations.StandardAddResult : Prop :=
  ∀ (m : AddrMode) (n : Byte) (s : State), Ready .standard s →
    exec (.stdAdd m n) s = .next (netAdd (operandStd (.stdAdd m n) m n s))

/-- R117 `sub`, both addressing modes. -/
def Obligations.StandardSubResult : Prop :=
  ∀ (m : AddrMode) (n : Byte) (s : State), Ready .standard s →
    exec (.stdSub m n) s = .next (netSub (operandStd (.stdSub m n) m n s))

/-- R118 to R120 `and`, `or`, `xor`, both addressing modes. -/
def Obligations.StandardLogicResult : Prop :=
  ∀ (m : AddrMode) (n : Byte) (s : State), Ready .standard s →
    exec (.stdAnd m n) s = .next (netLogic (fun dv acc => dv &&& acc) (operandStd (.stdAnd m n) m n s))
      ∧ exec (.stdOr m n) s = .next (netLogic (fun dv acc => dv ||| acc) (operandStd (.stdOr m n) m n s))
      ∧ exec (.stdXor m n) s = .next (netLogic (fun dv acc => dv ^^^ acc) (operandStd (.stdXor m n) m n s))

/-- R121 `not`: the mode and operand fields are ignored. -/
def Obligations.StandardNotResult : Prop :=
  ∀ (m : AddrMode) (n : Byte) (s : State), Ready .standard s →
    exec (.stdNot m n) s = .next (netNot (operandNone (.stdNot m n) s))

/-- R122 `read`, both addressing modes. -/
def Obligations.StandardReadResult : Prop :=
  ∀ (m : AddrMode) (n : Byte) (s : State), Ready .standard s →
    exec (.stdRead m n) s = .next (netRead (operandStd (.stdRead m n) m n s))

/-- R123 `write`, both addressing modes; the one byte stored is at `stdValue m n s.mem`. -/
def Obligations.StandardWriteResult : Prop :=
  ∀ (m : AddrMode) (n : Byte) (s : State), Ready .standard s →
    exec (.stdWrite m n) s = .next (netWrite (operandStd (.stdWrite m n) m n s))
      ∧ (Memory.wf s.mem → ∀ a : Nat,
        Memory.read (netWrite (operandStd (.stdWrite m n) m n s)).mem a
          = if a = (stdValue m n s.mem).toNat then s.acc else Memory.read s.mem a)

/-- R125 `goto` and R127 to R130 the branches, both addressing modes, taken and not. -/
def Obligations.StandardTransferResult : Prop :=
  ∀ (m : AddrMode) (n : Byte) (s : State), Ready .standard s →
    exec (.stdGoto m n) s = .next (netGoto (operandStd (.stdGoto m n) m n s))
      ∧ exec (.stdBranchIfZero m n) s
        = .next (netBranch s.status.z (operandStd (.stdBranchIfZero m n) m n s))
      ∧ exec (.stdBranchIfNegative m n) s
        = .next (netBranch s.status.n (operandStd (.stdBranchIfNegative m n) m n s))
      ∧ exec (.stdBranchIfOverflow m n) s
        = .next (netBranch s.status.v (operandStd (.stdBranchIfOverflow m n) m n s))
      ∧ exec (.stdBranchIfCarry m n) s
        = .next (netBranch s.status.c (operandStd (.stdBranchIfCarry m n) m n s))

/-- R137 `output`: ACC in Standard mode; the mode and operand fields are ignored. With no request waiting, and with the
I/O arbiter in any state a run can leave it in (R139: a byte still staged at the Body is lost). -/
def Obligations.StandardOutputResult : Prop :=
  ∀ (m : AddrMode) (n : Byte) (s : State),
    (Ready .standard s →
      exec (.stdOutput m n) s = .next (netOutput s.acc (operandNone (.stdOutput m n) s)))
      ∧ (ReadyIo .standard s →
        exec (.stdOutput m n) s
          = .next (handlerBehind (outputEffect s.acc (arbitrated (operandNone (.stdOutput m n) s)))))

/-- R138 `input`: the mode and operand fields are ignored. With no request waiting, and with the I/O arbiter in any state a
run can leave it in. -/
def Obligations.StandardInputResult : Prop :=
  ∀ (m : AddrMode) (n : Byte) (s : State),
    (Ready .standard s → exec (.stdInput m n) s = .next (netInput (operandNone (.stdInput m n) s)))
      ∧ (ReadyIo .standard s →
        exec (.stdInput m n) s = .next (handlerBehind (netInput (arbitrated (operandNone (.stdInput m n) s)))))

/-- R142 `end`: the mode and operand fields are ignored; no `Fetch` follows. -/
def Obligations.StandardEndResult : Prop :=
  ∀ (m : AddrMode) (n : Byte) (s : State), Ready .standard s →
    exec (.stdEnd m n) s = .next (netEnd (operandNone (.stdEnd m n) s))

/-! ## The Expanded instructions -/

/-- R116 `add`, both forms. -/
def Obligations.ExpandedAddResult : Prop :=
  ∀ (n : Byte) (a : Addr) (s : State), Ready .expanded s →
    exec (.expAddLit n) s = .next (netAdd (operandExpLit (.expAddLit n) n s))
      ∧ exec (.expAddMem a) s = .next (netAdd (operandExpMem (.expAddMem a) a s))

/-- R117 `sub`, both forms. -/
def Obligations.ExpandedSubResult : Prop :=
  ∀ (n : Byte) (a : Addr) (s : State), Ready .expanded s →
    exec (.expSubLit n) s = .next (netSub (operandExpLit (.expSubLit n) n s))
      ∧ exec (.expSubMem a) s = .next (netSub (operandExpMem (.expSubMem a) a s))

/-- R118 to R120 `and`, `or`, `xor`, both forms. -/
def Obligations.ExpandedLogicResult : Prop :=
  ∀ (n : Byte) (a : Addr) (s : State), Ready .expanded s →
    exec (.expAndLit n) s = .next (netLogic (fun dv acc => dv &&& acc) (operandExpLit (.expAndLit n) n s))
      ∧ exec (.expAndMem a) s = .next (netLogic (fun dv acc => dv &&& acc) (operandExpMem (.expAndMem a) a s))
      ∧ exec (.expOrLit n) s = .next (netLogic (fun dv acc => dv ||| acc) (operandExpLit (.expOrLit n) n s))
      ∧ exec (.expOrMem a) s = .next (netLogic (fun dv acc => dv ||| acc) (operandExpMem (.expOrMem a) a s))
      ∧ exec (.expXorLit n) s = .next (netLogic (fun dv acc => dv ^^^ acc) (operandExpLit (.expXorLit n) n s))
      ∧ exec (.expXorMem a) s = .next (netLogic (fun dv acc => dv ^^^ acc) (operandExpMem (.expXorMem a) a s))

/-- R121 `not`: the mode bit is ignored. -/
def Obligations.ExpandedNotResult : Prop :=
  ∀ (m : AddrMode) (s : State), Ready .expanded s →
    exec (.expNot m) s = .next (netNot (operandNone (.expNot m) s))

/-- R122 `read`, both addressing modes. -/
def Obligations.ExpandedReadResult : Prop :=
  ∀ (m : AddrMode) (a : Addr) (s : State), Ready .expanded s →
    exec (.expRead m a) s = .next (netRead (operandExpAddr (.expRead m a) m a s))

/-- R123 `write`, both addressing modes; the one byte stored is at `expTarget m a s.mem`. -/
def Obligations.ExpandedWriteResult : Prop :=
  ∀ (m : AddrMode) (a : Addr) (s : State), Ready .expanded s →
    exec (.expWrite m a) s = .next (netWrite (operandExpAddr (.expWrite m a) m a s))
      ∧ (Memory.wf s.mem → ∀ x : Nat,
        Memory.read (netWrite (operandExpAddr (.expWrite m a) m a s)).mem x
          = if x = (expTarget m a s.mem).toNat then s.acc else Memory.read s.mem x)

/-- R125 `goto` and R127 to R130 the branches, both addressing modes, taken and not. -/
def Obligations.ExpandedTransferResult : Prop :=
  ∀ (m : AddrMode) (a : Addr) (s : State), Ready .expanded s →
    exec (.expGoto m a) s = .next (netGoto (operandExpAddr (.expGoto m a) m a s))
      ∧ exec (.expBranchIfZero m a) s
        = .next (netBranch s.status.z (operandExpAddr (.expBranchIfZero m a) m a s))
      ∧ exec (.expBranchIfNegative m a) s
        = .next (netBranch s.status.n (operandExpAddr (.expBranchIfNegative m a) m a s))
      ∧ exec (.expBranchIfOverflow m a) s
        = .next (netBranch s.status.v (operandExpAddr (.expBranchIfOverflow m a) m a s))
      ∧ exec (.expBranchIfCarry m a) s
        = .next (netBranch s.status.c (operandExpAddr (.expBranchIfCarry m a) m a s))

/-- R137 `output`: the operand value in Expanded mode, both forms. With no request waiting, and with the I/O arbiter in any
state a run can leave it in (R139: a byte still staged at the Body is lost). -/
def Obligations.ExpandedOutputResult : Prop :=
  ∀ (n : Byte) (a : Addr) (s : State),
    (Ready .expanded s →
      exec (.expOutputLit n) s = .next (netOutput n (operandExpLit (.expOutputLit n) n s))
        ∧ exec (.expOutputMem a) s
          = .next (netOutput (Memory.read s.mem a.toNat) (operandExpMem (.expOutputMem a) a s)))
      ∧ (ReadyIo .expanded s →
        exec (.expOutputLit n) s
            = .next (handlerBehind (outputEffect n (arbitrated (operandExpLit (.expOutputLit n) n s))))
          ∧ exec (.expOutputMem a) s
            = .next (handlerBehind
              (outputEffect (Memory.read s.mem a.toNat) (arbitrated (operandExpMem (.expOutputMem a) a s)))))

/-- R138 `input`: the mode bit is ignored. With no request waiting, and with the I/O arbiter in any state a run can leave it
in. -/
def Obligations.ExpandedInputResult : Prop :=
  ∀ (m : AddrMode) (s : State),
    (Ready .expanded s → exec (.expInput m) s = .next (netInput (operandNone (.expInput m) s)))
      ∧ (ReadyIo .expanded s →
        exec (.expInput m) s = .next (handlerBehind (netInput (arbitrated (operandNone (.expInput m) s)))))

/-- R142 `end`: the mode bit is ignored; no `Fetch` follows. -/
def Obligations.ExpandedEndResult : Prop :=
  ∀ (m : AddrMode) (s : State), Ready .expanded s →
    exec (.expEnd m) s = .next (netEnd (operandNone (.expEnd m) s))

/-! ## Fetch, decode faults, the step -/

/-- R124: `GotoBody`, both sequences, and its net effect from any A-bit MDR value: the steps of R73 that dispatch all of
it but the trailing `Fetch`. -/
def Obligations.GotoBodyCopiesMdrToPc : Prop :=
  gotoBody .standard = [.busReq, .busGrant, .dbusFrom .mdr, .load .pc, .busRelease, .fetch]
    ∧ gotoBody .expanded =
      [.busReq, .busGrant, .rot .mdr, .dbusFrom .mdr, .rot .pc, .load .pc, .rot .mdr, .dbusFrom .mdr, .rot .pc,
        .load .pc, .rot .mdr, .dbusFrom .mdr, .rot .pc, .load .pc, .rot .mdr, .dbusFrom .mdr, .rot .pc, .load .pc,
        .busRelease, .fetch]
    ∧ ∀ s : State, s.run = .running → s.q = [] → s.ctl.ioreq = false → s.ctl.clk = false →
      s.mdr.toNat < s.mode.memSize →
      microRun ((gotoBody s.mode).length - 1) (s.append (gotoBody s.mode)) = netGoto s

/-- R93: the Standard fetch, its sequence and its net effect: the 17 steps of R73 before `Decode`, which are the fetch
phase of the model's step (entry 4). -/
def Obligations.StandardFetchNetEffect : Prop :=
  fetchOf .standard =
      [.busReq, .busGrant, .marFrom .pc, .readOn, .abusFrom .mar, .memOut, .load .mdr, .cirStd .first, .inc .mar,
        .abusFrom .mar, .memOut, .load .mdr, .cirStd .second, .readOff, .inc .pc, .busRelease, .decode]
    ∧ ∀ s : State, AtFetch .standard s →
      microRun 17 s = { fetched s with q := [.decode] } ∧ fetchPhase s = microRun 17 s

/-- R94 and R95: the Expanded fetch of an instruction with a legal length, and the halt of any other length. -/
def Obligations.ExpandedFetchNetEffect : Prop :=
  fetchOf .expanded =
      [.busReq, .busGrant, .marFrom .pc, .readOn, .abusFrom .mar, .memOut, .load .mdr, .cirExp 0, .inc .pc, .fetchRest]
    ∧ (∀ s : State, AtFetch .expanded s → legalLength (lengthAt s) = true →
      fetchPhase s = { fetched s with q := [.decode] })
    ∧ ∀ s : State, AtFetch .expanded s → legalLength (lengthAt s) = false →
      let t := fetchPhase s
      t.run = .haltedFault (.decode (.badLength (lengthAt s))) ∧ t.cir = .exp [headAt s] ∧ t.pc = s.pc + 1#32
        ∧ t.ctl.req = true ∧ t.ctl.gnt = true ∧ t.ctl.rd = true

/-- A step runs the decoded instruction: where the bytes at PC spell one, the step at an instruction boundary is its
meaning in the state the fetch leaves, PC past the instruction and the instruction in CIR. With no I/O request waiting,
and with the arbiter in any state a run can leave it in: a handler queued at the boundary runs right after `Fetch`, a
request that only waits gets its handler queued behind the fetch, and nothing else of the fetch changes (R107). -/
def Obligations.StepRunsTheDecodedInstruction : Prop :=
  ∀ (mode : MachineMode) (i : Instr) (s : State), instrAt s = some i →
    (AtFetch mode s → step s = exec i (fetched s) ∧ i.wellFormed mode = true ∧ (fetched s).cir = i.code)
      ∧ (AtFetchIo mode s →
        step s = exec i (fetchedIo s) ∧ i.wellFormed mode = true ∧ (fetchedIo s).cir = i.code
          ∧ ReadyIo mode (fetchedIo s))

/-- R145: the state each decode fault leaves, whatever the I/O arbiter is doing, and what else it keeps. The step is the
model's instruction cycle (entry 4); the same state is reached by steps of R73. -/
def Obligations.DecodeFaultLeavesTheFetchedState : Prop :=
  ∀ s : State,
    (AtFetchIo .standard s → ((wordAt s).extractLsb' 8 2 = 2#2 ∨ (wordAt s).extractLsb' 8 2 = 3#2) →
      ∃ t k, step s = .next t ∧ microRun k s = t ∧ t.run = .haltedFault (.decode (.badMode ((wordAt s).extractLsb' 8 2)))
        ∧ t.cir = .std (wordAt s) ∧ t.pc = fetchAddr .standard s.pc 2
        ∧ t.ctl.req = false ∧ t.ctl.gnt = false ∧ t.ctl.rd = false
        ∧ t.q = [] ∧ t.acc = s.acc ∧ t.status = s.status ∧ t.mem = s.mem)
    ∧ (AtFetchIo .expanded s → legalLength (lengthAt s) = false →
      ∃ t k, step s = .next t ∧ microRun k s = t ∧ t.run = .haltedFault (.decode (.badLength (lengthAt s)))
        ∧ t.cir = .exp [headAt s] ∧ t.pc = fetchAddr .expanded s.pc 1
        ∧ t.ctl.req = true ∧ t.ctl.gnt = true ∧ t.ctl.rd = true
        ∧ t.q = [] ∧ t.acc = s.acc ∧ t.status = s.status ∧ t.mem = s.mem)
    ∧ (AtFetchIo .expanded s → legalLength (lengthAt s) = true →
      lengthAt s ≠ ((Opcode.ofBits ((headAt s).extractLsb' 4 4)).classIn .expanded).legalLen
        (AddrMode.ofBit ((headAt s).extractLsb' 3 1)) →
      ∃ t k, step s = .next t ∧ microRun k s = t
        ∧ t.run = .haltedFault (.decode (.badForm ((headAt s).extractLsb' 4 4) ((headAt s).extractLsb' 3 1) (lengthAt s)))
        ∧ t.cir = .exp (bytesAt s ((lengthAt s).toNat + 1))
        ∧ t.pc = fetchAddr .expanded s.pc ((lengthAt s).toNat + 1)
        ∧ t.ctl.req = false ∧ t.ctl.gnt = false ∧ t.ctl.rd = false
        ∧ t.q = [] ∧ t.acc = s.acc ∧ t.status = s.status ∧ t.mem = s.mem)

/-- From any instruction boundary a run can be at, the next step answers a state that is again such a boundary, or the
run has ended with `end` or with a decode fault: nothing else leaves the cycle (R149), no micro-op of the CU ever
faults on an address (20_memory.md R40), and the bound of entry 5 is never used up. -/
def Obligations.StepEndsAtTheNextBoundaryOrHalts : Prop :=
  ∀ (mode : MachineMode) (s : State), AtFetchIo mode s →
    ∃ t, step s = .next t
      ∧ (AtFetchIo mode t ∨ t.run = .haltedEnd ∨ ∃ r, t.run = .haltedFault (.decode r))

/-- R162: a whole instruction takes as many steps of R73 as the tables say, when no `IoHandler` is dispatched. -/
def Obligations.InstructionTakesTheTabledSteps : Prop :=
  ∀ (mode : MachineMode) (i : Instr) (s t : State), AtFetch mode s → instrAt s = some i → step s = .next t →
    microRun (stepCount i s.status) s = t

/-- The model's step is a run of the spec's steps (R73, R77, R107), from every instruction boundary, whatever the I/O
arbiter is doing. -/
def Obligations.StepIsARunOfMicroSteps : Prop :=
  ∀ (mode : MachineMode) (s t : State), AtFetchIo mode s → step s = .next t → ∃ n, microRun n s = t

/-- R107: a queued or waiting I/O request never changes what an instruction does. From the state in which `Decode` has just
been popped, an instruction other than `input` ends with all components but the arbiter's as it does without the request.
From an instruction boundary (the fetch and the decode faults included) so does every step but that of an `input`, whose
ACC alone may differ as well. -/
def Obligations.HandlerNeverDisturbsAnInstruction : Prop :=
  (∀ (i : Instr) (s t : State), i.opcode ≠ .input → ReadyIo i.machineMode s → exec i s = .next t →
      ∃ u, exec i (withoutIo s) = .next u ∧ withoutIo t = withoutIo u)
    ∧ ∀ (mode : MachineMode) (s t : State), AtFetchIo mode s → step s = .next t →
      ∃ u, step (withoutIo s) = .next u
        ∧ ((∀ i, instrAt s = some i → i.opcode ≠ .input) → withoutIo t = withoutIo u)
        ∧ withoutIo { t with acc := 0#8 } = withoutIo { u with acc := 0#8 }

/-! ## Invariants -/

/-- The machine record is in form right after the initialisation of either mode, and after reset. -/
def Obligations.ResetSatisfiesTheInvariants : Prop :=
  (∀ (mode : MachineMode) (device : Device), Inv (State.resetIn mode device) ∧ AckOk (State.resetIn mode device))
    ∧ Inv State.reset ∧ AckOk State.reset

/-- Every step of the model keeps the machine record in form: A-bit registers and buses, CIR of the machine's mode and
length, memory canonical and in range. -/
def Obligations.EveryStepKeepsTheRecordInForm : Prop :=
  ∀ s t : State, Inv s → step s = .next t → Inv t

/-- So does every step of R73, and every action of the host. -/
def Obligations.MicroStepsAndHostActionsKeepTheRecordInForm : Prop :=
  (∀ s t : State, Inv s → microStep s = .next t → Inv t)
    ∧ ∀ (act : HostAct) (s t : State), Inv s → hostAct act s = .next t → Inv t

/-- R76: `io_ack` is 1 exactly while an `IoHandler` is queued (in Q, or in the queue an unlimited-mode pause has saved),
and there is at most one: every step of R73 keeps it, every step of the model, and every action of the host, so it holds
from `Start` through every `Pause`, `Resume` and `receiveInput`. -/
def Obligations.AcknowledgeMeansOneHandlerQueued : Prop :=
  (∀ s t : State, AckOk s → microStep s = .next t → AckOk t)
    ∧ (∀ s t : State, AckOk s → step s = .next t → AckOk t)
    ∧ ∀ (act : HostAct) (s t : State), AckOk s → hostAct act s = .next t → AckOk t

/-! ## Whole-machine rules -/

/-- R22 at instruction level: only `add`, `sub`, `and`, `or`, `xor`, `not` change STATUS, and the logic instructions
leave C and V, whatever the I/O arbiter is doing. -/
def Obligations.OnlyAluInstructionsChangeFlags : Prop :=
  ∀ (i : Instr) (s t : State), ReadyIo i.machineMode s → exec i s = .next t →
    (i.opcode ∉ [.add, .sub, .and, .or, .xor, .not] → t.status = s.status)
      ∧ (i.opcode ∈ [.and, .or, .xor, .not] → t.status.c = s.status.c ∧ t.status.v = s.status.v)

/-- Only `write` changes memory, and only the byte at its effective address (R100, R123), whatever the I/O arbiter is
doing. -/
def Obligations.OnlyWriteChangesMemory : Prop :=
  (∀ (i : Instr) (s t : State), ReadyIo i.machineMode s → exec i s = .next t → i.opcode ≠ .write → t.mem = s.mem)
    ∧ (∀ (m : AddrMode) (n : Byte) (s t : State), ReadyIo .standard s → Memory.wf s.mem →
      exec (.stdWrite m n) s = .next t →
      ∀ x : Nat, Memory.read t.mem x = if x = (stdValue m n s.mem).toNat then s.acc else Memory.read s.mem x)
    ∧ ∀ (m : AddrMode) (a : Addr) (s t : State), ReadyIo .expanded s → Memory.wf s.mem →
      exec (.expWrite m a) s = .next t →
      ∀ x : Nat, Memory.read t.mem x = if x = (expTarget m a s.mem).toNat then s.acc else Memory.read s.mem x

/-- No step changes the machine mode (R3), the device or the clock frequency, events are only appended (R32), and the
saved queue changes only when the run ends (R30, R141). -/
def Obligations.StepsKeepParametersAndHistory : Prop :=
  ∀ s t : State, step s = .next t →
    t.mode = s.mode ∧ t.device = s.device ∧ t.hz = s.hz ∧ s.events <+: t.events
      ∧ (t.savedQ = s.savedQ ∨ t.run = .haltedEnd ∧ t.savedQ = [])

/-! ## The I/O arbiter -/

/-- R133: everything `IoHandler` does, and everything it leaves. -/
def Obligations.IoHandlerGrantsOrRequeues : Prop :=
  ∀ s : State,
    (s.ctl.gnt = true ∨ s.ctl.iognt = true → perform .ioHandler s = { s with q := s.q ++ [.ioHandler] })
      ∧ (s.ctl.gnt = false → s.ctl.iognt = false →
        perform .ioHandler s =
          { s with
            iobus := if s.ioPending then s.ioVal else s.iobus
            ioPending := false
            ioAck := false
            ctl := { s.ctl with iognt := true, ioreq := false } })

/-- R140, steps 3 to 5: at a boundary with a staged byte whose handler is queued behind `Fetch` and the I/O grant free,
an `input` loads that byte and releases the grant. -/
def Obligations.InputReadsTheStagedByte : Prop :=
  ∀ (mode : MachineMode) (i : Instr) (s : State), s.run = .running → s.mode = mode → s.q = [.fetch, .ioHandler] →
    s.ioAck = true → s.ioPending = true → s.ctl.gnt = false → s.ctl.iognt = false → instrAt s = some i →
    i.opcode = .input →
    ∃ t, step s = .next t ∧ t.acc = s.ioVal ∧ t.iobus = s.ioVal ∧ t.ioPending = false ∧ t.ctl.iognt = false
      ∧ t.ctl.ioreq = false ∧ t.q = [.fetch] ∧ t.status = s.status ∧ t.mem = s.mem

/-- R139, hazard 1: an `output` swallows a staged input, and the late handler grants with nothing pending. From a request
that waits for a held grant; from a `receiveInput` just before the Body's `IoOpen`, by steps of R73; and the `input` that
meets the late handler reads what IOBUS held. -/
def Obligations.OutputSwallowsAStagedInput : Prop :=
  (∀ (i : Instr) (s t : State), i.opcode = .output → ReadyIo i.machineMode s → s.ctl.ioreq = true →
      s.ioPending = true → s.ctl.iognt = true → s.ctl.gnt = false → exec i s = .next t →
      deviceReply t.device (outputsOf t.events) = none →
      AtFetchIo i.machineMode t ∧ t.ioAck = true ∧ t.ioPending = false ∧ t.ctl.iognt = false ∧ t.ctl.gnt = false
        ∧ t.events = s.events ++ [.output t.iobus])
    ∧ (∀ (s : State) (v : Byte), s.run = .running → s.q = outputBody → s.ioAck = false → s.ctl.gnt = false →
      let src : Byte := match s.mode with
        | .standard => s.acc
        | .expanded => s.mdr.extractLsb' 0 8
      deviceReply s.device (outputsOf (s.events ++ [.output src])) = none →
      let t := microRun 4 (s.receiveInput v)
      AtFetchIo s.mode t ∧ t.ioAck = true ∧ t.ioPending = false ∧ t.ctl.iognt = false ∧ t.ctl.gnt = false
        ∧ t.iobus = src ∧ t.events = s.events ++ [.output src])
    ∧ ∀ (mode : MachineMode) (i : Instr) (s : State), AtFetchIo mode s → s.ioAck = true → s.ioPending = false →
      s.ctl.gnt = false → s.ctl.iognt = false → instrAt s = some i → i.opcode = .input →
      ∃ t, step s = .next t ∧ t.acc = s.iobus ∧ t.iobus = s.iobus ∧ t.ctl.iognt = false ∧ t.ctl.ioreq = false
        ∧ t.q = [.fetch]

/-! ## Reset, run control, loading -/

/-- R35: every component's reset value, in both machine modes. -/
def Obligations.ResetGivesEveryComponentItsValue : Prop :=
  ∀ (mode : MachineMode) (device : Device),
    let s := State.resetIn mode device
    s.mode = mode ∧ s.pc = 0#32 ∧ s.mar = 0#32 ∧ s.mdr = 0#32 ∧ s.acc = 0#8
      ∧ (mode = .standard → s.cir = .std 0#14) ∧ (mode = .expanded → s.cir = .exp [0x00#8])
      ∧ s.status = { z := false, n := false, v := false, c := false }
      ∧ s.abus = 0#32 ∧ s.dbus = 0#8 ∧ s.iobus = 0#8
      ∧ s.ctl = { req := false, gnt := false, rd := false, wr := false, clk := false, ioreq := false, iognt := false,
                  fidx := 0#2, fval := false }
      ∧ s.val1 = 0#8 ∧ s.val2 = 0#8 ∧ s.res = 0#8 ∧ s.submark = false
      ∧ (∀ a : Nat, Memory.read s.mem a = 0#8) ∧ (mode = .expanded → s.mem = [])
      ∧ s.q = [] ∧ s.savedQ = [] ∧ s.ioPending = false ∧ s.ioVal = 0#8 ∧ s.ioAck = false
      ∧ s.run = .idle ∧ s.events = []

/-- R154: the host's `Reset` is admitted in every run state and gives the initial state of the machine's mode and device,
and nothing else leaves a halt: a halted machine has no step, and every other host action leaves it halted. That the
clock frequency is 0 again is the model's choice (entry 6), and so is the empty memory list in Standard mode (entry 9). -/
def Obligations.OnlyResetLeavesAHalt : Prop :=
  (∀ s : State, hostAct .reset s = .next (State.resetIn s.mode s.device))
    ∧ ∀ s : State, isHalted s.run = true →
      (∀ t, microStep s ≠ .next t ∧ step s ≠ .next t)
        ∧ ∀ (act : HostAct) (t : State), act ≠ .reset → hostAct act s = .next t → isHalted t.run = true

/-- R73: the step of the spec, and that a machine that is not Running has none, at either level. -/
def Obligations.OnlyARunningMachineHasAStep : Prop :=
  (∀ (s : State) (m : Micro) (rest : List Micro), s.run = .running → s.q = m :: rest →
      ∃ u, u = perform m { s with q := rest, ctl := { s.ctl with clk := true } }
        ∧ microStep s = .next ((if u.run = .running then u.ioCheck else u).setClk false))
    ∧ ∀ (s : State) (i : Instr), s.run ≠ .running →
      microStep s = .fault (.notRunning s.run) ∧ step s = .fault (.notRunning s.run)
        ∧ exec i s = .fault (.notRunning s.run)

/-- R104: a Pause and the Resume after it are the identity in both clock modes, and a paused machine has no step. -/
def Obligations.PauseThenResumeIsTheIdentity : Prop :=
  ∀ s : State, s.run = .running → (s.hz = 0 → s.savedQ = []) →
    ∃ p, hostPause s = .next p ∧ p.run = .paused ∧ (s.hz = 0 → p.q = [] ∧ p.savedQ = s.q)
      ∧ (s.hz ≠ 0 → p.q = s.q) ∧ microStep p = .fault (.notRunning .paused) ∧ hostResume p = .next s

/-- R105: a batch of the unlimited clock with its yield at the end is its micro-operation steps alone, and what such a
batch leaves is again a state with nothing saved. -/
def Obligations.YieldChangesNothing : Prop :=
  ∀ s : State, s.hz = 0 → s.savedQ = [] →
    clockBatch s = microRun Config.yieldOps s ∧ (clockBatch s).savedQ = [] ∧ (clockBatch s).hz = 0

/-- R152: where the loader places an image, and what it refuses. Standard: word k of the image at 2k and 2k + 1, at most 128
of them. Expanded: the bytes of the strings one after the other. Memory beyond the image keeps its bytes and nothing but
memory changes; the fields are not checked. A string of another length or with another character is refused, and so is
every image on a machine that is not Idle. For Expanded mode, the refusal of other characters and of an image that does
not fit is the model's reading (entry 15). -/
def Obligations.LoaderPlacesTheImage : Prop :=
  (∀ s : State, s.run = .idle → Memory.wf s.mem →
      (s.mode = .standard → ∀ words : List (BitVec 14),
        (words.length ≤ 128 →
          ∃ t, hostLoad (words.map bitChars) s = .next t ∧ t = { s with mem := t.mem }
            ∧ (∀ (k : Nat) (w : BitVec 14), words[k]? = some w →
              Memory.read t.mem (2 * k) = w.extractLsb' 6 8
                ∧ Memory.read t.mem (2 * k + 1) = 0#2 ++ w.extractLsb' 0 6)
            ∧ ∀ x : Nat, 2 * words.length ≤ x → Memory.read t.mem x = Memory.read s.mem x)
          ∧ (128 < words.length → hostLoad (words.map bitChars) s = .refused .badImage))
        ∧ (s.mode = .expanded → ∀ codes : List (List Byte),
          (∀ c ∈ codes, c.length = 1 ∨ c.length = 2 ∨ c.length = 5) →
          let image := codes.map fun c => c.flatMap bitChars
          (codes.flatten.length ≤ 4294967296 →
            ∃ t, hostLoad image s = .next t ∧ t = { s with mem := t.mem }
              ∧ (∀ (k : Nat) (b : Byte), codes.flatten[k]? = some b → Memory.read t.mem k = b)
              ∧ ∀ x : Nat, codes.flatten.length ≤ x → Memory.read t.mem x = Memory.read s.mem x)
            ∧ (4294967296 < codes.flatten.length → hostLoad image s = .refused .badImage))
        ∧ ∀ (image : List (List Char)) (str : List Char), str ∈ image →
          (¬ stringLengthOk s.mode str.length ∨ ∃ c ∈ str, c ≠ '0' ∧ c ≠ '1') →
          hostLoad image s = .refused .badImage)
    ∧ ∀ (image : List (List Char)) (s : State), s.run ≠ .idle → hostLoad image s = .refused .notAdmitted

/-- R152, R103, R153: an image that the loader takes (`LoaderPlacesTheImage` says which bytes it is) lies from address 0 on,
the rest of the memory is as it was, and `Start` makes the first step fetch at address 0. -/
def Obligations.BootRunsTheImageFromAddressZero : Prop :=
  ∀ (mode : MachineMode) (device : Device) (image : List (List Char)) (bytes : List Byte) (hz : Nat),
    imageBytes mode image = some bytes → bytes.length ≤ mode.memSize →
    ∃ t u, hostLoad image (State.resetIn mode device) = .next t ∧ hostStart hz t = .next u
      ∧ AtFetch mode u ∧ u.pc = 0#32 ∧ u.hz = hz
      ∧ (∀ k : Nat, k < bytes.length → some (Memory.read u.mem k) = bytes[k]?)
      ∧ ∀ k : Nat, bytes.length ≤ k → Memory.read u.mem k = 0#8
end

