-- ==== Sys2Proof/Laws/Decode.lean ====
section
/-! SUPPORT. The fields of the two formats: what the decoder's fields read of the words the encoder makes. -/

namespace Sys2Proof

@[simp] theorem Opcode.ofBits_bits (op : Opcode) : Opcode.ofBits op.bits = op := by cases op <;> rfl

@[simp] theorem AddrMode.ofBit_bit (m : AddrMode) : AddrMode.ofBit m.bit = m := by cases m <;> rfl

@[simp] theorem stdCode_opcode (op : Opcode) (m : AddrMode) (n : Byte) :
    (stdCode op m n).extractLsb' 10 4 = op.bits := by
  ext i hi
  simp only [stdCode, BitVec.getElem_extractLsb', BitVec.getLsbD_append]
  have h1 : ¬ (10 + i < 8) := by omega
  have h2 : ¬ (10 + i - 8 < 1 + 1) := by omega
  simp [h1, h2, show 10 + i - 8 - 2 = i by omega, hi]

@[simp] theorem stdCode_operand (op : Opcode) (m : AddrMode) (n : Byte) :
    (stdCode op m n).extractLsb' 0 8 = n := by
  ext i hi
  simp only [stdCode, BitVec.getElem_extractLsb', BitVec.getLsbD_append]
  simp [hi]

@[simp] theorem stdCode_mode (op : Opcode) (m : AddrMode) (n : Byte) :
    (stdCode op m n).extractLsb' 8 2 = 0#1 ++ m.bit := by
  apply BitVec.eq_of_getLsbD_eq
  intro i hi
  simp only [stdCode, BitVec.getLsbD_extractLsb', BitVec.getLsbD_append]
  have h1 : ¬ (8 + i < 8) := by omega
  have h2 : 8 + i - 8 = i := by omega
  simp only [h1, if_false, h2]
  by_cases h : i < 1 <;> simp [h, hi]

@[simp] theorem stdCode_modeBit (op : Opcode) (m : AddrMode) (n : Byte) :
    (stdCode op m n).extractLsb' 8 1 = m.bit := by
  ext i hi
  simp only [stdCode, BitVec.getElem_extractLsb', BitVec.getLsbD_append]
  have h1 : ¬ (8 + i < 8) := by omega
  have h2 : 8 + i - 8 < 1 + 1 := by omega
  have h3 : 8 + i - 8 < 1 := by omega
  simp only [h1, h2, h3, if_true, if_false]
  simp [show 8 + i - 8 = i by omega, hi]

@[simp] theorem expHead_opcode (op : Opcode) (m : AddrMode) (k : Nat) :
    (expHead op m k).extractLsb' 4 4 = op.bits := by
  ext i hi
  simp only [expHead, BitVec.getElem_extractLsb', BitVec.getLsbD_append]
  have h1 : ¬ (4 + i < 3) := by omega
  have h2 : ¬ (4 + i - 3 < 1) := by omega
  simp [h1, h2, show 4 + i - 3 - 1 = i by omega, hi]

@[simp] theorem expHead_modeBit (op : Opcode) (m : AddrMode) (k : Nat) :
    (expHead op m k).extractLsb' 3 1 = m.bit := by
  ext i hi
  simp only [expHead, BitVec.getElem_extractLsb', BitVec.getLsbD_append]
  have h1 : ¬ (3 + i < 3) := by omega
  simp [h1, show 3 + i - 3 = i by omega, hi]

@[simp] theorem expHead_length (op : Opcode) (m : AddrMode) (k : Nat) :
    (expHead op m k).extractLsb' 0 3 = BitVec.ofNat 3 k := by
  ext i hi
  simp only [expHead, BitVec.getElem_extractLsb', BitVec.getLsbD_append]
  simp [hi]

/-- The two memory words of a 14-bit word give it back (R44). -/
@[simp] theorem stdWord_stdBytes (word : BitVec 14) :
    stdWord (word.extractLsb' 6 8) (0#2 ++ word.extractLsb' 0 6) = word := by
  apply BitVec.eq_of_getLsbD_eq
  intro i hi
  simp only [stdWord, BitVec.getLsbD_append]
  split
  · rename_i h
    simp only [BitVec.getLsbD_extractLsb', BitVec.getLsbD_append]
    simp [h]
  · rename_i h
    simp [show 6 + (i - 6) = i by omega, show i - 6 < 8 by omega]

/-- The four big-endian bytes of a 32-bit operand give it back (R43, R62). -/
@[simp] theorem address_bytes (a : Addr) :
    (a.extractLsb' 24 8 ++ a.extractLsb' 16 8 ++ a.extractLsb' 8 8 ++ a.extractLsb' 0 8 : BitVec 32) = a := by
  apply BitVec.eq_of_getLsbD_eq
  intro i hi
  simp only [BitVec.getLsbD_append, BitVec.getLsbD_extractLsb']
  split
  · simp_all
  · split
    · simp_all [show 8 + (i - 8) = i by omega]
    · split
      · simp_all [show 16 + (i - 8 - 8) = i by omega]
      · simp [show 24 + (i - 8 - 8 - 8) = i by omega, show i - 8 - 8 - 8 < 8 by omega]

end Sys2Proof
end

