-- ==== Sys2Proof/Laws/State.lean ====
section
/-! SUPPORT. What each named update of Machine/Ops.lean and Machine/Flags.lean leaves in each field of State: one lemma
per field per update, so that no later proof unfolds a record update. -/

namespace Sys2Proof.Machine

@[simp] theorem State.writePc_mode (s : State) (v : Addr) : (s.writePc v).mode = s.mode := rfl
@[simp] theorem State.writePc_pc (s : State) (v : Addr) : (s.writePc v).pc = fitTo s.mode v := rfl
@[simp] theorem State.writePc_mar (s : State) (v : Addr) : (s.writePc v).mar = s.mar := rfl
@[simp] theorem State.writePc_mdr (s : State) (v : Addr) : (s.writePc v).mdr = s.mdr := rfl
@[simp] theorem State.writePc_acc (s : State) (v : Addr) : (s.writePc v).acc = s.acc := rfl
@[simp] theorem State.writePc_cir (s : State) (v : Addr) : (s.writePc v).cir = s.cir := rfl
@[simp] theorem State.writePc_status (s : State) (v : Addr) : (s.writePc v).status = s.status := rfl
@[simp] theorem State.writePc_abus (s : State) (v : Addr) : (s.writePc v).abus = s.abus := rfl
@[simp] theorem State.writePc_dbus (s : State) (v : Addr) : (s.writePc v).dbus = s.dbus := rfl
@[simp] theorem State.writePc_iobus (s : State) (v : Addr) : (s.writePc v).iobus = s.iobus := rfl
@[simp] theorem State.writePc_ctl (s : State) (v : Addr) : (s.writePc v).ctl = s.ctl := rfl
@[simp] theorem State.writePc_val1 (s : State) (v : Addr) : (s.writePc v).val1 = s.val1 := rfl
@[simp] theorem State.writePc_val2 (s : State) (v : Addr) : (s.writePc v).val2 = s.val2 := rfl
@[simp] theorem State.writePc_res (s : State) (v : Addr) : (s.writePc v).res = s.res := rfl
@[simp] theorem State.writePc_submark (s : State) (v : Addr) : (s.writePc v).submark = s.submark := rfl
@[simp] theorem State.writePc_mem (s : State) (v : Addr) : (s.writePc v).mem = s.mem := rfl
@[simp] theorem State.writePc_q (s : State) (v : Addr) : (s.writePc v).q = s.q := rfl
@[simp] theorem State.writePc_savedQ (s : State) (v : Addr) : (s.writePc v).savedQ = s.savedQ := rfl
@[simp] theorem State.writePc_ioPending (s : State) (v : Addr) : (s.writePc v).ioPending = s.ioPending := rfl
@[simp] theorem State.writePc_ioVal (s : State) (v : Addr) : (s.writePc v).ioVal = s.ioVal := rfl
@[simp] theorem State.writePc_ioAck (s : State) (v : Addr) : (s.writePc v).ioAck = s.ioAck := rfl
@[simp] theorem State.writePc_run (s : State) (v : Addr) : (s.writePc v).run = s.run := rfl
@[simp] theorem State.writePc_events (s : State) (v : Addr) : (s.writePc v).events = s.events := rfl
@[simp] theorem State.writePc_hz (s : State) (v : Addr) : (s.writePc v).hz = s.hz := rfl
@[simp] theorem State.writePc_device (s : State) (v : Addr) : (s.writePc v).device = s.device := rfl

@[simp] theorem State.writeMar_mode (s : State) (v : Addr) : (s.writeMar v).mode = s.mode := rfl
@[simp] theorem State.writeMar_pc (s : State) (v : Addr) : (s.writeMar v).pc = s.pc := rfl
@[simp] theorem State.writeMar_mar (s : State) (v : Addr) : (s.writeMar v).mar = fitTo s.mode v := rfl
@[simp] theorem State.writeMar_mdr (s : State) (v : Addr) : (s.writeMar v).mdr = s.mdr := rfl
@[simp] theorem State.writeMar_acc (s : State) (v : Addr) : (s.writeMar v).acc = s.acc := rfl
@[simp] theorem State.writeMar_cir (s : State) (v : Addr) : (s.writeMar v).cir = s.cir := rfl
@[simp] theorem State.writeMar_status (s : State) (v : Addr) : (s.writeMar v).status = s.status := rfl
@[simp] theorem State.writeMar_abus (s : State) (v : Addr) : (s.writeMar v).abus = s.abus := rfl
@[simp] theorem State.writeMar_dbus (s : State) (v : Addr) : (s.writeMar v).dbus = s.dbus := rfl
@[simp] theorem State.writeMar_iobus (s : State) (v : Addr) : (s.writeMar v).iobus = s.iobus := rfl
@[simp] theorem State.writeMar_ctl (s : State) (v : Addr) : (s.writeMar v).ctl = s.ctl := rfl
@[simp] theorem State.writeMar_val1 (s : State) (v : Addr) : (s.writeMar v).val1 = s.val1 := rfl
@[simp] theorem State.writeMar_val2 (s : State) (v : Addr) : (s.writeMar v).val2 = s.val2 := rfl
@[simp] theorem State.writeMar_res (s : State) (v : Addr) : (s.writeMar v).res = s.res := rfl
@[simp] theorem State.writeMar_submark (s : State) (v : Addr) : (s.writeMar v).submark = s.submark := rfl
@[simp] theorem State.writeMar_mem (s : State) (v : Addr) : (s.writeMar v).mem = s.mem := rfl
@[simp] theorem State.writeMar_q (s : State) (v : Addr) : (s.writeMar v).q = s.q := rfl
@[simp] theorem State.writeMar_savedQ (s : State) (v : Addr) : (s.writeMar v).savedQ = s.savedQ := rfl
@[simp] theorem State.writeMar_ioPending (s : State) (v : Addr) : (s.writeMar v).ioPending = s.ioPending := rfl
@[simp] theorem State.writeMar_ioVal (s : State) (v : Addr) : (s.writeMar v).ioVal = s.ioVal := rfl
@[simp] theorem State.writeMar_ioAck (s : State) (v : Addr) : (s.writeMar v).ioAck = s.ioAck := rfl
@[simp] theorem State.writeMar_run (s : State) (v : Addr) : (s.writeMar v).run = s.run := rfl
@[simp] theorem State.writeMar_events (s : State) (v : Addr) : (s.writeMar v).events = s.events := rfl
@[simp] theorem State.writeMar_hz (s : State) (v : Addr) : (s.writeMar v).hz = s.hz := rfl
@[simp] theorem State.writeMar_device (s : State) (v : Addr) : (s.writeMar v).device = s.device := rfl

@[simp] theorem State.writeMdr_mode (s : State) (v : Addr) : (s.writeMdr v).mode = s.mode := rfl
@[simp] theorem State.writeMdr_pc (s : State) (v : Addr) : (s.writeMdr v).pc = s.pc := rfl
@[simp] theorem State.writeMdr_mar (s : State) (v : Addr) : (s.writeMdr v).mar = s.mar := rfl
@[simp] theorem State.writeMdr_mdr (s : State) (v : Addr) : (s.writeMdr v).mdr = fitTo s.mode v := rfl
@[simp] theorem State.writeMdr_acc (s : State) (v : Addr) : (s.writeMdr v).acc = s.acc := rfl
@[simp] theorem State.writeMdr_cir (s : State) (v : Addr) : (s.writeMdr v).cir = s.cir := rfl
@[simp] theorem State.writeMdr_status (s : State) (v : Addr) : (s.writeMdr v).status = s.status := rfl
@[simp] theorem State.writeMdr_abus (s : State) (v : Addr) : (s.writeMdr v).abus = s.abus := rfl
@[simp] theorem State.writeMdr_dbus (s : State) (v : Addr) : (s.writeMdr v).dbus = s.dbus := rfl
@[simp] theorem State.writeMdr_iobus (s : State) (v : Addr) : (s.writeMdr v).iobus = s.iobus := rfl
@[simp] theorem State.writeMdr_ctl (s : State) (v : Addr) : (s.writeMdr v).ctl = s.ctl := rfl
@[simp] theorem State.writeMdr_val1 (s : State) (v : Addr) : (s.writeMdr v).val1 = s.val1 := rfl
@[simp] theorem State.writeMdr_val2 (s : State) (v : Addr) : (s.writeMdr v).val2 = s.val2 := rfl
@[simp] theorem State.writeMdr_res (s : State) (v : Addr) : (s.writeMdr v).res = s.res := rfl
@[simp] theorem State.writeMdr_submark (s : State) (v : Addr) : (s.writeMdr v).submark = s.submark := rfl
@[simp] theorem State.writeMdr_mem (s : State) (v : Addr) : (s.writeMdr v).mem = s.mem := rfl
@[simp] theorem State.writeMdr_q (s : State) (v : Addr) : (s.writeMdr v).q = s.q := rfl
@[simp] theorem State.writeMdr_savedQ (s : State) (v : Addr) : (s.writeMdr v).savedQ = s.savedQ := rfl
@[simp] theorem State.writeMdr_ioPending (s : State) (v : Addr) : (s.writeMdr v).ioPending = s.ioPending := rfl
@[simp] theorem State.writeMdr_ioVal (s : State) (v : Addr) : (s.writeMdr v).ioVal = s.ioVal := rfl
@[simp] theorem State.writeMdr_ioAck (s : State) (v : Addr) : (s.writeMdr v).ioAck = s.ioAck := rfl
@[simp] theorem State.writeMdr_run (s : State) (v : Addr) : (s.writeMdr v).run = s.run := rfl
@[simp] theorem State.writeMdr_events (s : State) (v : Addr) : (s.writeMdr v).events = s.events := rfl
@[simp] theorem State.writeMdr_hz (s : State) (v : Addr) : (s.writeMdr v).hz = s.hz := rfl
@[simp] theorem State.writeMdr_device (s : State) (v : Addr) : (s.writeMdr v).device = s.device := rfl

@[simp] theorem State.writeAcc_mode (s : State) (v : Byte) : (s.writeAcc v).mode = s.mode := rfl
@[simp] theorem State.writeAcc_pc (s : State) (v : Byte) : (s.writeAcc v).pc = s.pc := rfl
@[simp] theorem State.writeAcc_mar (s : State) (v : Byte) : (s.writeAcc v).mar = s.mar := rfl
@[simp] theorem State.writeAcc_mdr (s : State) (v : Byte) : (s.writeAcc v).mdr = s.mdr := rfl
@[simp] theorem State.writeAcc_acc (s : State) (v : Byte) : (s.writeAcc v).acc = v := rfl
@[simp] theorem State.writeAcc_cir (s : State) (v : Byte) : (s.writeAcc v).cir = s.cir := rfl
@[simp] theorem State.writeAcc_status (s : State) (v : Byte) : (s.writeAcc v).status = s.status := rfl
@[simp] theorem State.writeAcc_abus (s : State) (v : Byte) : (s.writeAcc v).abus = s.abus := rfl
@[simp] theorem State.writeAcc_dbus (s : State) (v : Byte) : (s.writeAcc v).dbus = s.dbus := rfl
@[simp] theorem State.writeAcc_iobus (s : State) (v : Byte) : (s.writeAcc v).iobus = s.iobus := rfl
@[simp] theorem State.writeAcc_ctl (s : State) (v : Byte) : (s.writeAcc v).ctl = s.ctl := rfl
@[simp] theorem State.writeAcc_val1 (s : State) (v : Byte) : (s.writeAcc v).val1 = s.val1 := rfl
@[simp] theorem State.writeAcc_val2 (s : State) (v : Byte) : (s.writeAcc v).val2 = s.val2 := rfl
@[simp] theorem State.writeAcc_res (s : State) (v : Byte) : (s.writeAcc v).res = s.res := rfl
@[simp] theorem State.writeAcc_submark (s : State) (v : Byte) : (s.writeAcc v).submark = s.submark := rfl
@[simp] theorem State.writeAcc_mem (s : State) (v : Byte) : (s.writeAcc v).mem = s.mem := rfl
@[simp] theorem State.writeAcc_q (s : State) (v : Byte) : (s.writeAcc v).q = s.q := rfl
@[simp] theorem State.writeAcc_savedQ (s : State) (v : Byte) : (s.writeAcc v).savedQ = s.savedQ := rfl
@[simp] theorem State.writeAcc_ioPending (s : State) (v : Byte) : (s.writeAcc v).ioPending = s.ioPending := rfl
@[simp] theorem State.writeAcc_ioVal (s : State) (v : Byte) : (s.writeAcc v).ioVal = s.ioVal := rfl
@[simp] theorem State.writeAcc_ioAck (s : State) (v : Byte) : (s.writeAcc v).ioAck = s.ioAck := rfl
@[simp] theorem State.writeAcc_run (s : State) (v : Byte) : (s.writeAcc v).run = s.run := rfl
@[simp] theorem State.writeAcc_events (s : State) (v : Byte) : (s.writeAcc v).events = s.events := rfl
@[simp] theorem State.writeAcc_hz (s : State) (v : Byte) : (s.writeAcc v).hz = s.hz := rfl
@[simp] theorem State.writeAcc_device (s : State) (v : Byte) : (s.writeAcc v).device = s.device := rfl

@[simp] theorem State.writeCir_mode (s : State) (c : Code) : (s.writeCir c).mode = s.mode := rfl
@[simp] theorem State.writeCir_pc (s : State) (c : Code) : (s.writeCir c).pc = s.pc := rfl
@[simp] theorem State.writeCir_mar (s : State) (c : Code) : (s.writeCir c).mar = s.mar := rfl
@[simp] theorem State.writeCir_mdr (s : State) (c : Code) : (s.writeCir c).mdr = s.mdr := rfl
@[simp] theorem State.writeCir_acc (s : State) (c : Code) : (s.writeCir c).acc = s.acc := rfl
@[simp] theorem State.writeCir_cir (s : State) (c : Code) : (s.writeCir c).cir = c := rfl
@[simp] theorem State.writeCir_status (s : State) (c : Code) : (s.writeCir c).status = s.status := rfl
@[simp] theorem State.writeCir_abus (s : State) (c : Code) : (s.writeCir c).abus = s.abus := rfl
@[simp] theorem State.writeCir_dbus (s : State) (c : Code) : (s.writeCir c).dbus = s.dbus := rfl
@[simp] theorem State.writeCir_iobus (s : State) (c : Code) : (s.writeCir c).iobus = s.iobus := rfl
@[simp] theorem State.writeCir_ctl (s : State) (c : Code) : (s.writeCir c).ctl = s.ctl := rfl
@[simp] theorem State.writeCir_val1 (s : State) (c : Code) : (s.writeCir c).val1 = s.val1 := rfl
@[simp] theorem State.writeCir_val2 (s : State) (c : Code) : (s.writeCir c).val2 = s.val2 := rfl
@[simp] theorem State.writeCir_res (s : State) (c : Code) : (s.writeCir c).res = s.res := rfl
@[simp] theorem State.writeCir_submark (s : State) (c : Code) : (s.writeCir c).submark = s.submark := rfl
@[simp] theorem State.writeCir_mem (s : State) (c : Code) : (s.writeCir c).mem = s.mem := rfl
@[simp] theorem State.writeCir_q (s : State) (c : Code) : (s.writeCir c).q = s.q := rfl
@[simp] theorem State.writeCir_savedQ (s : State) (c : Code) : (s.writeCir c).savedQ = s.savedQ := rfl
@[simp] theorem State.writeCir_ioPending (s : State) (c : Code) : (s.writeCir c).ioPending = s.ioPending := rfl
@[simp] theorem State.writeCir_ioVal (s : State) (c : Code) : (s.writeCir c).ioVal = s.ioVal := rfl
@[simp] theorem State.writeCir_ioAck (s : State) (c : Code) : (s.writeCir c).ioAck = s.ioAck := rfl
@[simp] theorem State.writeCir_run (s : State) (c : Code) : (s.writeCir c).run = s.run := rfl
@[simp] theorem State.writeCir_events (s : State) (c : Code) : (s.writeCir c).events = s.events := rfl
@[simp] theorem State.writeCir_hz (s : State) (c : Code) : (s.writeCir c).hz = s.hz := rfl
@[simp] theorem State.writeCir_device (s : State) (c : Code) : (s.writeCir c).device = s.device := rfl

@[simp] theorem State.driveAbus_mode (s : State) (v : Addr) : (s.driveAbus v).mode = s.mode := rfl
@[simp] theorem State.driveAbus_pc (s : State) (v : Addr) : (s.driveAbus v).pc = s.pc := rfl
@[simp] theorem State.driveAbus_mar (s : State) (v : Addr) : (s.driveAbus v).mar = s.mar := rfl
@[simp] theorem State.driveAbus_mdr (s : State) (v : Addr) : (s.driveAbus v).mdr = s.mdr := rfl
@[simp] theorem State.driveAbus_acc (s : State) (v : Addr) : (s.driveAbus v).acc = s.acc := rfl
@[simp] theorem State.driveAbus_cir (s : State) (v : Addr) : (s.driveAbus v).cir = s.cir := rfl
@[simp] theorem State.driveAbus_status (s : State) (v : Addr) : (s.driveAbus v).status = s.status := rfl
@[simp] theorem State.driveAbus_abus (s : State) (v : Addr) : (s.driveAbus v).abus = fitTo s.mode v := rfl
@[simp] theorem State.driveAbus_dbus (s : State) (v : Addr) : (s.driveAbus v).dbus = s.dbus := rfl
@[simp] theorem State.driveAbus_iobus (s : State) (v : Addr) : (s.driveAbus v).iobus = s.iobus := rfl
@[simp] theorem State.driveAbus_ctl (s : State) (v : Addr) : (s.driveAbus v).ctl = s.ctl := rfl
@[simp] theorem State.driveAbus_val1 (s : State) (v : Addr) : (s.driveAbus v).val1 = s.val1 := rfl
@[simp] theorem State.driveAbus_val2 (s : State) (v : Addr) : (s.driveAbus v).val2 = s.val2 := rfl
@[simp] theorem State.driveAbus_res (s : State) (v : Addr) : (s.driveAbus v).res = s.res := rfl
@[simp] theorem State.driveAbus_submark (s : State) (v : Addr) : (s.driveAbus v).submark = s.submark := rfl
@[simp] theorem State.driveAbus_mem (s : State) (v : Addr) : (s.driveAbus v).mem = s.mem := rfl
@[simp] theorem State.driveAbus_q (s : State) (v : Addr) : (s.driveAbus v).q = s.q := rfl
@[simp] theorem State.driveAbus_savedQ (s : State) (v : Addr) : (s.driveAbus v).savedQ = s.savedQ := rfl
@[simp] theorem State.driveAbus_ioPending (s : State) (v : Addr) : (s.driveAbus v).ioPending = s.ioPending := rfl
@[simp] theorem State.driveAbus_ioVal (s : State) (v : Addr) : (s.driveAbus v).ioVal = s.ioVal := rfl
@[simp] theorem State.driveAbus_ioAck (s : State) (v : Addr) : (s.driveAbus v).ioAck = s.ioAck := rfl
@[simp] theorem State.driveAbus_run (s : State) (v : Addr) : (s.driveAbus v).run = s.run := rfl
@[simp] theorem State.driveAbus_events (s : State) (v : Addr) : (s.driveAbus v).events = s.events := rfl
@[simp] theorem State.driveAbus_hz (s : State) (v : Addr) : (s.driveAbus v).hz = s.hz := rfl
@[simp] theorem State.driveAbus_device (s : State) (v : Addr) : (s.driveAbus v).device = s.device := rfl

@[simp] theorem State.driveDbus_mode (s : State) (v : Byte) : (s.driveDbus v).mode = s.mode := rfl
@[simp] theorem State.driveDbus_pc (s : State) (v : Byte) : (s.driveDbus v).pc = s.pc := rfl
@[simp] theorem State.driveDbus_mar (s : State) (v : Byte) : (s.driveDbus v).mar = s.mar := rfl
@[simp] theorem State.driveDbus_mdr (s : State) (v : Byte) : (s.driveDbus v).mdr = s.mdr := rfl
@[simp] theorem State.driveDbus_acc (s : State) (v : Byte) : (s.driveDbus v).acc = s.acc := rfl
@[simp] theorem State.driveDbus_cir (s : State) (v : Byte) : (s.driveDbus v).cir = s.cir := rfl
@[simp] theorem State.driveDbus_status (s : State) (v : Byte) : (s.driveDbus v).status = s.status := rfl
@[simp] theorem State.driveDbus_abus (s : State) (v : Byte) : (s.driveDbus v).abus = s.abus := rfl
@[simp] theorem State.driveDbus_dbus (s : State) (v : Byte) : (s.driveDbus v).dbus = v := rfl
@[simp] theorem State.driveDbus_iobus (s : State) (v : Byte) : (s.driveDbus v).iobus = s.iobus := rfl
@[simp] theorem State.driveDbus_ctl (s : State) (v : Byte) : (s.driveDbus v).ctl = s.ctl := rfl
@[simp] theorem State.driveDbus_val1 (s : State) (v : Byte) : (s.driveDbus v).val1 = s.val1 := rfl
@[simp] theorem State.driveDbus_val2 (s : State) (v : Byte) : (s.driveDbus v).val2 = s.val2 := rfl
@[simp] theorem State.driveDbus_res (s : State) (v : Byte) : (s.driveDbus v).res = s.res := rfl
@[simp] theorem State.driveDbus_submark (s : State) (v : Byte) : (s.driveDbus v).submark = s.submark := rfl
@[simp] theorem State.driveDbus_mem (s : State) (v : Byte) : (s.driveDbus v).mem = s.mem := rfl
@[simp] theorem State.driveDbus_q (s : State) (v : Byte) : (s.driveDbus v).q = s.q := rfl
@[simp] theorem State.driveDbus_savedQ (s : State) (v : Byte) : (s.driveDbus v).savedQ = s.savedQ := rfl
@[simp] theorem State.driveDbus_ioPending (s : State) (v : Byte) : (s.driveDbus v).ioPending = s.ioPending := rfl
@[simp] theorem State.driveDbus_ioVal (s : State) (v : Byte) : (s.driveDbus v).ioVal = s.ioVal := rfl
@[simp] theorem State.driveDbus_ioAck (s : State) (v : Byte) : (s.driveDbus v).ioAck = s.ioAck := rfl
@[simp] theorem State.driveDbus_run (s : State) (v : Byte) : (s.driveDbus v).run = s.run := rfl
@[simp] theorem State.driveDbus_events (s : State) (v : Byte) : (s.driveDbus v).events = s.events := rfl
@[simp] theorem State.driveDbus_hz (s : State) (v : Byte) : (s.driveDbus v).hz = s.hz := rfl
@[simp] theorem State.driveDbus_device (s : State) (v : Byte) : (s.driveDbus v).device = s.device := rfl

@[simp] theorem State.driveIobus_mode (s : State) (v : Byte) : (s.driveIobus v).mode = s.mode := rfl
@[simp] theorem State.driveIobus_pc (s : State) (v : Byte) : (s.driveIobus v).pc = s.pc := rfl
@[simp] theorem State.driveIobus_mar (s : State) (v : Byte) : (s.driveIobus v).mar = s.mar := rfl
@[simp] theorem State.driveIobus_mdr (s : State) (v : Byte) : (s.driveIobus v).mdr = s.mdr := rfl
@[simp] theorem State.driveIobus_acc (s : State) (v : Byte) : (s.driveIobus v).acc = s.acc := rfl
@[simp] theorem State.driveIobus_cir (s : State) (v : Byte) : (s.driveIobus v).cir = s.cir := rfl
@[simp] theorem State.driveIobus_status (s : State) (v : Byte) : (s.driveIobus v).status = s.status := rfl
@[simp] theorem State.driveIobus_abus (s : State) (v : Byte) : (s.driveIobus v).abus = s.abus := rfl
@[simp] theorem State.driveIobus_dbus (s : State) (v : Byte) : (s.driveIobus v).dbus = s.dbus := rfl
@[simp] theorem State.driveIobus_iobus (s : State) (v : Byte) : (s.driveIobus v).iobus = v := rfl
@[simp] theorem State.driveIobus_ctl (s : State) (v : Byte) : (s.driveIobus v).ctl = s.ctl := rfl
@[simp] theorem State.driveIobus_val1 (s : State) (v : Byte) : (s.driveIobus v).val1 = s.val1 := rfl
@[simp] theorem State.driveIobus_val2 (s : State) (v : Byte) : (s.driveIobus v).val2 = s.val2 := rfl
@[simp] theorem State.driveIobus_res (s : State) (v : Byte) : (s.driveIobus v).res = s.res := rfl
@[simp] theorem State.driveIobus_submark (s : State) (v : Byte) : (s.driveIobus v).submark = s.submark := rfl
@[simp] theorem State.driveIobus_mem (s : State) (v : Byte) : (s.driveIobus v).mem = s.mem := rfl
@[simp] theorem State.driveIobus_q (s : State) (v : Byte) : (s.driveIobus v).q = s.q := rfl
@[simp] theorem State.driveIobus_savedQ (s : State) (v : Byte) : (s.driveIobus v).savedQ = s.savedQ := rfl
@[simp] theorem State.driveIobus_ioPending (s : State) (v : Byte) : (s.driveIobus v).ioPending = s.ioPending := rfl
@[simp] theorem State.driveIobus_ioVal (s : State) (v : Byte) : (s.driveIobus v).ioVal = s.ioVal := rfl
@[simp] theorem State.driveIobus_ioAck (s : State) (v : Byte) : (s.driveIobus v).ioAck = s.ioAck := rfl
@[simp] theorem State.driveIobus_run (s : State) (v : Byte) : (s.driveIobus v).run = s.run := rfl
@[simp] theorem State.driveIobus_events (s : State) (v : Byte) : (s.driveIobus v).events = s.events := rfl
@[simp] theorem State.driveIobus_hz (s : State) (v : Byte) : (s.driveIobus v).hz = s.hz := rfl
@[simp] theorem State.driveIobus_device (s : State) (v : Byte) : (s.driveIobus v).device = s.device := rfl

@[simp] theorem State.writeVal1_mode (s : State) (v : Byte) : (s.writeVal1 v).mode = s.mode := rfl
@[simp] theorem State.writeVal1_pc (s : State) (v : Byte) : (s.writeVal1 v).pc = s.pc := rfl
@[simp] theorem State.writeVal1_mar (s : State) (v : Byte) : (s.writeVal1 v).mar = s.mar := rfl
@[simp] theorem State.writeVal1_mdr (s : State) (v : Byte) : (s.writeVal1 v).mdr = s.mdr := rfl
@[simp] theorem State.writeVal1_acc (s : State) (v : Byte) : (s.writeVal1 v).acc = s.acc := rfl
@[simp] theorem State.writeVal1_cir (s : State) (v : Byte) : (s.writeVal1 v).cir = s.cir := rfl
@[simp] theorem State.writeVal1_status (s : State) (v : Byte) : (s.writeVal1 v).status = s.status := rfl
@[simp] theorem State.writeVal1_abus (s : State) (v : Byte) : (s.writeVal1 v).abus = s.abus := rfl
@[simp] theorem State.writeVal1_dbus (s : State) (v : Byte) : (s.writeVal1 v).dbus = s.dbus := rfl
@[simp] theorem State.writeVal1_iobus (s : State) (v : Byte) : (s.writeVal1 v).iobus = s.iobus := rfl
@[simp] theorem State.writeVal1_ctl (s : State) (v : Byte) : (s.writeVal1 v).ctl = s.ctl := rfl
@[simp] theorem State.writeVal1_val1 (s : State) (v : Byte) : (s.writeVal1 v).val1 = v := rfl
@[simp] theorem State.writeVal1_val2 (s : State) (v : Byte) : (s.writeVal1 v).val2 = s.val2 := rfl
@[simp] theorem State.writeVal1_res (s : State) (v : Byte) : (s.writeVal1 v).res = s.res := rfl
@[simp] theorem State.writeVal1_submark (s : State) (v : Byte) : (s.writeVal1 v).submark = s.submark := rfl
@[simp] theorem State.writeVal1_mem (s : State) (v : Byte) : (s.writeVal1 v).mem = s.mem := rfl
@[simp] theorem State.writeVal1_q (s : State) (v : Byte) : (s.writeVal1 v).q = s.q := rfl
@[simp] theorem State.writeVal1_savedQ (s : State) (v : Byte) : (s.writeVal1 v).savedQ = s.savedQ := rfl
@[simp] theorem State.writeVal1_ioPending (s : State) (v : Byte) : (s.writeVal1 v).ioPending = s.ioPending := rfl
@[simp] theorem State.writeVal1_ioVal (s : State) (v : Byte) : (s.writeVal1 v).ioVal = s.ioVal := rfl
@[simp] theorem State.writeVal1_ioAck (s : State) (v : Byte) : (s.writeVal1 v).ioAck = s.ioAck := rfl
@[simp] theorem State.writeVal1_run (s : State) (v : Byte) : (s.writeVal1 v).run = s.run := rfl
@[simp] theorem State.writeVal1_events (s : State) (v : Byte) : (s.writeVal1 v).events = s.events := rfl
@[simp] theorem State.writeVal1_hz (s : State) (v : Byte) : (s.writeVal1 v).hz = s.hz := rfl
@[simp] theorem State.writeVal1_device (s : State) (v : Byte) : (s.writeVal1 v).device = s.device := rfl

@[simp] theorem State.writeVal2_mode (s : State) (v : Byte) : (s.writeVal2 v).mode = s.mode := rfl
@[simp] theorem State.writeVal2_pc (s : State) (v : Byte) : (s.writeVal2 v).pc = s.pc := rfl
@[simp] theorem State.writeVal2_mar (s : State) (v : Byte) : (s.writeVal2 v).mar = s.mar := rfl
@[simp] theorem State.writeVal2_mdr (s : State) (v : Byte) : (s.writeVal2 v).mdr = s.mdr := rfl
@[simp] theorem State.writeVal2_acc (s : State) (v : Byte) : (s.writeVal2 v).acc = s.acc := rfl
@[simp] theorem State.writeVal2_cir (s : State) (v : Byte) : (s.writeVal2 v).cir = s.cir := rfl
@[simp] theorem State.writeVal2_status (s : State) (v : Byte) : (s.writeVal2 v).status = s.status := rfl
@[simp] theorem State.writeVal2_abus (s : State) (v : Byte) : (s.writeVal2 v).abus = s.abus := rfl
@[simp] theorem State.writeVal2_dbus (s : State) (v : Byte) : (s.writeVal2 v).dbus = s.dbus := rfl
@[simp] theorem State.writeVal2_iobus (s : State) (v : Byte) : (s.writeVal2 v).iobus = s.iobus := rfl
@[simp] theorem State.writeVal2_ctl (s : State) (v : Byte) : (s.writeVal2 v).ctl = s.ctl := rfl
@[simp] theorem State.writeVal2_val1 (s : State) (v : Byte) : (s.writeVal2 v).val1 = s.val1 := rfl
@[simp] theorem State.writeVal2_val2 (s : State) (v : Byte) : (s.writeVal2 v).val2 = v := rfl
@[simp] theorem State.writeVal2_res (s : State) (v : Byte) : (s.writeVal2 v).res = s.res := rfl
@[simp] theorem State.writeVal2_submark (s : State) (v : Byte) : (s.writeVal2 v).submark = s.submark := rfl
@[simp] theorem State.writeVal2_mem (s : State) (v : Byte) : (s.writeVal2 v).mem = s.mem := rfl
@[simp] theorem State.writeVal2_q (s : State) (v : Byte) : (s.writeVal2 v).q = s.q := rfl
@[simp] theorem State.writeVal2_savedQ (s : State) (v : Byte) : (s.writeVal2 v).savedQ = s.savedQ := rfl
@[simp] theorem State.writeVal2_ioPending (s : State) (v : Byte) : (s.writeVal2 v).ioPending = s.ioPending := rfl
@[simp] theorem State.writeVal2_ioVal (s : State) (v : Byte) : (s.writeVal2 v).ioVal = s.ioVal := rfl
@[simp] theorem State.writeVal2_ioAck (s : State) (v : Byte) : (s.writeVal2 v).ioAck = s.ioAck := rfl
@[simp] theorem State.writeVal2_run (s : State) (v : Byte) : (s.writeVal2 v).run = s.run := rfl
@[simp] theorem State.writeVal2_events (s : State) (v : Byte) : (s.writeVal2 v).events = s.events := rfl
@[simp] theorem State.writeVal2_hz (s : State) (v : Byte) : (s.writeVal2 v).hz = s.hz := rfl
@[simp] theorem State.writeVal2_device (s : State) (v : Byte) : (s.writeVal2 v).device = s.device := rfl

@[simp] theorem State.writeRes_mode (s : State) (v : Byte) : (s.writeRes v).mode = s.mode := rfl
@[simp] theorem State.writeRes_pc (s : State) (v : Byte) : (s.writeRes v).pc = s.pc := rfl
@[simp] theorem State.writeRes_mar (s : State) (v : Byte) : (s.writeRes v).mar = s.mar := rfl
@[simp] theorem State.writeRes_mdr (s : State) (v : Byte) : (s.writeRes v).mdr = s.mdr := rfl
@[simp] theorem State.writeRes_acc (s : State) (v : Byte) : (s.writeRes v).acc = s.acc := rfl
@[simp] theorem State.writeRes_cir (s : State) (v : Byte) : (s.writeRes v).cir = s.cir := rfl
@[simp] theorem State.writeRes_status (s : State) (v : Byte) : (s.writeRes v).status = s.status := rfl
@[simp] theorem State.writeRes_abus (s : State) (v : Byte) : (s.writeRes v).abus = s.abus := rfl
@[simp] theorem State.writeRes_dbus (s : State) (v : Byte) : (s.writeRes v).dbus = s.dbus := rfl
@[simp] theorem State.writeRes_iobus (s : State) (v : Byte) : (s.writeRes v).iobus = s.iobus := rfl
@[simp] theorem State.writeRes_ctl (s : State) (v : Byte) : (s.writeRes v).ctl = s.ctl := rfl
@[simp] theorem State.writeRes_val1 (s : State) (v : Byte) : (s.writeRes v).val1 = s.val1 := rfl
@[simp] theorem State.writeRes_val2 (s : State) (v : Byte) : (s.writeRes v).val2 = s.val2 := rfl
@[simp] theorem State.writeRes_res (s : State) (v : Byte) : (s.writeRes v).res = v := rfl
@[simp] theorem State.writeRes_submark (s : State) (v : Byte) : (s.writeRes v).submark = s.submark := rfl
@[simp] theorem State.writeRes_mem (s : State) (v : Byte) : (s.writeRes v).mem = s.mem := rfl
@[simp] theorem State.writeRes_q (s : State) (v : Byte) : (s.writeRes v).q = s.q := rfl
@[simp] theorem State.writeRes_savedQ (s : State) (v : Byte) : (s.writeRes v).savedQ = s.savedQ := rfl
@[simp] theorem State.writeRes_ioPending (s : State) (v : Byte) : (s.writeRes v).ioPending = s.ioPending := rfl
@[simp] theorem State.writeRes_ioVal (s : State) (v : Byte) : (s.writeRes v).ioVal = s.ioVal := rfl
@[simp] theorem State.writeRes_ioAck (s : State) (v : Byte) : (s.writeRes v).ioAck = s.ioAck := rfl
@[simp] theorem State.writeRes_run (s : State) (v : Byte) : (s.writeRes v).run = s.run := rfl
@[simp] theorem State.writeRes_events (s : State) (v : Byte) : (s.writeRes v).events = s.events := rfl
@[simp] theorem State.writeRes_hz (s : State) (v : Byte) : (s.writeRes v).hz = s.hz := rfl
@[simp] theorem State.writeRes_device (s : State) (v : Byte) : (s.writeRes v).device = s.device := rfl

@[simp] theorem State.writeSubmark_mode (s : State) (b : Bool) : (s.writeSubmark b).mode = s.mode := rfl
@[simp] theorem State.writeSubmark_pc (s : State) (b : Bool) : (s.writeSubmark b).pc = s.pc := rfl
@[simp] theorem State.writeSubmark_mar (s : State) (b : Bool) : (s.writeSubmark b).mar = s.mar := rfl
@[simp] theorem State.writeSubmark_mdr (s : State) (b : Bool) : (s.writeSubmark b).mdr = s.mdr := rfl
@[simp] theorem State.writeSubmark_acc (s : State) (b : Bool) : (s.writeSubmark b).acc = s.acc := rfl
@[simp] theorem State.writeSubmark_cir (s : State) (b : Bool) : (s.writeSubmark b).cir = s.cir := rfl
@[simp] theorem State.writeSubmark_status (s : State) (b : Bool) : (s.writeSubmark b).status = s.status := rfl
@[simp] theorem State.writeSubmark_abus (s : State) (b : Bool) : (s.writeSubmark b).abus = s.abus := rfl
@[simp] theorem State.writeSubmark_dbus (s : State) (b : Bool) : (s.writeSubmark b).dbus = s.dbus := rfl
@[simp] theorem State.writeSubmark_iobus (s : State) (b : Bool) : (s.writeSubmark b).iobus = s.iobus := rfl
@[simp] theorem State.writeSubmark_ctl (s : State) (b : Bool) : (s.writeSubmark b).ctl = s.ctl := rfl
@[simp] theorem State.writeSubmark_val1 (s : State) (b : Bool) : (s.writeSubmark b).val1 = s.val1 := rfl
@[simp] theorem State.writeSubmark_val2 (s : State) (b : Bool) : (s.writeSubmark b).val2 = s.val2 := rfl
@[simp] theorem State.writeSubmark_res (s : State) (b : Bool) : (s.writeSubmark b).res = s.res := rfl
@[simp] theorem State.writeSubmark_submark (s : State) (b : Bool) : (s.writeSubmark b).submark = b := rfl
@[simp] theorem State.writeSubmark_mem (s : State) (b : Bool) : (s.writeSubmark b).mem = s.mem := rfl
@[simp] theorem State.writeSubmark_q (s : State) (b : Bool) : (s.writeSubmark b).q = s.q := rfl
@[simp] theorem State.writeSubmark_savedQ (s : State) (b : Bool) : (s.writeSubmark b).savedQ = s.savedQ := rfl
@[simp] theorem State.writeSubmark_ioPending (s : State) (b : Bool) : (s.writeSubmark b).ioPending = s.ioPending := rfl
@[simp] theorem State.writeSubmark_ioVal (s : State) (b : Bool) : (s.writeSubmark b).ioVal = s.ioVal := rfl
@[simp] theorem State.writeSubmark_ioAck (s : State) (b : Bool) : (s.writeSubmark b).ioAck = s.ioAck := rfl
@[simp] theorem State.writeSubmark_run (s : State) (b : Bool) : (s.writeSubmark b).run = s.run := rfl
@[simp] theorem State.writeSubmark_events (s : State) (b : Bool) : (s.writeSubmark b).events = s.events := rfl
@[simp] theorem State.writeSubmark_hz (s : State) (b : Bool) : (s.writeSubmark b).hz = s.hz := rfl
@[simp] theorem State.writeSubmark_device (s : State) (b : Bool) : (s.writeSubmark b).device = s.device := rfl

@[simp] theorem State.setReq_mode (s : State) (b : Bool) : (s.setReq b).mode = s.mode := rfl
@[simp] theorem State.setReq_pc (s : State) (b : Bool) : (s.setReq b).pc = s.pc := rfl
@[simp] theorem State.setReq_mar (s : State) (b : Bool) : (s.setReq b).mar = s.mar := rfl
@[simp] theorem State.setReq_mdr (s : State) (b : Bool) : (s.setReq b).mdr = s.mdr := rfl
@[simp] theorem State.setReq_acc (s : State) (b : Bool) : (s.setReq b).acc = s.acc := rfl
@[simp] theorem State.setReq_cir (s : State) (b : Bool) : (s.setReq b).cir = s.cir := rfl
@[simp] theorem State.setReq_status (s : State) (b : Bool) : (s.setReq b).status = s.status := rfl
@[simp] theorem State.setReq_abus (s : State) (b : Bool) : (s.setReq b).abus = s.abus := rfl
@[simp] theorem State.setReq_dbus (s : State) (b : Bool) : (s.setReq b).dbus = s.dbus := rfl
@[simp] theorem State.setReq_iobus (s : State) (b : Bool) : (s.setReq b).iobus = s.iobus := rfl
@[simp] theorem State.setReq_ctl (s : State) (b : Bool) : (s.setReq b).ctl = { s.ctl with req := b } := rfl
@[simp] theorem State.setReq_val1 (s : State) (b : Bool) : (s.setReq b).val1 = s.val1 := rfl
@[simp] theorem State.setReq_val2 (s : State) (b : Bool) : (s.setReq b).val2 = s.val2 := rfl
@[simp] theorem State.setReq_res (s : State) (b : Bool) : (s.setReq b).res = s.res := rfl
@[simp] theorem State.setReq_submark (s : State) (b : Bool) : (s.setReq b).submark = s.submark := rfl
@[simp] theorem State.setReq_mem (s : State) (b : Bool) : (s.setReq b).mem = s.mem := rfl
@[simp] theorem State.setReq_q (s : State) (b : Bool) : (s.setReq b).q = s.q := rfl
@[simp] theorem State.setReq_savedQ (s : State) (b : Bool) : (s.setReq b).savedQ = s.savedQ := rfl
@[simp] theorem State.setReq_ioPending (s : State) (b : Bool) : (s.setReq b).ioPending = s.ioPending := rfl
@[simp] theorem State.setReq_ioVal (s : State) (b : Bool) : (s.setReq b).ioVal = s.ioVal := rfl
@[simp] theorem State.setReq_ioAck (s : State) (b : Bool) : (s.setReq b).ioAck = s.ioAck := rfl
@[simp] theorem State.setReq_run (s : State) (b : Bool) : (s.setReq b).run = s.run := rfl
@[simp] theorem State.setReq_events (s : State) (b : Bool) : (s.setReq b).events = s.events := rfl
@[simp] theorem State.setReq_hz (s : State) (b : Bool) : (s.setReq b).hz = s.hz := rfl
@[simp] theorem State.setReq_device (s : State) (b : Bool) : (s.setReq b).device = s.device := rfl

@[simp] theorem State.setGnt_mode (s : State) (b : Bool) : (s.setGnt b).mode = s.mode := rfl
@[simp] theorem State.setGnt_pc (s : State) (b : Bool) : (s.setGnt b).pc = s.pc := rfl
@[simp] theorem State.setGnt_mar (s : State) (b : Bool) : (s.setGnt b).mar = s.mar := rfl
@[simp] theorem State.setGnt_mdr (s : State) (b : Bool) : (s.setGnt b).mdr = s.mdr := rfl
@[simp] theorem State.setGnt_acc (s : State) (b : Bool) : (s.setGnt b).acc = s.acc := rfl
@[simp] theorem State.setGnt_cir (s : State) (b : Bool) : (s.setGnt b).cir = s.cir := rfl
@[simp] theorem State.setGnt_status (s : State) (b : Bool) : (s.setGnt b).status = s.status := rfl
@[simp] theorem State.setGnt_abus (s : State) (b : Bool) : (s.setGnt b).abus = s.abus := rfl
@[simp] theorem State.setGnt_dbus (s : State) (b : Bool) : (s.setGnt b).dbus = s.dbus := rfl
@[simp] theorem State.setGnt_iobus (s : State) (b : Bool) : (s.setGnt b).iobus = s.iobus := rfl
@[simp] theorem State.setGnt_ctl (s : State) (b : Bool) : (s.setGnt b).ctl = { s.ctl with gnt := b } := rfl
@[simp] theorem State.setGnt_val1 (s : State) (b : Bool) : (s.setGnt b).val1 = s.val1 := rfl
@[simp] theorem State.setGnt_val2 (s : State) (b : Bool) : (s.setGnt b).val2 = s.val2 := rfl
@[simp] theorem State.setGnt_res (s : State) (b : Bool) : (s.setGnt b).res = s.res := rfl
@[simp] theorem State.setGnt_submark (s : State) (b : Bool) : (s.setGnt b).submark = s.submark := rfl
@[simp] theorem State.setGnt_mem (s : State) (b : Bool) : (s.setGnt b).mem = s.mem := rfl
@[simp] theorem State.setGnt_q (s : State) (b : Bool) : (s.setGnt b).q = s.q := rfl
@[simp] theorem State.setGnt_savedQ (s : State) (b : Bool) : (s.setGnt b).savedQ = s.savedQ := rfl
@[simp] theorem State.setGnt_ioPending (s : State) (b : Bool) : (s.setGnt b).ioPending = s.ioPending := rfl
@[simp] theorem State.setGnt_ioVal (s : State) (b : Bool) : (s.setGnt b).ioVal = s.ioVal := rfl
@[simp] theorem State.setGnt_ioAck (s : State) (b : Bool) : (s.setGnt b).ioAck = s.ioAck := rfl
@[simp] theorem State.setGnt_run (s : State) (b : Bool) : (s.setGnt b).run = s.run := rfl
@[simp] theorem State.setGnt_events (s : State) (b : Bool) : (s.setGnt b).events = s.events := rfl
@[simp] theorem State.setGnt_hz (s : State) (b : Bool) : (s.setGnt b).hz = s.hz := rfl
@[simp] theorem State.setGnt_device (s : State) (b : Bool) : (s.setGnt b).device = s.device := rfl

@[simp] theorem State.setRd_mode (s : State) (b : Bool) : (s.setRd b).mode = s.mode := rfl
@[simp] theorem State.setRd_pc (s : State) (b : Bool) : (s.setRd b).pc = s.pc := rfl
@[simp] theorem State.setRd_mar (s : State) (b : Bool) : (s.setRd b).mar = s.mar := rfl
@[simp] theorem State.setRd_mdr (s : State) (b : Bool) : (s.setRd b).mdr = s.mdr := rfl
@[simp] theorem State.setRd_acc (s : State) (b : Bool) : (s.setRd b).acc = s.acc := rfl
@[simp] theorem State.setRd_cir (s : State) (b : Bool) : (s.setRd b).cir = s.cir := rfl
@[simp] theorem State.setRd_status (s : State) (b : Bool) : (s.setRd b).status = s.status := rfl
@[simp] theorem State.setRd_abus (s : State) (b : Bool) : (s.setRd b).abus = s.abus := rfl
@[simp] theorem State.setRd_dbus (s : State) (b : Bool) : (s.setRd b).dbus = s.dbus := rfl
@[simp] theorem State.setRd_iobus (s : State) (b : Bool) : (s.setRd b).iobus = s.iobus := rfl
@[simp] theorem State.setRd_ctl (s : State) (b : Bool) : (s.setRd b).ctl = { s.ctl with rd := b } := rfl
@[simp] theorem State.setRd_val1 (s : State) (b : Bool) : (s.setRd b).val1 = s.val1 := rfl
@[simp] theorem State.setRd_val2 (s : State) (b : Bool) : (s.setRd b).val2 = s.val2 := rfl
@[simp] theorem State.setRd_res (s : State) (b : Bool) : (s.setRd b).res = s.res := rfl
@[simp] theorem State.setRd_submark (s : State) (b : Bool) : (s.setRd b).submark = s.submark := rfl
@[simp] theorem State.setRd_mem (s : State) (b : Bool) : (s.setRd b).mem = s.mem := rfl
@[simp] theorem State.setRd_q (s : State) (b : Bool) : (s.setRd b).q = s.q := rfl
@[simp] theorem State.setRd_savedQ (s : State) (b : Bool) : (s.setRd b).savedQ = s.savedQ := rfl
@[simp] theorem State.setRd_ioPending (s : State) (b : Bool) : (s.setRd b).ioPending = s.ioPending := rfl
@[simp] theorem State.setRd_ioVal (s : State) (b : Bool) : (s.setRd b).ioVal = s.ioVal := rfl
@[simp] theorem State.setRd_ioAck (s : State) (b : Bool) : (s.setRd b).ioAck = s.ioAck := rfl
@[simp] theorem State.setRd_run (s : State) (b : Bool) : (s.setRd b).run = s.run := rfl
@[simp] theorem State.setRd_events (s : State) (b : Bool) : (s.setRd b).events = s.events := rfl
@[simp] theorem State.setRd_hz (s : State) (b : Bool) : (s.setRd b).hz = s.hz := rfl
@[simp] theorem State.setRd_device (s : State) (b : Bool) : (s.setRd b).device = s.device := rfl

@[simp] theorem State.setWr_mode (s : State) (b : Bool) : (s.setWr b).mode = s.mode := rfl
@[simp] theorem State.setWr_pc (s : State) (b : Bool) : (s.setWr b).pc = s.pc := rfl
@[simp] theorem State.setWr_mar (s : State) (b : Bool) : (s.setWr b).mar = s.mar := rfl
@[simp] theorem State.setWr_mdr (s : State) (b : Bool) : (s.setWr b).mdr = s.mdr := rfl
@[simp] theorem State.setWr_acc (s : State) (b : Bool) : (s.setWr b).acc = s.acc := rfl
@[simp] theorem State.setWr_cir (s : State) (b : Bool) : (s.setWr b).cir = s.cir := rfl
@[simp] theorem State.setWr_status (s : State) (b : Bool) : (s.setWr b).status = s.status := rfl
@[simp] theorem State.setWr_abus (s : State) (b : Bool) : (s.setWr b).abus = s.abus := rfl
@[simp] theorem State.setWr_dbus (s : State) (b : Bool) : (s.setWr b).dbus = s.dbus := rfl
@[simp] theorem State.setWr_iobus (s : State) (b : Bool) : (s.setWr b).iobus = s.iobus := rfl
@[simp] theorem State.setWr_ctl (s : State) (b : Bool) : (s.setWr b).ctl = { s.ctl with wr := b } := rfl
@[simp] theorem State.setWr_val1 (s : State) (b : Bool) : (s.setWr b).val1 = s.val1 := rfl
@[simp] theorem State.setWr_val2 (s : State) (b : Bool) : (s.setWr b).val2 = s.val2 := rfl
@[simp] theorem State.setWr_res (s : State) (b : Bool) : (s.setWr b).res = s.res := rfl
@[simp] theorem State.setWr_submark (s : State) (b : Bool) : (s.setWr b).submark = s.submark := rfl
@[simp] theorem State.setWr_mem (s : State) (b : Bool) : (s.setWr b).mem = s.mem := rfl
@[simp] theorem State.setWr_q (s : State) (b : Bool) : (s.setWr b).q = s.q := rfl
@[simp] theorem State.setWr_savedQ (s : State) (b : Bool) : (s.setWr b).savedQ = s.savedQ := rfl
@[simp] theorem State.setWr_ioPending (s : State) (b : Bool) : (s.setWr b).ioPending = s.ioPending := rfl
@[simp] theorem State.setWr_ioVal (s : State) (b : Bool) : (s.setWr b).ioVal = s.ioVal := rfl
@[simp] theorem State.setWr_ioAck (s : State) (b : Bool) : (s.setWr b).ioAck = s.ioAck := rfl
@[simp] theorem State.setWr_run (s : State) (b : Bool) : (s.setWr b).run = s.run := rfl
@[simp] theorem State.setWr_events (s : State) (b : Bool) : (s.setWr b).events = s.events := rfl
@[simp] theorem State.setWr_hz (s : State) (b : Bool) : (s.setWr b).hz = s.hz := rfl
@[simp] theorem State.setWr_device (s : State) (b : Bool) : (s.setWr b).device = s.device := rfl

@[simp] theorem State.setClk_mode (s : State) (b : Bool) : (s.setClk b).mode = s.mode := rfl
@[simp] theorem State.setClk_pc (s : State) (b : Bool) : (s.setClk b).pc = s.pc := rfl
@[simp] theorem State.setClk_mar (s : State) (b : Bool) : (s.setClk b).mar = s.mar := rfl
@[simp] theorem State.setClk_mdr (s : State) (b : Bool) : (s.setClk b).mdr = s.mdr := rfl
@[simp] theorem State.setClk_acc (s : State) (b : Bool) : (s.setClk b).acc = s.acc := rfl
@[simp] theorem State.setClk_cir (s : State) (b : Bool) : (s.setClk b).cir = s.cir := rfl
@[simp] theorem State.setClk_status (s : State) (b : Bool) : (s.setClk b).status = s.status := rfl
@[simp] theorem State.setClk_abus (s : State) (b : Bool) : (s.setClk b).abus = s.abus := rfl
@[simp] theorem State.setClk_dbus (s : State) (b : Bool) : (s.setClk b).dbus = s.dbus := rfl
@[simp] theorem State.setClk_iobus (s : State) (b : Bool) : (s.setClk b).iobus = s.iobus := rfl
@[simp] theorem State.setClk_ctl (s : State) (b : Bool) : (s.setClk b).ctl = { s.ctl with clk := b } := rfl
@[simp] theorem State.setClk_val1 (s : State) (b : Bool) : (s.setClk b).val1 = s.val1 := rfl
@[simp] theorem State.setClk_val2 (s : State) (b : Bool) : (s.setClk b).val2 = s.val2 := rfl
@[simp] theorem State.setClk_res (s : State) (b : Bool) : (s.setClk b).res = s.res := rfl
@[simp] theorem State.setClk_submark (s : State) (b : Bool) : (s.setClk b).submark = s.submark := rfl
@[simp] theorem State.setClk_mem (s : State) (b : Bool) : (s.setClk b).mem = s.mem := rfl
@[simp] theorem State.setClk_q (s : State) (b : Bool) : (s.setClk b).q = s.q := rfl
@[simp] theorem State.setClk_savedQ (s : State) (b : Bool) : (s.setClk b).savedQ = s.savedQ := rfl
@[simp] theorem State.setClk_ioPending (s : State) (b : Bool) : (s.setClk b).ioPending = s.ioPending := rfl
@[simp] theorem State.setClk_ioVal (s : State) (b : Bool) : (s.setClk b).ioVal = s.ioVal := rfl
@[simp] theorem State.setClk_ioAck (s : State) (b : Bool) : (s.setClk b).ioAck = s.ioAck := rfl
@[simp] theorem State.setClk_run (s : State) (b : Bool) : (s.setClk b).run = s.run := rfl
@[simp] theorem State.setClk_events (s : State) (b : Bool) : (s.setClk b).events = s.events := rfl
@[simp] theorem State.setClk_hz (s : State) (b : Bool) : (s.setClk b).hz = s.hz := rfl
@[simp] theorem State.setClk_device (s : State) (b : Bool) : (s.setClk b).device = s.device := rfl

@[simp] theorem State.setIoreq_mode (s : State) (b : Bool) : (s.setIoreq b).mode = s.mode := rfl
@[simp] theorem State.setIoreq_pc (s : State) (b : Bool) : (s.setIoreq b).pc = s.pc := rfl
@[simp] theorem State.setIoreq_mar (s : State) (b : Bool) : (s.setIoreq b).mar = s.mar := rfl
@[simp] theorem State.setIoreq_mdr (s : State) (b : Bool) : (s.setIoreq b).mdr = s.mdr := rfl
@[simp] theorem State.setIoreq_acc (s : State) (b : Bool) : (s.setIoreq b).acc = s.acc := rfl
@[simp] theorem State.setIoreq_cir (s : State) (b : Bool) : (s.setIoreq b).cir = s.cir := rfl
@[simp] theorem State.setIoreq_status (s : State) (b : Bool) : (s.setIoreq b).status = s.status := rfl
@[simp] theorem State.setIoreq_abus (s : State) (b : Bool) : (s.setIoreq b).abus = s.abus := rfl
@[simp] theorem State.setIoreq_dbus (s : State) (b : Bool) : (s.setIoreq b).dbus = s.dbus := rfl
@[simp] theorem State.setIoreq_iobus (s : State) (b : Bool) : (s.setIoreq b).iobus = s.iobus := rfl
@[simp] theorem State.setIoreq_ctl (s : State) (b : Bool) : (s.setIoreq b).ctl = { s.ctl with ioreq := b } := rfl
@[simp] theorem State.setIoreq_val1 (s : State) (b : Bool) : (s.setIoreq b).val1 = s.val1 := rfl
@[simp] theorem State.setIoreq_val2 (s : State) (b : Bool) : (s.setIoreq b).val2 = s.val2 := rfl
@[simp] theorem State.setIoreq_res (s : State) (b : Bool) : (s.setIoreq b).res = s.res := rfl
@[simp] theorem State.setIoreq_submark (s : State) (b : Bool) : (s.setIoreq b).submark = s.submark := rfl
@[simp] theorem State.setIoreq_mem (s : State) (b : Bool) : (s.setIoreq b).mem = s.mem := rfl
@[simp] theorem State.setIoreq_q (s : State) (b : Bool) : (s.setIoreq b).q = s.q := rfl
@[simp] theorem State.setIoreq_savedQ (s : State) (b : Bool) : (s.setIoreq b).savedQ = s.savedQ := rfl
@[simp] theorem State.setIoreq_ioPending (s : State) (b : Bool) : (s.setIoreq b).ioPending = s.ioPending := rfl
@[simp] theorem State.setIoreq_ioVal (s : State) (b : Bool) : (s.setIoreq b).ioVal = s.ioVal := rfl
@[simp] theorem State.setIoreq_ioAck (s : State) (b : Bool) : (s.setIoreq b).ioAck = s.ioAck := rfl
@[simp] theorem State.setIoreq_run (s : State) (b : Bool) : (s.setIoreq b).run = s.run := rfl
@[simp] theorem State.setIoreq_events (s : State) (b : Bool) : (s.setIoreq b).events = s.events := rfl
@[simp] theorem State.setIoreq_hz (s : State) (b : Bool) : (s.setIoreq b).hz = s.hz := rfl
@[simp] theorem State.setIoreq_device (s : State) (b : Bool) : (s.setIoreq b).device = s.device := rfl

@[simp] theorem State.setIognt_mode (s : State) (b : Bool) : (s.setIognt b).mode = s.mode := rfl
@[simp] theorem State.setIognt_pc (s : State) (b : Bool) : (s.setIognt b).pc = s.pc := rfl
@[simp] theorem State.setIognt_mar (s : State) (b : Bool) : (s.setIognt b).mar = s.mar := rfl
@[simp] theorem State.setIognt_mdr (s : State) (b : Bool) : (s.setIognt b).mdr = s.mdr := rfl
@[simp] theorem State.setIognt_acc (s : State) (b : Bool) : (s.setIognt b).acc = s.acc := rfl
@[simp] theorem State.setIognt_cir (s : State) (b : Bool) : (s.setIognt b).cir = s.cir := rfl
@[simp] theorem State.setIognt_status (s : State) (b : Bool) : (s.setIognt b).status = s.status := rfl
@[simp] theorem State.setIognt_abus (s : State) (b : Bool) : (s.setIognt b).abus = s.abus := rfl
@[simp] theorem State.setIognt_dbus (s : State) (b : Bool) : (s.setIognt b).dbus = s.dbus := rfl
@[simp] theorem State.setIognt_iobus (s : State) (b : Bool) : (s.setIognt b).iobus = s.iobus := rfl
@[simp] theorem State.setIognt_ctl (s : State) (b : Bool) : (s.setIognt b).ctl = { s.ctl with iognt := b } := rfl
@[simp] theorem State.setIognt_val1 (s : State) (b : Bool) : (s.setIognt b).val1 = s.val1 := rfl
@[simp] theorem State.setIognt_val2 (s : State) (b : Bool) : (s.setIognt b).val2 = s.val2 := rfl
@[simp] theorem State.setIognt_res (s : State) (b : Bool) : (s.setIognt b).res = s.res := rfl
@[simp] theorem State.setIognt_submark (s : State) (b : Bool) : (s.setIognt b).submark = s.submark := rfl
@[simp] theorem State.setIognt_mem (s : State) (b : Bool) : (s.setIognt b).mem = s.mem := rfl
@[simp] theorem State.setIognt_q (s : State) (b : Bool) : (s.setIognt b).q = s.q := rfl
@[simp] theorem State.setIognt_savedQ (s : State) (b : Bool) : (s.setIognt b).savedQ = s.savedQ := rfl
@[simp] theorem State.setIognt_ioPending (s : State) (b : Bool) : (s.setIognt b).ioPending = s.ioPending := rfl
@[simp] theorem State.setIognt_ioVal (s : State) (b : Bool) : (s.setIognt b).ioVal = s.ioVal := rfl
@[simp] theorem State.setIognt_ioAck (s : State) (b : Bool) : (s.setIognt b).ioAck = s.ioAck := rfl
@[simp] theorem State.setIognt_run (s : State) (b : Bool) : (s.setIognt b).run = s.run := rfl
@[simp] theorem State.setIognt_events (s : State) (b : Bool) : (s.setIognt b).events = s.events := rfl
@[simp] theorem State.setIognt_hz (s : State) (b : Bool) : (s.setIognt b).hz = s.hz := rfl
@[simp] theorem State.setIognt_device (s : State) (b : Bool) : (s.setIognt b).device = s.device := rfl

@[simp] theorem State.append_mode (s : State) (ms : List Micro) : (s.append ms).mode = s.mode := rfl
@[simp] theorem State.append_pc (s : State) (ms : List Micro) : (s.append ms).pc = s.pc := rfl
@[simp] theorem State.append_mar (s : State) (ms : List Micro) : (s.append ms).mar = s.mar := rfl
@[simp] theorem State.append_mdr (s : State) (ms : List Micro) : (s.append ms).mdr = s.mdr := rfl
@[simp] theorem State.append_acc (s : State) (ms : List Micro) : (s.append ms).acc = s.acc := rfl
@[simp] theorem State.append_cir (s : State) (ms : List Micro) : (s.append ms).cir = s.cir := rfl
@[simp] theorem State.append_status (s : State) (ms : List Micro) : (s.append ms).status = s.status := rfl
@[simp] theorem State.append_abus (s : State) (ms : List Micro) : (s.append ms).abus = s.abus := rfl
@[simp] theorem State.append_dbus (s : State) (ms : List Micro) : (s.append ms).dbus = s.dbus := rfl
@[simp] theorem State.append_iobus (s : State) (ms : List Micro) : (s.append ms).iobus = s.iobus := rfl
@[simp] theorem State.append_ctl (s : State) (ms : List Micro) : (s.append ms).ctl = s.ctl := rfl
@[simp] theorem State.append_val1 (s : State) (ms : List Micro) : (s.append ms).val1 = s.val1 := rfl
@[simp] theorem State.append_val2 (s : State) (ms : List Micro) : (s.append ms).val2 = s.val2 := rfl
@[simp] theorem State.append_res (s : State) (ms : List Micro) : (s.append ms).res = s.res := rfl
@[simp] theorem State.append_submark (s : State) (ms : List Micro) : (s.append ms).submark = s.submark := rfl
@[simp] theorem State.append_mem (s : State) (ms : List Micro) : (s.append ms).mem = s.mem := rfl
@[simp] theorem State.append_q (s : State) (ms : List Micro) : (s.append ms).q = s.q ++ ms := rfl
@[simp] theorem State.append_savedQ (s : State) (ms : List Micro) : (s.append ms).savedQ = s.savedQ := rfl
@[simp] theorem State.append_ioPending (s : State) (ms : List Micro) : (s.append ms).ioPending = s.ioPending := rfl
@[simp] theorem State.append_ioVal (s : State) (ms : List Micro) : (s.append ms).ioVal = s.ioVal := rfl
@[simp] theorem State.append_ioAck (s : State) (ms : List Micro) : (s.append ms).ioAck = s.ioAck := rfl
@[simp] theorem State.append_run (s : State) (ms : List Micro) : (s.append ms).run = s.run := rfl
@[simp] theorem State.append_events (s : State) (ms : List Micro) : (s.append ms).events = s.events := rfl
@[simp] theorem State.append_hz (s : State) (ms : List Micro) : (s.append ms).hz = s.hz := rfl
@[simp] theorem State.append_device (s : State) (ms : List Micro) : (s.append ms).device = s.device := rfl

@[simp] theorem State.setQ_mode (s : State) (ms : List Micro) : (s.setQ ms).mode = s.mode := rfl
@[simp] theorem State.setQ_pc (s : State) (ms : List Micro) : (s.setQ ms).pc = s.pc := rfl
@[simp] theorem State.setQ_mar (s : State) (ms : List Micro) : (s.setQ ms).mar = s.mar := rfl
@[simp] theorem State.setQ_mdr (s : State) (ms : List Micro) : (s.setQ ms).mdr = s.mdr := rfl
@[simp] theorem State.setQ_acc (s : State) (ms : List Micro) : (s.setQ ms).acc = s.acc := rfl
@[simp] theorem State.setQ_cir (s : State) (ms : List Micro) : (s.setQ ms).cir = s.cir := rfl
@[simp] theorem State.setQ_status (s : State) (ms : List Micro) : (s.setQ ms).status = s.status := rfl
@[simp] theorem State.setQ_abus (s : State) (ms : List Micro) : (s.setQ ms).abus = s.abus := rfl
@[simp] theorem State.setQ_dbus (s : State) (ms : List Micro) : (s.setQ ms).dbus = s.dbus := rfl
@[simp] theorem State.setQ_iobus (s : State) (ms : List Micro) : (s.setQ ms).iobus = s.iobus := rfl
@[simp] theorem State.setQ_ctl (s : State) (ms : List Micro) : (s.setQ ms).ctl = s.ctl := rfl
@[simp] theorem State.setQ_val1 (s : State) (ms : List Micro) : (s.setQ ms).val1 = s.val1 := rfl
@[simp] theorem State.setQ_val2 (s : State) (ms : List Micro) : (s.setQ ms).val2 = s.val2 := rfl
@[simp] theorem State.setQ_res (s : State) (ms : List Micro) : (s.setQ ms).res = s.res := rfl
@[simp] theorem State.setQ_submark (s : State) (ms : List Micro) : (s.setQ ms).submark = s.submark := rfl
@[simp] theorem State.setQ_mem (s : State) (ms : List Micro) : (s.setQ ms).mem = s.mem := rfl
@[simp] theorem State.setQ_q (s : State) (ms : List Micro) : (s.setQ ms).q = ms := rfl
@[simp] theorem State.setQ_savedQ (s : State) (ms : List Micro) : (s.setQ ms).savedQ = s.savedQ := rfl
@[simp] theorem State.setQ_ioPending (s : State) (ms : List Micro) : (s.setQ ms).ioPending = s.ioPending := rfl
@[simp] theorem State.setQ_ioVal (s : State) (ms : List Micro) : (s.setQ ms).ioVal = s.ioVal := rfl
@[simp] theorem State.setQ_ioAck (s : State) (ms : List Micro) : (s.setQ ms).ioAck = s.ioAck := rfl
@[simp] theorem State.setQ_run (s : State) (ms : List Micro) : (s.setQ ms).run = s.run := rfl
@[simp] theorem State.setQ_events (s : State) (ms : List Micro) : (s.setQ ms).events = s.events := rfl
@[simp] theorem State.setQ_hz (s : State) (ms : List Micro) : (s.setQ ms).hz = s.hz := rfl
@[simp] theorem State.setQ_device (s : State) (ms : List Micro) : (s.setQ ms).device = s.device := rfl

@[simp] theorem State.setSavedQ_mode (s : State) (ms : List Micro) : (s.setSavedQ ms).mode = s.mode := rfl
@[simp] theorem State.setSavedQ_pc (s : State) (ms : List Micro) : (s.setSavedQ ms).pc = s.pc := rfl
@[simp] theorem State.setSavedQ_mar (s : State) (ms : List Micro) : (s.setSavedQ ms).mar = s.mar := rfl
@[simp] theorem State.setSavedQ_mdr (s : State) (ms : List Micro) : (s.setSavedQ ms).mdr = s.mdr := rfl
@[simp] theorem State.setSavedQ_acc (s : State) (ms : List Micro) : (s.setSavedQ ms).acc = s.acc := rfl
@[simp] theorem State.setSavedQ_cir (s : State) (ms : List Micro) : (s.setSavedQ ms).cir = s.cir := rfl
@[simp] theorem State.setSavedQ_status (s : State) (ms : List Micro) : (s.setSavedQ ms).status = s.status := rfl
@[simp] theorem State.setSavedQ_abus (s : State) (ms : List Micro) : (s.setSavedQ ms).abus = s.abus := rfl
@[simp] theorem State.setSavedQ_dbus (s : State) (ms : List Micro) : (s.setSavedQ ms).dbus = s.dbus := rfl
@[simp] theorem State.setSavedQ_iobus (s : State) (ms : List Micro) : (s.setSavedQ ms).iobus = s.iobus := rfl
@[simp] theorem State.setSavedQ_ctl (s : State) (ms : List Micro) : (s.setSavedQ ms).ctl = s.ctl := rfl
@[simp] theorem State.setSavedQ_val1 (s : State) (ms : List Micro) : (s.setSavedQ ms).val1 = s.val1 := rfl
@[simp] theorem State.setSavedQ_val2 (s : State) (ms : List Micro) : (s.setSavedQ ms).val2 = s.val2 := rfl
@[simp] theorem State.setSavedQ_res (s : State) (ms : List Micro) : (s.setSavedQ ms).res = s.res := rfl
@[simp] theorem State.setSavedQ_submark (s : State) (ms : List Micro) : (s.setSavedQ ms).submark = s.submark := rfl
@[simp] theorem State.setSavedQ_mem (s : State) (ms : List Micro) : (s.setSavedQ ms).mem = s.mem := rfl
@[simp] theorem State.setSavedQ_q (s : State) (ms : List Micro) : (s.setSavedQ ms).q = s.q := rfl
@[simp] theorem State.setSavedQ_savedQ (s : State) (ms : List Micro) : (s.setSavedQ ms).savedQ = ms := rfl
@[simp] theorem State.setSavedQ_ioPending (s : State) (ms : List Micro) : (s.setSavedQ ms).ioPending = s.ioPending := rfl
@[simp] theorem State.setSavedQ_ioVal (s : State) (ms : List Micro) : (s.setSavedQ ms).ioVal = s.ioVal := rfl
@[simp] theorem State.setSavedQ_ioAck (s : State) (ms : List Micro) : (s.setSavedQ ms).ioAck = s.ioAck := rfl
@[simp] theorem State.setSavedQ_run (s : State) (ms : List Micro) : (s.setSavedQ ms).run = s.run := rfl
@[simp] theorem State.setSavedQ_events (s : State) (ms : List Micro) : (s.setSavedQ ms).events = s.events := rfl
@[simp] theorem State.setSavedQ_hz (s : State) (ms : List Micro) : (s.setSavedQ ms).hz = s.hz := rfl
@[simp] theorem State.setSavedQ_device (s : State) (ms : List Micro) : (s.setSavedQ ms).device = s.device := rfl

@[simp] theorem State.emit_mode (s : State) (e : Event) : (s.emit e).mode = s.mode := rfl
@[simp] theorem State.emit_pc (s : State) (e : Event) : (s.emit e).pc = s.pc := rfl
@[simp] theorem State.emit_mar (s : State) (e : Event) : (s.emit e).mar = s.mar := rfl
@[simp] theorem State.emit_mdr (s : State) (e : Event) : (s.emit e).mdr = s.mdr := rfl
@[simp] theorem State.emit_acc (s : State) (e : Event) : (s.emit e).acc = s.acc := rfl
@[simp] theorem State.emit_cir (s : State) (e : Event) : (s.emit e).cir = s.cir := rfl
@[simp] theorem State.emit_status (s : State) (e : Event) : (s.emit e).status = s.status := rfl
@[simp] theorem State.emit_abus (s : State) (e : Event) : (s.emit e).abus = s.abus := rfl
@[simp] theorem State.emit_dbus (s : State) (e : Event) : (s.emit e).dbus = s.dbus := rfl
@[simp] theorem State.emit_iobus (s : State) (e : Event) : (s.emit e).iobus = s.iobus := rfl
@[simp] theorem State.emit_ctl (s : State) (e : Event) : (s.emit e).ctl = s.ctl := rfl
@[simp] theorem State.emit_val1 (s : State) (e : Event) : (s.emit e).val1 = s.val1 := rfl
@[simp] theorem State.emit_val2 (s : State) (e : Event) : (s.emit e).val2 = s.val2 := rfl
@[simp] theorem State.emit_res (s : State) (e : Event) : (s.emit e).res = s.res := rfl
@[simp] theorem State.emit_submark (s : State) (e : Event) : (s.emit e).submark = s.submark := rfl
@[simp] theorem State.emit_mem (s : State) (e : Event) : (s.emit e).mem = s.mem := rfl
@[simp] theorem State.emit_q (s : State) (e : Event) : (s.emit e).q = s.q := rfl
@[simp] theorem State.emit_savedQ (s : State) (e : Event) : (s.emit e).savedQ = s.savedQ := rfl
@[simp] theorem State.emit_ioPending (s : State) (e : Event) : (s.emit e).ioPending = s.ioPending := rfl
@[simp] theorem State.emit_ioVal (s : State) (e : Event) : (s.emit e).ioVal = s.ioVal := rfl
@[simp] theorem State.emit_ioAck (s : State) (e : Event) : (s.emit e).ioAck = s.ioAck := rfl
@[simp] theorem State.emit_run (s : State) (e : Event) : (s.emit e).run = s.run := rfl
@[simp] theorem State.emit_events (s : State) (e : Event) : (s.emit e).events = s.events ++ [e] := rfl
@[simp] theorem State.emit_hz (s : State) (e : Event) : (s.emit e).hz = s.hz := rfl
@[simp] theorem State.emit_device (s : State) (e : Event) : (s.emit e).device = s.device := rfl

@[simp] theorem State.setRun_mode (s : State) (r : Run) : (s.setRun r).mode = s.mode := rfl
@[simp] theorem State.setRun_pc (s : State) (r : Run) : (s.setRun r).pc = s.pc := rfl
@[simp] theorem State.setRun_mar (s : State) (r : Run) : (s.setRun r).mar = s.mar := rfl
@[simp] theorem State.setRun_mdr (s : State) (r : Run) : (s.setRun r).mdr = s.mdr := rfl
@[simp] theorem State.setRun_acc (s : State) (r : Run) : (s.setRun r).acc = s.acc := rfl
@[simp] theorem State.setRun_cir (s : State) (r : Run) : (s.setRun r).cir = s.cir := rfl
@[simp] theorem State.setRun_status (s : State) (r : Run) : (s.setRun r).status = s.status := rfl
@[simp] theorem State.setRun_abus (s : State) (r : Run) : (s.setRun r).abus = s.abus := rfl
@[simp] theorem State.setRun_dbus (s : State) (r : Run) : (s.setRun r).dbus = s.dbus := rfl
@[simp] theorem State.setRun_iobus (s : State) (r : Run) : (s.setRun r).iobus = s.iobus := rfl
@[simp] theorem State.setRun_ctl (s : State) (r : Run) : (s.setRun r).ctl = s.ctl := rfl
@[simp] theorem State.setRun_val1 (s : State) (r : Run) : (s.setRun r).val1 = s.val1 := rfl
@[simp] theorem State.setRun_val2 (s : State) (r : Run) : (s.setRun r).val2 = s.val2 := rfl
@[simp] theorem State.setRun_res (s : State) (r : Run) : (s.setRun r).res = s.res := rfl
@[simp] theorem State.setRun_submark (s : State) (r : Run) : (s.setRun r).submark = s.submark := rfl
@[simp] theorem State.setRun_mem (s : State) (r : Run) : (s.setRun r).mem = s.mem := rfl
@[simp] theorem State.setRun_q (s : State) (r : Run) : (s.setRun r).q = s.q := rfl
@[simp] theorem State.setRun_savedQ (s : State) (r : Run) : (s.setRun r).savedQ = s.savedQ := rfl
@[simp] theorem State.setRun_ioPending (s : State) (r : Run) : (s.setRun r).ioPending = s.ioPending := rfl
@[simp] theorem State.setRun_ioVal (s : State) (r : Run) : (s.setRun r).ioVal = s.ioVal := rfl
@[simp] theorem State.setRun_ioAck (s : State) (r : Run) : (s.setRun r).ioAck = s.ioAck := rfl
@[simp] theorem State.setRun_run (s : State) (r : Run) : (s.setRun r).run = r := rfl
@[simp] theorem State.setRun_events (s : State) (r : Run) : (s.setRun r).events = s.events := rfl
@[simp] theorem State.setRun_hz (s : State) (r : Run) : (s.setRun r).hz = s.hz := rfl
@[simp] theorem State.setRun_device (s : State) (r : Run) : (s.setRun r).device = s.device := rfl

@[simp] theorem State.setIoAck_mode (s : State) (b : Bool) : (s.setIoAck b).mode = s.mode := rfl
@[simp] theorem State.setIoAck_pc (s : State) (b : Bool) : (s.setIoAck b).pc = s.pc := rfl
@[simp] theorem State.setIoAck_mar (s : State) (b : Bool) : (s.setIoAck b).mar = s.mar := rfl
@[simp] theorem State.setIoAck_mdr (s : State) (b : Bool) : (s.setIoAck b).mdr = s.mdr := rfl
@[simp] theorem State.setIoAck_acc (s : State) (b : Bool) : (s.setIoAck b).acc = s.acc := rfl
@[simp] theorem State.setIoAck_cir (s : State) (b : Bool) : (s.setIoAck b).cir = s.cir := rfl
@[simp] theorem State.setIoAck_status (s : State) (b : Bool) : (s.setIoAck b).status = s.status := rfl
@[simp] theorem State.setIoAck_abus (s : State) (b : Bool) : (s.setIoAck b).abus = s.abus := rfl
@[simp] theorem State.setIoAck_dbus (s : State) (b : Bool) : (s.setIoAck b).dbus = s.dbus := rfl
@[simp] theorem State.setIoAck_iobus (s : State) (b : Bool) : (s.setIoAck b).iobus = s.iobus := rfl
@[simp] theorem State.setIoAck_ctl (s : State) (b : Bool) : (s.setIoAck b).ctl = s.ctl := rfl
@[simp] theorem State.setIoAck_val1 (s : State) (b : Bool) : (s.setIoAck b).val1 = s.val1 := rfl
@[simp] theorem State.setIoAck_val2 (s : State) (b : Bool) : (s.setIoAck b).val2 = s.val2 := rfl
@[simp] theorem State.setIoAck_res (s : State) (b : Bool) : (s.setIoAck b).res = s.res := rfl
@[simp] theorem State.setIoAck_submark (s : State) (b : Bool) : (s.setIoAck b).submark = s.submark := rfl
@[simp] theorem State.setIoAck_mem (s : State) (b : Bool) : (s.setIoAck b).mem = s.mem := rfl
@[simp] theorem State.setIoAck_q (s : State) (b : Bool) : (s.setIoAck b).q = s.q := rfl
@[simp] theorem State.setIoAck_savedQ (s : State) (b : Bool) : (s.setIoAck b).savedQ = s.savedQ := rfl
@[simp] theorem State.setIoAck_ioPending (s : State) (b : Bool) : (s.setIoAck b).ioPending = s.ioPending := rfl
@[simp] theorem State.setIoAck_ioVal (s : State) (b : Bool) : (s.setIoAck b).ioVal = s.ioVal := rfl
@[simp] theorem State.setIoAck_ioAck (s : State) (b : Bool) : (s.setIoAck b).ioAck = b := rfl
@[simp] theorem State.setIoAck_run (s : State) (b : Bool) : (s.setIoAck b).run = s.run := rfl
@[simp] theorem State.setIoAck_events (s : State) (b : Bool) : (s.setIoAck b).events = s.events := rfl
@[simp] theorem State.setIoAck_hz (s : State) (b : Bool) : (s.setIoAck b).hz = s.hz := rfl
@[simp] theorem State.setIoAck_device (s : State) (b : Bool) : (s.setIoAck b).device = s.device := rfl

@[simp] theorem State.setIoPending_mode (s : State) (b : Bool) : (s.setIoPending b).mode = s.mode := rfl
@[simp] theorem State.setIoPending_pc (s : State) (b : Bool) : (s.setIoPending b).pc = s.pc := rfl
@[simp] theorem State.setIoPending_mar (s : State) (b : Bool) : (s.setIoPending b).mar = s.mar := rfl
@[simp] theorem State.setIoPending_mdr (s : State) (b : Bool) : (s.setIoPending b).mdr = s.mdr := rfl
@[simp] theorem State.setIoPending_acc (s : State) (b : Bool) : (s.setIoPending b).acc = s.acc := rfl
@[simp] theorem State.setIoPending_cir (s : State) (b : Bool) : (s.setIoPending b).cir = s.cir := rfl
@[simp] theorem State.setIoPending_status (s : State) (b : Bool) : (s.setIoPending b).status = s.status := rfl
@[simp] theorem State.setIoPending_abus (s : State) (b : Bool) : (s.setIoPending b).abus = s.abus := rfl
@[simp] theorem State.setIoPending_dbus (s : State) (b : Bool) : (s.setIoPending b).dbus = s.dbus := rfl
@[simp] theorem State.setIoPending_iobus (s : State) (b : Bool) : (s.setIoPending b).iobus = s.iobus := rfl
@[simp] theorem State.setIoPending_ctl (s : State) (b : Bool) : (s.setIoPending b).ctl = s.ctl := rfl
@[simp] theorem State.setIoPending_val1 (s : State) (b : Bool) : (s.setIoPending b).val1 = s.val1 := rfl
@[simp] theorem State.setIoPending_val2 (s : State) (b : Bool) : (s.setIoPending b).val2 = s.val2 := rfl
@[simp] theorem State.setIoPending_res (s : State) (b : Bool) : (s.setIoPending b).res = s.res := rfl
@[simp] theorem State.setIoPending_submark (s : State) (b : Bool) : (s.setIoPending b).submark = s.submark := rfl
@[simp] theorem State.setIoPending_mem (s : State) (b : Bool) : (s.setIoPending b).mem = s.mem := rfl
@[simp] theorem State.setIoPending_q (s : State) (b : Bool) : (s.setIoPending b).q = s.q := rfl
@[simp] theorem State.setIoPending_savedQ (s : State) (b : Bool) : (s.setIoPending b).savedQ = s.savedQ := rfl
@[simp] theorem State.setIoPending_ioPending (s : State) (b : Bool) : (s.setIoPending b).ioPending = b := rfl
@[simp] theorem State.setIoPending_ioVal (s : State) (b : Bool) : (s.setIoPending b).ioVal = s.ioVal := rfl
@[simp] theorem State.setIoPending_ioAck (s : State) (b : Bool) : (s.setIoPending b).ioAck = s.ioAck := rfl
@[simp] theorem State.setIoPending_run (s : State) (b : Bool) : (s.setIoPending b).run = s.run := rfl
@[simp] theorem State.setIoPending_events (s : State) (b : Bool) : (s.setIoPending b).events = s.events := rfl
@[simp] theorem State.setIoPending_hz (s : State) (b : Bool) : (s.setIoPending b).hz = s.hz := rfl
@[simp] theorem State.setIoPending_device (s : State) (b : Bool) : (s.setIoPending b).device = s.device := rfl

@[simp] theorem State.setIoVal_mode (s : State) (v : Byte) : (s.setIoVal v).mode = s.mode := rfl
@[simp] theorem State.setIoVal_pc (s : State) (v : Byte) : (s.setIoVal v).pc = s.pc := rfl
@[simp] theorem State.setIoVal_mar (s : State) (v : Byte) : (s.setIoVal v).mar = s.mar := rfl
@[simp] theorem State.setIoVal_mdr (s : State) (v : Byte) : (s.setIoVal v).mdr = s.mdr := rfl
@[simp] theorem State.setIoVal_acc (s : State) (v : Byte) : (s.setIoVal v).acc = s.acc := rfl
@[simp] theorem State.setIoVal_cir (s : State) (v : Byte) : (s.setIoVal v).cir = s.cir := rfl
@[simp] theorem State.setIoVal_status (s : State) (v : Byte) : (s.setIoVal v).status = s.status := rfl
@[simp] theorem State.setIoVal_abus (s : State) (v : Byte) : (s.setIoVal v).abus = s.abus := rfl
@[simp] theorem State.setIoVal_dbus (s : State) (v : Byte) : (s.setIoVal v).dbus = s.dbus := rfl
@[simp] theorem State.setIoVal_iobus (s : State) (v : Byte) : (s.setIoVal v).iobus = s.iobus := rfl
@[simp] theorem State.setIoVal_ctl (s : State) (v : Byte) : (s.setIoVal v).ctl = s.ctl := rfl
@[simp] theorem State.setIoVal_val1 (s : State) (v : Byte) : (s.setIoVal v).val1 = s.val1 := rfl
@[simp] theorem State.setIoVal_val2 (s : State) (v : Byte) : (s.setIoVal v).val2 = s.val2 := rfl
@[simp] theorem State.setIoVal_res (s : State) (v : Byte) : (s.setIoVal v).res = s.res := rfl
@[simp] theorem State.setIoVal_submark (s : State) (v : Byte) : (s.setIoVal v).submark = s.submark := rfl
@[simp] theorem State.setIoVal_mem (s : State) (v : Byte) : (s.setIoVal v).mem = s.mem := rfl
@[simp] theorem State.setIoVal_q (s : State) (v : Byte) : (s.setIoVal v).q = s.q := rfl
@[simp] theorem State.setIoVal_savedQ (s : State) (v : Byte) : (s.setIoVal v).savedQ = s.savedQ := rfl
@[simp] theorem State.setIoVal_ioPending (s : State) (v : Byte) : (s.setIoVal v).ioPending = s.ioPending := rfl
@[simp] theorem State.setIoVal_ioVal (s : State) (v : Byte) : (s.setIoVal v).ioVal = v := rfl
@[simp] theorem State.setIoVal_ioAck (s : State) (v : Byte) : (s.setIoVal v).ioAck = s.ioAck := rfl
@[simp] theorem State.setIoVal_run (s : State) (v : Byte) : (s.setIoVal v).run = s.run := rfl
@[simp] theorem State.setIoVal_events (s : State) (v : Byte) : (s.setIoVal v).events = s.events := rfl
@[simp] theorem State.setIoVal_hz (s : State) (v : Byte) : (s.setIoVal v).hz = s.hz := rfl
@[simp] theorem State.setIoVal_device (s : State) (v : Byte) : (s.setIoVal v).device = s.device := rfl

@[simp] theorem State.setMem_mode (s : State) (m : Memory) : (s.setMem m).mode = s.mode := rfl
@[simp] theorem State.setMem_pc (s : State) (m : Memory) : (s.setMem m).pc = s.pc := rfl
@[simp] theorem State.setMem_mar (s : State) (m : Memory) : (s.setMem m).mar = s.mar := rfl
@[simp] theorem State.setMem_mdr (s : State) (m : Memory) : (s.setMem m).mdr = s.mdr := rfl
@[simp] theorem State.setMem_acc (s : State) (m : Memory) : (s.setMem m).acc = s.acc := rfl
@[simp] theorem State.setMem_cir (s : State) (m : Memory) : (s.setMem m).cir = s.cir := rfl
@[simp] theorem State.setMem_status (s : State) (m : Memory) : (s.setMem m).status = s.status := rfl
@[simp] theorem State.setMem_abus (s : State) (m : Memory) : (s.setMem m).abus = s.abus := rfl
@[simp] theorem State.setMem_dbus (s : State) (m : Memory) : (s.setMem m).dbus = s.dbus := rfl
@[simp] theorem State.setMem_iobus (s : State) (m : Memory) : (s.setMem m).iobus = s.iobus := rfl
@[simp] theorem State.setMem_ctl (s : State) (m : Memory) : (s.setMem m).ctl = s.ctl := rfl
@[simp] theorem State.setMem_val1 (s : State) (m : Memory) : (s.setMem m).val1 = s.val1 := rfl
@[simp] theorem State.setMem_val2 (s : State) (m : Memory) : (s.setMem m).val2 = s.val2 := rfl
@[simp] theorem State.setMem_res (s : State) (m : Memory) : (s.setMem m).res = s.res := rfl
@[simp] theorem State.setMem_submark (s : State) (m : Memory) : (s.setMem m).submark = s.submark := rfl
@[simp] theorem State.setMem_mem (s : State) (m : Memory) : (s.setMem m).mem = m := rfl
@[simp] theorem State.setMem_q (s : State) (m : Memory) : (s.setMem m).q = s.q := rfl
@[simp] theorem State.setMem_savedQ (s : State) (m : Memory) : (s.setMem m).savedQ = s.savedQ := rfl
@[simp] theorem State.setMem_ioPending (s : State) (m : Memory) : (s.setMem m).ioPending = s.ioPending := rfl
@[simp] theorem State.setMem_ioVal (s : State) (m : Memory) : (s.setMem m).ioVal = s.ioVal := rfl
@[simp] theorem State.setMem_ioAck (s : State) (m : Memory) : (s.setMem m).ioAck = s.ioAck := rfl
@[simp] theorem State.setMem_run (s : State) (m : Memory) : (s.setMem m).run = s.run := rfl
@[simp] theorem State.setMem_events (s : State) (m : Memory) : (s.setMem m).events = s.events := rfl
@[simp] theorem State.setMem_hz (s : State) (m : Memory) : (s.setMem m).hz = s.hz := rfl
@[simp] theorem State.setMem_device (s : State) (m : Memory) : (s.setMem m).device = s.device := rfl

@[simp] theorem State.raise_mode (s : State) (r : FaultReason) : (s.raise r).mode = s.mode := rfl
@[simp] theorem State.raise_pc (s : State) (r : FaultReason) : (s.raise r).pc = s.pc := rfl
@[simp] theorem State.raise_mar (s : State) (r : FaultReason) : (s.raise r).mar = s.mar := rfl
@[simp] theorem State.raise_mdr (s : State) (r : FaultReason) : (s.raise r).mdr = s.mdr := rfl
@[simp] theorem State.raise_acc (s : State) (r : FaultReason) : (s.raise r).acc = s.acc := rfl
@[simp] theorem State.raise_cir (s : State) (r : FaultReason) : (s.raise r).cir = s.cir := rfl
@[simp] theorem State.raise_status (s : State) (r : FaultReason) : (s.raise r).status = s.status := rfl
@[simp] theorem State.raise_abus (s : State) (r : FaultReason) : (s.raise r).abus = s.abus := rfl
@[simp] theorem State.raise_dbus (s : State) (r : FaultReason) : (s.raise r).dbus = s.dbus := rfl
@[simp] theorem State.raise_iobus (s : State) (r : FaultReason) : (s.raise r).iobus = s.iobus := rfl
@[simp] theorem State.raise_ctl (s : State) (r : FaultReason) : (s.raise r).ctl = s.ctl := rfl
@[simp] theorem State.raise_val1 (s : State) (r : FaultReason) : (s.raise r).val1 = s.val1 := rfl
@[simp] theorem State.raise_val2 (s : State) (r : FaultReason) : (s.raise r).val2 = s.val2 := rfl
@[simp] theorem State.raise_res (s : State) (r : FaultReason) : (s.raise r).res = s.res := rfl
@[simp] theorem State.raise_submark (s : State) (r : FaultReason) : (s.raise r).submark = s.submark := rfl
@[simp] theorem State.raise_mem (s : State) (r : FaultReason) : (s.raise r).mem = s.mem := rfl
@[simp] theorem State.raise_q (s : State) (r : FaultReason) : (s.raise r).q = [] := rfl
@[simp] theorem State.raise_savedQ (s : State) (r : FaultReason) : (s.raise r).savedQ = s.savedQ := rfl
@[simp] theorem State.raise_ioPending (s : State) (r : FaultReason) : (s.raise r).ioPending = s.ioPending := rfl
@[simp] theorem State.raise_ioVal (s : State) (r : FaultReason) : (s.raise r).ioVal = s.ioVal := rfl
@[simp] theorem State.raise_ioAck (s : State) (r : FaultReason) : (s.raise r).ioAck = s.ioAck := rfl
@[simp] theorem State.raise_run (s : State) (r : FaultReason) : (s.raise r).run = .haltedFault r := rfl
@[simp] theorem State.raise_events (s : State) (r : FaultReason) : (s.raise r).events = s.events ++ [.error r] := rfl
@[simp] theorem State.raise_hz (s : State) (r : FaultReason) : (s.raise r).hz = s.hz := rfl
@[simp] theorem State.raise_device (s : State) (r : FaultReason) : (s.raise r).device = s.device := rfl

@[simp] theorem State.flagWrite_mode (s : State) (f : Flag) (b : Bool) : (s.flagWrite f b).mode = s.mode := rfl
@[simp] theorem State.flagWrite_pc (s : State) (f : Flag) (b : Bool) : (s.flagWrite f b).pc = s.pc := rfl
@[simp] theorem State.flagWrite_mar (s : State) (f : Flag) (b : Bool) : (s.flagWrite f b).mar = s.mar := rfl
@[simp] theorem State.flagWrite_mdr (s : State) (f : Flag) (b : Bool) : (s.flagWrite f b).mdr = s.mdr := rfl
@[simp] theorem State.flagWrite_acc (s : State) (f : Flag) (b : Bool) : (s.flagWrite f b).acc = s.acc := rfl
@[simp] theorem State.flagWrite_cir (s : State) (f : Flag) (b : Bool) : (s.flagWrite f b).cir = s.cir := rfl
@[simp] theorem State.flagWrite_status (s : State) (f : Flag) (b : Bool) : (s.flagWrite f b).status = s.status.write f b := rfl
@[simp] theorem State.flagWrite_abus (s : State) (f : Flag) (b : Bool) : (s.flagWrite f b).abus = s.abus := rfl
@[simp] theorem State.flagWrite_dbus (s : State) (f : Flag) (b : Bool) : (s.flagWrite f b).dbus = s.dbus := rfl
@[simp] theorem State.flagWrite_iobus (s : State) (f : Flag) (b : Bool) : (s.flagWrite f b).iobus = s.iobus := rfl
@[simp] theorem State.flagWrite_ctl (s : State) (f : Flag) (b : Bool) : (s.flagWrite f b).ctl = { s.ctl with fidx := f.index, fval := b } := rfl
@[simp] theorem State.flagWrite_val1 (s : State) (f : Flag) (b : Bool) : (s.flagWrite f b).val1 = s.val1 := rfl
@[simp] theorem State.flagWrite_val2 (s : State) (f : Flag) (b : Bool) : (s.flagWrite f b).val2 = s.val2 := rfl
@[simp] theorem State.flagWrite_res (s : State) (f : Flag) (b : Bool) : (s.flagWrite f b).res = s.res := rfl
@[simp] theorem State.flagWrite_submark (s : State) (f : Flag) (b : Bool) : (s.flagWrite f b).submark = s.submark := rfl
@[simp] theorem State.flagWrite_mem (s : State) (f : Flag) (b : Bool) : (s.flagWrite f b).mem = s.mem := rfl
@[simp] theorem State.flagWrite_q (s : State) (f : Flag) (b : Bool) : (s.flagWrite f b).q = s.q := rfl
@[simp] theorem State.flagWrite_savedQ (s : State) (f : Flag) (b : Bool) : (s.flagWrite f b).savedQ = s.savedQ := rfl
@[simp] theorem State.flagWrite_ioPending (s : State) (f : Flag) (b : Bool) : (s.flagWrite f b).ioPending = s.ioPending := rfl
@[simp] theorem State.flagWrite_ioVal (s : State) (f : Flag) (b : Bool) : (s.flagWrite f b).ioVal = s.ioVal := rfl
@[simp] theorem State.flagWrite_ioAck (s : State) (f : Flag) (b : Bool) : (s.flagWrite f b).ioAck = s.ioAck := rfl
@[simp] theorem State.flagWrite_run (s : State) (f : Flag) (b : Bool) : (s.flagWrite f b).run = s.run := rfl
@[simp] theorem State.flagWrite_events (s : State) (f : Flag) (b : Bool) : (s.flagWrite f b).events = s.events := rfl
@[simp] theorem State.flagWrite_hz (s : State) (f : Flag) (b : Bool) : (s.flagWrite f b).hz = s.hz := rfl
@[simp] theorem State.flagWrite_device (s : State) (f : Flag) (b : Bool) : (s.flagWrite f b).device = s.device := rfl

@[simp] theorem State.receiveInput_mode (s : State) (v : Byte) : (s.receiveInput v).mode = s.mode := rfl
@[simp] theorem State.receiveInput_pc (s : State) (v : Byte) : (s.receiveInput v).pc = s.pc := rfl
@[simp] theorem State.receiveInput_mar (s : State) (v : Byte) : (s.receiveInput v).mar = s.mar := rfl
@[simp] theorem State.receiveInput_mdr (s : State) (v : Byte) : (s.receiveInput v).mdr = s.mdr := rfl
@[simp] theorem State.receiveInput_acc (s : State) (v : Byte) : (s.receiveInput v).acc = s.acc := rfl
@[simp] theorem State.receiveInput_cir (s : State) (v : Byte) : (s.receiveInput v).cir = s.cir := rfl
@[simp] theorem State.receiveInput_status (s : State) (v : Byte) : (s.receiveInput v).status = s.status := rfl
@[simp] theorem State.receiveInput_abus (s : State) (v : Byte) : (s.receiveInput v).abus = s.abus := rfl
@[simp] theorem State.receiveInput_dbus (s : State) (v : Byte) : (s.receiveInput v).dbus = s.dbus := rfl
@[simp] theorem State.receiveInput_iobus (s : State) (v : Byte) : (s.receiveInput v).iobus = s.iobus := rfl
@[simp] theorem State.receiveInput_ctl (s : State) (v : Byte) : (s.receiveInput v).ctl = { s.ctl with ioreq := true } := rfl
@[simp] theorem State.receiveInput_val1 (s : State) (v : Byte) : (s.receiveInput v).val1 = s.val1 := rfl
@[simp] theorem State.receiveInput_val2 (s : State) (v : Byte) : (s.receiveInput v).val2 = s.val2 := rfl
@[simp] theorem State.receiveInput_res (s : State) (v : Byte) : (s.receiveInput v).res = s.res := rfl
@[simp] theorem State.receiveInput_submark (s : State) (v : Byte) : (s.receiveInput v).submark = s.submark := rfl
@[simp] theorem State.receiveInput_mem (s : State) (v : Byte) : (s.receiveInput v).mem = s.mem := rfl
@[simp] theorem State.receiveInput_q (s : State) (v : Byte) : (s.receiveInput v).q = s.q := rfl
@[simp] theorem State.receiveInput_savedQ (s : State) (v : Byte) : (s.receiveInput v).savedQ = s.savedQ := rfl
@[simp] theorem State.receiveInput_ioPending (s : State) (v : Byte) : (s.receiveInput v).ioPending = true := rfl
@[simp] theorem State.receiveInput_ioVal (s : State) (v : Byte) : (s.receiveInput v).ioVal = v := rfl
@[simp] theorem State.receiveInput_ioAck (s : State) (v : Byte) : (s.receiveInput v).ioAck = s.ioAck := rfl
@[simp] theorem State.receiveInput_run (s : State) (v : Byte) : (s.receiveInput v).run = s.run := rfl
@[simp] theorem State.receiveInput_events (s : State) (v : Byte) : (s.receiveInput v).events = s.events := rfl
@[simp] theorem State.receiveInput_hz (s : State) (v : Byte) : (s.receiveInput v).hz = s.hz := rfl
@[simp] theorem State.receiveInput_device (s : State) (v : Byte) : (s.receiveInput v).device = s.device := rfl

end Sys2Proof.Machine
end

