-- ==== Sys2Proof/Laws/Memory.lean ====
section
/-! SUPPORT. The laws of memory: what a read gives after a write, and that a write keeps the canonical form and the
range of the addresses (20_memory.md R38, R41, R42). -/

namespace Sys2Proof.Machine

theorem Memory.read_eq_unlisted (m : Memory) (x : Nat) (h : ∀ c ∈ m, c.1 ≠ x) :
    Memory.read m x = Memory.unlisted := by
  induction m with
  | nil => rfl
  | cons c m ih =>
    have hc : x ≠ c.1 := fun e => h c (by simp) e.symm
    simp [Memory.read, hc, ih fun d hd => h d (by simp [hd])]

/-- A read after a write: the written byte at the address, the old byte elsewhere. -/
theorem Memory.read_write (m : Memory) (a x : Nat) (v : Byte) (h : Memory.wf m) :
    Memory.read (Memory.write m a v) x = if x = a then v else Memory.read m x := by
  obtain ⟨hp, -⟩ := h
  induction m with
  | nil =>
    by_cases hv : v = Memory.unlisted <;> by_cases hx : x = a <;> simp [Memory.write, Memory.read, hv, hx]
  | cons c m ih =>
    obtain ⟨b, w⟩ := c
    obtain ⟨hb, hp⟩ := List.pairwise_cons.mp hp
    have hlast (y : Nat) (hy : y ≤ b) : Memory.read m y = Memory.unlisted :=
      Memory.read_eq_unlisted m y fun d hd e => by have := hb d hd; simp only at this; omega
    simp only [Memory.write]
    split
    · rename_i hlt
      split
      · rename_i hv
        by_cases hx : x = a
        · subst hx
          simp [Memory.read, hlast x (by omega), hv, show x ≠ b by omega]
        · simp [hx]
      · by_cases hx : x = a <;> simp [Memory.read, hx]
    · split
      · rename_i heq
        subst heq
        split
        · rename_i hv
          by_cases hx : x = a
          · simp [hx, hlast a (Nat.le_refl a), hv]
          · simp [Memory.read, hx]
        · by_cases hx : x = a <;> simp [Memory.read, hx]
      · by_cases hx : x = b
        · subst hx
          simp [Memory.read, show x ≠ a by omega]
        · simp [Memory.read, hx, ih hp]

theorem Memory.mem_write {m : Memory} {a : Nat} {v : Byte} {c : Host.Cell} (h : c ∈ Memory.write m a v) :
    c ∈ m ∨ (c = (a, v) ∧ v ≠ Memory.unlisted) := by
  induction m with
  | nil =>
    simp only [Memory.write] at h
    split at h <;> simp_all
  | cons d m ih =>
    obtain ⟨b, w⟩ := d
    simp only [Memory.write] at h
    split at h
    · split at h <;> simp_all [or_comm]
    · split at h
      · split at h
        · exact .inl (List.mem_cons_of_mem _ h)
        · rcases List.mem_cons.mp h with h | h
          · exact .inr ⟨h, by assumption⟩
          · exact .inl (List.mem_cons_of_mem _ h)
      · rcases List.mem_cons.mp h with h | h
        · exact .inl (by simp [h])
        · exact (ih h).imp (List.mem_cons_of_mem _) id

/-- Every write keeps the canonical form. -/
theorem Memory.wf_write (m : Memory) (a : Nat) (v : Byte) (h : Memory.wf m) : Memory.wf (Memory.write m a v) := by
  refine ⟨?_, fun c hc => ?_⟩
  · obtain ⟨hp, -⟩ := h
    induction m with
    | nil =>
      simp only [Memory.write]
      split <;> simp
    | cons d m ih =>
      obtain ⟨b, w⟩ := d
      have hcons := List.pairwise_cons.mp hp
      simp only [Memory.write]
      split
      · rename_i hlt
        split
        · exact hp
        · refine List.pairwise_cons.mpr ⟨fun c hc => ?_, hp⟩
          rcases List.mem_cons.mp hc with rfl | hc
          · exact hlt
          · exact Nat.lt_trans hlt (hcons.1 c hc)
      · split
        · rename_i heq
          subst heq
          split
          · exact hcons.2
          · exact List.pairwise_cons.mpr ⟨hcons.1, hcons.2⟩
        · refine List.pairwise_cons.mpr ⟨fun c hc => ?_, ih hcons.2⟩
          rcases Memory.mem_write hc with hc | ⟨rfl, -⟩
          · exact hcons.1 c hc
          · show b < a
            omega
  · rcases Memory.mem_write hc with hc | ⟨rfl, hv⟩
    · exact h.2 c hc
    · exact hv

/-- Every write to an address of the machine keeps the addresses in range. -/
theorem Memory.inRange_write (mode : MachineMode) (m : Memory) (a : Nat) (v : Byte) (ha : a < mode.memSize)
    (h : Memory.inRange mode m) : Memory.inRange mode (Memory.write m a v) := by
  intro c hc
  rcases Memory.mem_write hc with hc | ⟨rfl, -⟩
  · exact h c hc
  · exact ha

/-- In canonical form an address is materialized exactly when its byte is not the zero word (R38). -/
theorem Memory.materialized_iff (m : Memory) (a : Nat) (h : Memory.wf m) :
    (∃ w, (a, w) ∈ m) ↔ Memory.read m a ≠ Memory.unlisted := by
  obtain ⟨hp, hz⟩ := h
  induction m with
  | nil => simp [Memory.read]
  | cons c m ih =>
    obtain ⟨b, w⟩ := c
    obtain ⟨hb, hp⟩ := List.pairwise_cons.mp hp
    by_cases hx : a = b
    · subst hx
      have hw : w ≠ Memory.unlisted := hz (a, w) (by simp)
      exact ⟨fun _ => by simpa [Memory.read] using hw, fun _ => ⟨w, by simp⟩⟩
    · simp only [Memory.read, hx, if_false, List.mem_cons, Prod.mk.injEq, false_and, false_or]
      exact ih hp fun c hc => hz c (by simp [hc])

end Sys2Proof.Machine
end

