-- ==== Sys2Proof/Laws/Micro.lean ====
section
/-! SUPPORT. For each shared operation of the control unit, one lemma that says everything it can do, and the
inversion lemmas of `microStep`, `runInstr`, `finishCycle` and `step`. -/

namespace Sys2Proof.Machine

/-! ## A-bit values -/

@[simp] theorem fitTo_expanded (v : Addr) : fitTo .expanded v = v := rfl

theorem fitTo_lt (mode : MachineMode) (v : Addr) : (fitTo mode v).toNat < mode.memSize := by
  cases mode
  · simp only [fitTo, MachineMode.memSize, BitVec.toNat_setWidth]
    omega
  · exact v.isLt

/-- A value that fits is kept. -/
theorem fitTo_of_lt (mode : MachineMode) (v : Addr) (h : v.toNat < mode.memSize) : fitTo mode v = v := by
  cases mode
  · apply BitVec.eq_of_toNat_eq
    simp only [MachineMode.memSize] at h
    simp only [fitTo, BitVec.toNat_setWidth]
    omega
  · rfl

@[simp] theorem fitTo_fitTo (mode : MachineMode) (v : Addr) : fitTo mode (fitTo mode v) = fitTo mode v :=
  fitTo_of_lt mode _ (fitTo_lt mode v)

@[simp] theorem fitTo_byte (mode : MachineMode) (b : Byte) : fitTo mode (b.setWidth 32) = b.setWidth 32 := by
  refine fitTo_of_lt mode _ ?_
  have := b.isLt
  cases mode <;> simp only [MachineMode.memSize, BitVec.toNat_setWidth] <;> omega

/-! ## Memory accesses (R84, R85) -/

/-- The two outcomes of `getAddress()` (R39). -/
theorem State.getAddress_cases (s : State) :
    (s.abus.toNat < s.mode.memSize ∧ s.getAddress = .ok s.abus.toNat)
      ∨ (¬ s.abus.toNat < s.mode.memSize ∧ s.getAddress = .error (.memAddr s.abus.toNat)) := by
  by_cases h : s.abus.toNat < s.mode.memSize <;> simp [State.getAddress, h]

/-- Everything `MemOut` can do. -/
theorem State.memOut_cases (s : State) :
    (s.abus.toNat < s.mode.memSize ∧ s.memOut = s.driveDbus (Memory.read s.mem s.abus.toNat))
      ∨ (¬ s.abus.toNat < s.mode.memSize ∧ s.memOut = s.raise (.memAddr s.abus.toNat)) := by
  rcases s.getAddress_cases with ⟨h, e⟩ | ⟨h, e⟩
  · exact .inl ⟨h, by simp only [State.memOut, e]⟩
  · exact .inr ⟨h, by simp only [State.memOut, e]⟩

/-- Everything `MemIn` can do. -/
theorem State.memIn_cases (s : State) :
    (s.abus.toNat < s.mode.memSize ∧ s.memIn = s.setMem (Memory.write s.mem s.abus.toNat s.dbus))
      ∨ (¬ s.abus.toNat < s.mode.memSize ∧ s.memIn = s.raise (.memAddr s.abus.toNat)) := by
  rcases s.getAddress_cases with ⟨h, e⟩ | ⟨h, e⟩
  · exact .inl ⟨h, by simp only [State.memIn, e]⟩
  · exact .inr ⟨h, by simp only [State.memIn, e]⟩

/-- Where ADDRESSBUS holds an A-bit value, `MemOut` is the read (R40). -/
theorem State.memOut_eq (s : State) (h : s.abus.toNat < s.mode.memSize) :
    s.memOut = s.driveDbus (Memory.read s.mem s.abus.toNat) := by
  simp [State.memOut, State.getAddress, h]

/-- Where ADDRESSBUS holds an A-bit value, `MemIn` is the write (R40). -/
theorem State.memIn_eq (s : State) (h : s.abus.toNat < s.mode.memSize) :
    s.memIn = s.setMem (Memory.write s.mem s.abus.toNat s.dbus) := by
  simp [State.memIn, State.getAddress, h]

/-! ## The arbiter -/

/-- Everything `SetIoGrant(b)` can do (45_io.md R132). -/
theorem State.setIoGrant_cases (s : State) (b : Bool) :
    (b = true ∧ s.ioPending = true ∧ s.setIoGrant b = ((s.setIognt b).driveIobus s.ioVal).setIoPending false)
      ∨ ((b && s.ioPending) = false ∧ s.setIoGrant b = s.setIognt b) := by
  cases b <;> cases h : s.ioPending <;> simp [State.setIoGrant, h]

/-- Everything `IoHandler` can do (R133). -/
theorem State.ioHandler_cases (s : State) :
    ((s.ctl.gnt || s.ctl.iognt) = true ∧ s.ioHandler = s.append [.ioHandler])
      ∨ ((s.ctl.gnt || s.ctl.iognt) = false
        ∧ s.ioHandler = ((s.setIoGrant true).setIoreq false).setIoAck false) := by
  cases h : (s.ctl.gnt || s.ctl.iognt) <;> simp [State.ioHandler, h]

/-- Everything `IoCheck` can do (40_control_unit.md R76). -/
theorem State.ioCheck_cases (s : State) :
    (s.ctl.ioreq = true ∧ s.ioAck = false ∧ s.ioCheck = (s.append [.ioHandler]).setIoAck true)
      ∨ ((s.ctl.ioreq && !s.ioAck) = false ∧ s.ioCheck = s) := by
  cases h : s.ctl.ioreq <;> cases h' : s.ioAck <;> simp [State.ioCheck, h, h']

@[simp] theorem deviceReply_silent (outs : List Byte) : deviceReply .silent outs = none := rfl

@[simp] theorem deviceReply_lastPlus (k v : Byte) (outs : List Byte) :
    deviceReply (.lastPlus k) (outs ++ [v]) = some (v + k) := by
  simp [deviceReply]

@[simp] theorem deviceReply_table (rows : List (List Byte × Byte)) (outs : List Byte) :
    deviceReply (.table rows) outs = tableReply rows outs := rfl

@[simp] theorem deviceReply_any (index : Nat) (outs : List Byte) :
    deviceReply (.any index) outs = Config.anyDevice index outs := rfl

/-- Everything `IoCallback` can do (45_io.md R136). -/
theorem State.ioCallback_cases (s : State) :
    (deviceReply s.device (outputsOf (s.events ++ [.output s.iobus])) = none
        ∧ s.ioCallback = s.emit (.output s.iobus))
      ∨ ∃ v, deviceReply s.device (outputsOf (s.events ++ [.output s.iobus])) = some v
        ∧ s.ioCallback = (s.emit (.output s.iobus)).receiveInput v := by
  cases h : deviceReply s.device (outputsOf (s.events ++ [.output s.iobus])) <;> simp [State.ioCallback, h]

/-! ## The phase micro-ops -/

/-- Everything `FetchRest` can do (40_control_unit.md R95). -/
theorem State.fetchRest_cases (s : State) :
    (legalLength ((cirHead s.cir).extractLsb' 0 3) = true
        ∧ s.fetchRest
          = s.append (fetchOperand ((cirHead s.cir).extractLsb' 0 3) ++ [.readOff, .busRelease, .decode]))
      ∨ (legalLength ((cirHead s.cir).extractLsb' 0 3) = false
        ∧ s.fetchRest = s.raise (.decode (.badLength ((cirHead s.cir).extractLsb' 0 3)))) := by
  cases h : legalLength ((cirHead s.cir).extractLsb' 0 3) <;> simp [State.fetchRest, h]

/-- Everything `Decode` can do (R96, R97): append operand micro-ops and `Execute`, or take a decode fault. -/
theorem State.decodeOp_cases (s : State) :
    (∃ cls m, s.decodeOp = s.append ((match s.mode with
        | .standard => getOpStd cls m
        | .expanded => getOpExp cls m) ++ [.execute]))
      ∨ ∃ r, s.decodeOp = s.raise (.decode r) := by
  unfold State.decodeOp
  cases h : s.mode
  · simp only [State.decodeStdOp]
    split
    · exact .inr ⟨_, rfl⟩
    · exact .inl ⟨_, _, rfl⟩
  · simp only [State.decodeExpOp]
    split
    · exact .inl ⟨_, _, rfl⟩
    · exact .inr ⟨_, rfl⟩

/-- Everything `Branch(X)` can do (44_control_transfer.md R126). -/
theorem State.branchOp_cases (s : State) (f : Flag) :
    (s.status.get f = true ∧ s.branchOp f = s.append (gotoBody s.mode))
      ∨ (s.status.get f = false ∧ s.branchOp f = s.append [.fetch]) := by
  cases h : s.status.get f <;> simp [State.branchOp, h]

/-! ## Steps -/

/-- What the clock cycle does after the micro-op's effect (R73). -/
theorem State.afterMicro_cases (s : State) :
    (s.run = .running ∧ s.afterMicro = s.ioCheck) ∨ (s.run ≠ .running ∧ s.afterMicro = s) := by
  cases h : s.run <;> simp [State.afterMicro, h]

/-- Everything a step of R73 that answers a next state is. -/
theorem microStep_next {s t : State} (h : microStep s = .next t) :
    s.run = .running ∧ ∃ m rest, s.q = m :: rest ∧ t = dispatch m (s.setQ rest) := by
  unfold microStep at h
  cases hr : s.run <;> simp only [hr] at h
  case running =>
    cases hq : s.q <;> simp only [hq] at h
    · cases h
    · exact ⟨rfl, _, _, rfl, (Host.Outcome.next.inj h).symm⟩
  all_goals cases h

/-- Everything a meaning that answers a next state is: the three phases after the fetch. -/
theorem runInstr_next {mode : MachineMode} {code : Code} {getOp body : List Micro} {s t : State}
    (h : runInstr mode code getOp body s = .next t) :
    s.run = .running ∧ s.mode = mode ∧ t = executePhase body (operandPhase getOp (s.writeCir code)) := by
  unfold runInstr at h
  cases hr : s.run <;> simp only [hr] at h
  case running =>
    split at h
    · rename_i hm
      exact ⟨rfl, hm, (Host.Outcome.next.inj h).symm⟩
    · cases h
  all_goals cases h

/-- A meaning on a Running machine of its mode answers the state after its phases. -/
theorem runInstr_eq {mode : MachineMode} {s : State} (hr : s.run = .running) (hm : s.mode = mode) (code : Code)
    (getOp body : List Micro) :
    runInstr mode code getOp body s = .next (executePhase body (operandPhase getOp (s.writeCir code))) := by
  simp [runInstr, hr, hm]

/-- Everything the end of a cycle can be: the meaning of the decoded instruction, the `Decode` micro-op's fault, or the
state itself where `Decode` is not at the head. -/
theorem finishCycle_cases (s : State) :
    (∃ rest i, s.run = .running ∧ s.q = .decode :: rest ∧ decodeCode s.mode s.cir = some i
        ∧ finishCycle s = exec i (s.setQ rest))
      ∨ (∃ rest, s.run = .running ∧ s.q = .decode :: rest ∧ decodeCode s.mode s.cir = none
        ∧ finishCycle s = .next (dispatch .decode (s.setQ rest)))
      ∨ finishCycle s = .next s := by
  unfold finishCycle
  split
  · rename_i rest hr hq
    cases hd : decodeCode s.mode s.cir with
    | some i => exact .inl ⟨rest, i, hr, hq, rfl, rfl⟩
    | none => exact .inr (.inl ⟨rest, hr, hq, rfl, rfl⟩)
  · exact .inr (.inr rfl)

/-- Everything a step that answers a next state is. -/
theorem step_next {s t : State} (h : step s = .next t) :
    s.run = .running ∧ s.q ≠ [] ∧ finishCycle (fetchPhase s) = .next t := by
  unfold step at h
  cases hr : s.run <;> simp only [hr] at h
  case running =>
    cases hq : s.q <;> simp only [hq] at h
    · cases h
    · exact ⟨rfl, by simp, h⟩
  all_goals cases h

/-- A step of a Running machine with a queue is the fetch phase and the end of the cycle. -/
theorem step_eq {s : State} (hr : s.run = .running) (hq : s.q ≠ []) : step s = finishCycle (fetchPhase s) := by
  cases h : s.q
  · exact absurd h hq
  · simp [step, hr, h]

/-- One step of a phase: the head is dispatched. -/
theorem runUntil_step {stop : Micro → Bool} {n : Nat} {s : State} {m : Micro} {rest : List Micro}
    (hr : s.run = .running) (hq : s.q = m :: rest) (hs : stop m = false) :
    runUntil stop (n + 1) s = runUntil stop n (dispatch m (s.setQ rest)) := by
  simp [runUntil, hr, hq, hs]

/-- The end of a phase: a head that `stop` picks. -/
theorem runUntil_stop {stop : Micro → Bool} {s : State} {m : Micro} {rest : List Micro} (n : Nat)
    (hq : s.q = m :: rest) (hs : stop m = true) : runUntil stop n s = s := by
  cases n
  · rfl
  · cases hr : s.run <;> simp [runUntil, hr, hq, hs]

/-- The end of a phase: the machine has halted. -/
theorem runUntil_halted {s : State} (stop : Micro → Bool) (n : Nat) (hr : s.run ≠ .running) :
    runUntil stop n s = s := by
  cases n
  · rfl
  · cases h : s.run <;> simp_all [runUntil]

/-- A clock cycle in which no I/O request waits is the micro-op's effect between the two clock writes (R73). -/
theorem tick_quiet {f : State → State} {s : State} (hr : (f (s.setClk true)).run = .running)
    (hi : (f (s.setClk true)).ctl.ioreq = false) : tick f s = (f (s.setClk true)).setClk false := by
  simp [tick, State.afterMicro, hr, State.ioCheck, hi]

/-- A clock cycle whose micro-op halts the machine makes no I/O check (R73). -/
theorem tick_halted {f : State → State} {s : State} (hr : (f (s.setClk true)).run ≠ .running) :
    tick f s = (f (s.setClk true)).setClk false := by
  rcases State.afterMicro_cases (f (s.setClk true)) with ⟨h, -⟩ | ⟨-, h⟩
  · exact absurd h hr
  · simp only [tick, h]

/-- Induction along a phase: what every dispatch keeps, `runUntil` keeps. -/
theorem runUntil_induct (P : State → Prop) (stop : Micro → Bool)
    (keep : ∀ s m rest, P s → s.run = .running → s.q = m :: rest → stop m = false → P (dispatch m (s.setQ rest)))
    (n : Nat) (s : State) (h : P s) : P (runUntil stop n s) := by
  induction n generalizing s with
  | zero => exact h
  | succ n ih =>
    unfold runUntil
    split
    · rename_i m rest hr hq
      split
      · exact h
      · rename_i hs
        exact ih _ (keep s m rest h hr hq (by simpa using hs))
    · exact h

/-! ## Placing bytes -/

/-- Storing bytes keeps the canonical form. -/
theorem storeBytes_wf (mode : MachineMode) (bs : List Byte) (m : Memory) (a : Addr) (h : Memory.wf m) :
    Memory.wf (storeBytes mode m a bs) := by
  induction bs generalizing m a with
  | nil => exact h
  | cons b bs ih => exact ih _ _ (Memory.wf_write _ _ _ h)

/-- Storing bytes keeps the addresses in range. -/
theorem storeBytes_inRange (mode : MachineMode) (bs : List Byte) (m : Memory) (a : Addr)
    (h : Memory.inRange mode m) : Memory.inRange mode (storeBytes mode m a bs) := by
  induction bs generalizing m a with
  | nil => exact h
  | cons b bs ih => exact ih _ _ (Memory.inRange_write _ _ _ _ (fitTo_lt mode a) h)

end Sys2Proof.Machine
end

