-- ==== Sys2Proof/Laws/PerInstr.lean ====
section
/-! SUPPORT. Facts about each instruction as syntax, one lemma per constructor. -/

namespace Sys2Proof.Laws.EncodedLength

/-- The length of an instruction in memory (30_encoding.md R59, R61, R67), and that it is well-formed on the machine of
its format (R69). -/
def Statement (i : Instr) : Prop :=
  (encode i).length = (match i.machineMode with
    | .standard => 2
    | .expanded => 1 + ((i.opcode.classIn .expanded).legalLen i.addrMode).toNat)
    ∧ i.wellFormed i.machineMode = true

theorem stdAdd (m : AddrMode) (n : Byte) : Statement (.stdAdd m n) := by cases m <;> exact ⟨rfl, rfl⟩
theorem stdSub (m : AddrMode) (n : Byte) : Statement (.stdSub m n) := by cases m <;> exact ⟨rfl, rfl⟩
theorem stdAnd (m : AddrMode) (n : Byte) : Statement (.stdAnd m n) := by cases m <;> exact ⟨rfl, rfl⟩
theorem stdOr (m : AddrMode) (n : Byte) : Statement (.stdOr m n) := by cases m <;> exact ⟨rfl, rfl⟩
theorem stdXor (m : AddrMode) (n : Byte) : Statement (.stdXor m n) := by cases m <;> exact ⟨rfl, rfl⟩
theorem stdNot (m : AddrMode) (n : Byte) : Statement (.stdNot m n) := by cases m <;> exact ⟨rfl, rfl⟩
theorem stdRead (m : AddrMode) (n : Byte) : Statement (.stdRead m n) := by cases m <;> exact ⟨rfl, rfl⟩
theorem stdWrite (m : AddrMode) (n : Byte) : Statement (.stdWrite m n) := by cases m <;> exact ⟨rfl, rfl⟩
theorem stdGoto (m : AddrMode) (n : Byte) : Statement (.stdGoto m n) := by cases m <;> exact ⟨rfl, rfl⟩
theorem stdBranchIfZero (m : AddrMode) (n : Byte) : Statement (.stdBranchIfZero m n) := by cases m <;> exact ⟨rfl, rfl⟩
theorem stdBranchIfNegative (m : AddrMode) (n : Byte) : Statement (.stdBranchIfNegative m n) := by cases m <;> exact ⟨rfl, rfl⟩
theorem stdBranchIfOverflow (m : AddrMode) (n : Byte) : Statement (.stdBranchIfOverflow m n) := by cases m <;> exact ⟨rfl, rfl⟩
theorem stdBranchIfCarry (m : AddrMode) (n : Byte) : Statement (.stdBranchIfCarry m n) := by cases m <;> exact ⟨rfl, rfl⟩
theorem stdOutput (m : AddrMode) (n : Byte) : Statement (.stdOutput m n) := by cases m <;> exact ⟨rfl, rfl⟩
theorem stdInput (m : AddrMode) (n : Byte) : Statement (.stdInput m n) := by cases m <;> exact ⟨rfl, rfl⟩
theorem stdEnd (m : AddrMode) (n : Byte) : Statement (.stdEnd m n) := by cases m <;> exact ⟨rfl, rfl⟩
theorem expAddLit (n : Byte) : Statement (.expAddLit n) := ⟨rfl, rfl⟩
theorem expAddMem (a : Addr) : Statement (.expAddMem a) := ⟨rfl, rfl⟩
theorem expSubLit (n : Byte) : Statement (.expSubLit n) := ⟨rfl, rfl⟩
theorem expSubMem (a : Addr) : Statement (.expSubMem a) := ⟨rfl, rfl⟩
theorem expAndLit (n : Byte) : Statement (.expAndLit n) := ⟨rfl, rfl⟩
theorem expAndMem (a : Addr) : Statement (.expAndMem a) := ⟨rfl, rfl⟩
theorem expOrLit (n : Byte) : Statement (.expOrLit n) := ⟨rfl, rfl⟩
theorem expOrMem (a : Addr) : Statement (.expOrMem a) := ⟨rfl, rfl⟩
theorem expXorLit (n : Byte) : Statement (.expXorLit n) := ⟨rfl, rfl⟩
theorem expXorMem (a : Addr) : Statement (.expXorMem a) := ⟨rfl, rfl⟩
theorem expNot (m : AddrMode) : Statement (.expNot m) := by cases m <;> exact ⟨rfl, rfl⟩
theorem expRead (m : AddrMode) (a : Addr) : Statement (.expRead m a) := by cases m <;> exact ⟨rfl, rfl⟩
theorem expWrite (m : AddrMode) (a : Addr) : Statement (.expWrite m a) := by cases m <;> exact ⟨rfl, rfl⟩
theorem expGoto (m : AddrMode) (a : Addr) : Statement (.expGoto m a) := by cases m <;> exact ⟨rfl, rfl⟩
theorem expBranchIfZero (m : AddrMode) (a : Addr) : Statement (.expBranchIfZero m a) := by cases m <;> exact ⟨rfl, rfl⟩
theorem expBranchIfNegative (m : AddrMode) (a : Addr) : Statement (.expBranchIfNegative m a) := by cases m <;> exact ⟨rfl, rfl⟩
theorem expBranchIfOverflow (m : AddrMode) (a : Addr) : Statement (.expBranchIfOverflow m a) := by cases m <;> exact ⟨rfl, rfl⟩
theorem expBranchIfCarry (m : AddrMode) (a : Addr) : Statement (.expBranchIfCarry m a) := by cases m <;> exact ⟨rfl, rfl⟩
theorem expOutputLit (n : Byte) : Statement (.expOutputLit n) := ⟨rfl, rfl⟩
theorem expOutputMem (a : Addr) : Statement (.expOutputMem a) := ⟨rfl, rfl⟩
theorem expInput (m : AddrMode) : Statement (.expInput m) := by cases m <;> exact ⟨rfl, rfl⟩
theorem expEnd (m : AddrMode) : Statement (.expEnd m) := by cases m <;> exact ⟨rfl, rfl⟩

end Sys2Proof.Laws.EncodedLength
end

