-- ==== Sys2Proof/Tests/Slice0.lean ====
section
/-! SUPPORT. The model's own tests: the checks of WellFormed, decoding of words written out from the spec's encodings,
one-step tests taken from 95_test_vectors.md (the vector's id stands in the name or the docstring), and a witness for
the hypotheses of every statement that has some. -/

namespace Sys2Proof.Tests

open Sys2Proof Sys2Proof.Machine

/-! ## Helpers -/

/-- A machine with these instruction bytes at 0 and these data bytes, as `Start` leaves it, ACC set by the harness
(92_eei_decisions.md D38). -/
def boot (mode : MachineMode) (acc : Byte) (bytes : List Byte) (data : List Host.Cell) : State :=
  { State.resetIn mode Config.silentDevice with
    acc := acc
    mem := data.foldl (fun m c => Memory.write m c.1 c.2) (storeBytes mode [] 0#32 bytes)
    q := [.fetch]
    run := .running }

/-- A machine whose `Decode` has just been popped, with these data bytes. -/
def ready (mode : MachineMode) (acc : Byte) (data : List Host.Cell) : State :=
  { boot mode acc [] data with q := [] }

/-- What `f` reads of the state an outcome answers. -/
def seen {α : Type} (o : Host.Outcome State Fault Refusal) (f : State → α) : Option α :=
  match o with
  | .next t => some (f t)
  | _ => none

/-- What `f` reads after one step. -/
def after {α : Type} (s : State) (f : State → α) : Option α := seen (step s) f

/-- STATUS with its bits in the order of the vectors' columns. -/
def flags (z n v c : Bool) : Status := { z := z, n := n, v := v, c := c }

/-- The outcome is a next state. -/
def answers (o : Host.Outcome State Fault Refusal) : Bool := (seen o fun _ => ()).isSome

theorem exists_next {o : Host.Outcome State Fault Refusal} (h : answers o = true) : ∃ t, o = .next t := by
  cases o
  · exact ⟨_, rfl⟩
  all_goals cases h

/-! ## WellFormed -/

/-- A Standard instruction is ill-formed on an Expanded machine, and is refused (30_encoding.md R69). -/
theorem test_wellFormed_refuses_standard_on_expanded :
    (Instr.stdAdd .direct 5#8).wellFormed .expanded = false ∧ (Instr.stdEnd .address 0#8).wellFormed .expanded = false := by
  decide

/-- An Expanded instruction is ill-formed on a Standard machine, and is refused. -/
theorem test_wellFormed_refuses_expanded_on_standard :
    (Instr.expAddLit 5#8).wellFormed .standard = false ∧ (Instr.expEnd .direct).wellFormed .standard = false := by
  decide

theorem test_wellFormed_accepts_the_machine_mode :
    (Instr.stdAdd .direct 5#8).wellFormed .standard = true ∧ (Instr.expAddLit 5#8).wellFormed .expanded = true := by
  decide

/-! ## Decoding: one word per constructor, written from R58, R59 (Standard) and R60, R67 (Expanded) -/

theorem test_decode_standard_words :
    decode .standard [0x00#8, 0x05#8] = .ok (.stdAdd .direct 0x05#8, [])
      ∧ decode .standard [0x14#8, 0x20#8] = .ok (.stdSub .address 0x20#8, [])
      ∧ decode .standard [0x20#8, 0x3C#8] = .ok (.stdAnd .direct 0x3C#8, [])
      ∧ decode .standard [0x32#8, 0x00#8] = .ok (.stdOr .direct 0x80#8, [])
      ∧ decode .standard [0x43#8, 0x3F#8] = .ok (.stdXor .direct 0xFF#8, [])
      ∧ decode .standard [0x50#8, 0x00#8] = .ok (.stdNot .direct 0x00#8, [])
      ∧ decode .standard [0x61#8, 0x00#8] = .ok (.stdRead .direct 0x40#8, [])
      ∧ decode .standard [0x77#8, 0x3F#8] = .ok (.stdWrite .address 0xFF#8, [])
      ∧ decode .standard [0x84#8, 0x10#8] = .ok (.stdGoto .address 0x10#8, [])
      ∧ decode .standard [0x90#8, 0xC6#8] = .ok (.stdBranchIfZero .direct 0x06#8, [])
      ∧ decode .standard [0xA0#8, 0x20#8] = .ok (.stdBranchIfNegative .direct 0x20#8, [])
      ∧ decode .standard [0xB4#8, 0x10#8] = .ok (.stdBranchIfOverflow .address 0x10#8, [])
      ∧ decode .standard [0xC2#8, 0x08#8] = .ok (.stdBranchIfCarry .direct 0x88#8, [])
      ∧ decode .standard [0xD0#8, 0x00#8] = .ok (.stdOutput .direct 0x00#8, [])
      ∧ decode .standard [0xE4#8, 0x01#8] = .ok (.stdInput .address 0x01#8, [])
      ∧ decode .standard [0xF7#8, 0x3F#8] = .ok (.stdEnd .address 0xFF#8, []) := by
  and_intros <;> rfl

theorem test_decode_expanded_words :
    decode .expanded [0x01#8, 0x05#8] = .ok (.expAddLit 5#8, [])
      ∧ decode .expanded [0x0C#8, 0x12#8, 0x34#8, 0x56#8, 0x78#8] = .ok (.expAddMem 0x12345678#32, [])
      ∧ decode .expanded [0x11#8, 0x07#8] = .ok (.expSubLit 7#8, [])
      ∧ decode .expanded [0x1C#8, 0x12#8, 0x34#8, 0x56#8, 0x78#8] = .ok (.expSubMem 0x12345678#32, [])
      ∧ decode .expanded [0x21#8, 0x3C#8] = .ok (.expAndLit 0x3C#8, [])
      ∧ decode .expanded [0x2C#8, 0x12#8, 0x34#8, 0x56#8, 0x78#8] = .ok (.expAndMem 0x12345678#32, [])
      ∧ decode .expanded [0x31#8, 0x80#8] = .ok (.expOrLit 0x80#8, [])
      ∧ decode .expanded [0x3C#8, 0x12#8, 0x34#8, 0x56#8, 0x78#8] = .ok (.expOrMem 0x12345678#32, [])
      ∧ decode .expanded [0x41#8, 0x80#8] = .ok (.expXorLit 0x80#8, [])
      ∧ decode .expanded [0x4C#8, 0x12#8, 0x34#8, 0x56#8, 0x78#8] = .ok (.expXorMem 0x12345678#32, [])
      ∧ decode .expanded [0x58#8] = .ok (.expNot .address, [])
      ∧ decode .expanded [0x6C#8, 0x00#8, 0x00#8, 0x10#8, 0x00#8] = .ok (.expRead .address 0x1000#32, [])
      ∧ decode .expanded [0x74#8, 0xFF#8, 0xFF#8, 0xFF#8, 0xFF#8] = .ok (.expWrite .direct 0xFFFFFFFF#32, [])
      ∧ decode .expanded [0x84#8, 0x12#8, 0x34#8, 0x56#8, 0x78#8] = .ok (.expGoto .direct 0x12345678#32, [])
      ∧ decode .expanded [0x94#8, 0x12#8, 0x34#8, 0x56#8, 0x78#8] = .ok (.expBranchIfZero .direct 0x12345678#32, [])
      ∧ decode .expanded [0xAC#8, 0x12#8, 0x34#8, 0x56#8, 0x78#8] = .ok (.expBranchIfNegative .address 0x12345678#32, [])
      ∧ decode .expanded [0xB4#8, 0x00#8, 0x00#8, 0x00#8, 0x30#8] = .ok (.expBranchIfOverflow .direct 0x30#32, [])
      ∧ decode .expanded [0xC4#8, 0x00#8, 0x00#8, 0x00#8, 0x40#8] = .ok (.expBranchIfCarry .direct 0x40#32, [])
      ∧ decode .expanded [0xD1#8, 0x41#8] = .ok (.expOutputLit 0x41#8, [])
      ∧ decode .expanded [0xDC#8, 0xFF#8, 0xFF#8, 0xFF#8, 0xFF#8] = .ok (.expOutputMem 0xFFFFFFFF#32, [])
      ∧ decode .expanded [0xE0#8] = .ok (.expInput .direct, [])
      ∧ decode .expanded [0xF8#8] = .ok (.expEnd .address, []) := by
  and_intros <;> rfl

/-- The encodings R68 lists, rejected by name, and bytes that end too early. -/
theorem test_decode_rejects_by_name :
    decode .standard [0x08#8, 0x00#8] = .error (.illegal (.badMode 2#2))
      ∧ decode .standard [0xFC#8, 0x00#8] = .error (.illegal (.badMode 3#2))
      ∧ decode .expanded [0x02#8] = .error (.illegal (.badLength 2#3))
      ∧ decode .expanded [0xF7#8, 0x00#8] = .error (.illegal (.badLength 7#3))
      ∧ decode .expanded [0x00#8] = .error (.illegal (.badForm 0#4 0#1 0#3))
      ∧ decode .expanded [0x51#8, 0x00#8] = .error (.illegal (.badForm 5#4 0#1 1#3))
      ∧ decode .standard [0x00#8] = .error .truncated
      ∧ decode .expanded [0x84#8, 0x00#8] = .error .truncated := by
  and_intros <;> rfl

/-- The table numbers a Standard row by its 14-bit word and an Expanded row by its first byte (entry 7). -/
theorem test_table_words :
    decodeTableWord 16 0x0000 = some (.stdAdd .direct 0#8) ∧ decodeTableWord 16 0x3C00 = some (.stdEnd .direct 0#8)
      ∧ decodeTableWord 16 0x01C8 = some (.stdAdd .address 0xC8#8) ∧ decodeTableWord 16 0x0200 = none
      ∧ decodeTableWord 8 0x01 = some (.expAddLit 0#8) ∧ decodeTableWord 8 0x0C = some (.expAddMem 0#32)
      ∧ decodeTableWord 8 0x64 = some (.expRead .direct 0#32) ∧ decodeTableWord 8 0xF0 = some (.expEnd .direct) := by
  decide

/-- The first step after reset runs the table word placed where it fetches. -/
theorem test_withFetchWord_runs :
    after (State.reset.withFetchWord 16 0x3C00) (fun t => (t.run, t.pc, t.events)) = some (.haltedEnd, 2#32, [.complete])
      ∧ after (State.reset.withFetchWord 8 0xF0) (fun t => (t.run, t.pc, t.cir)) = some (.haltedEnd, 1#32, .exp [0xF0#8]) := by
  decide

/-! ## One-step vectors of 95_test_vectors.md -/

/-- S7, A-A1. -/
theorem test_stdAdd_S7 :
    after (boot .standard 0x03#8 [0x00#8, 0x05#8] [])
      (fun t => (t.acc, t.status, t.pc, t.val1, t.val2, t.submark)) = some (8#8, flags false false false false, 2#32, 3#8, 5#8, false) := by
  decide

/-- A-A5 in mode 1: FF + 80 sets V and C. -/
theorem test_stdAdd_address :
    after (boot .standard 0xFF#8 [0x04#8, 0x20#8] [(0x20, 0x80#8)])
      (fun t => (t.acc, t.status, t.mdr, t.mar)) = some (0x7F#8, flags false false true true, 0x80#32, 0x20#32) := by
  decide

/-- S8, A-S1. -/
theorem test_stdSub_S8 :
    after (boot .standard 0x05#8 [0x10#8, 0x07#8] [])
      (fun t => (t.acc, t.status, t.val1, t.val2, t.submark)) = some (0xFE#8, flags false true false false, 0xF9#8, 5#8, true) := by
  decide

/-- A-S11 in mode 1: dv = 80 sets V by ACC[7]. -/
theorem test_stdSub_address :
    after (boot .standard 0xFF#8 [0x14#8, 0x20#8] [(0x20, 0x80#8)])
      (fun t => (t.acc, t.status)) = some (0x7F#8, flags false false true true) := by
  decide

/-- L2: C and V kept. -/
theorem test_stdAnd_L2 :
    after { boot .standard 0xAA#8 [0x21#8, 0x15#8] [] with status := flags false false true true }
      (fun t => (t.acc, t.status)) = some (0#8, flags true false true true) := by
  decide

/-- L3. -/
theorem test_stdOr_L3 :
    after { boot .standard 0x0F#8 [0x32#8, 0x00#8] [] with status := flags false false true true }
      (fun t => (t.acc, t.status)) = some (0x8F#8, flags false true true true) := by
  decide

/-- L5. -/
theorem test_stdXor_L5 :
    after { boot .standard 0x5A#8 [0x43#8, 0x3F#8] [] with status := flags false false true true }
      (fun t => (t.acc, t.status)) = some (0xA5#8, flags false true true true) := by
  decide

/-- L8; MDR still holds what the fetch left (R121). -/
theorem test_stdNot_L8 :
    after { boot .standard 0xFF#8 [0x50#8, 0x01#8] [] with status := flags false false false true }
      (fun t => (t.acc, t.status, t.mdr, t.val1)) = some (0#8, flags true false false true, 1#32, 0xFF#8) := by
  decide

/-- M1: no flag. -/
theorem test_stdRead_M1 :
    after (boot .standard 0x00#8 [0x60#8, 0x20#8] [(0x20, 0x2A#8)])
      (fun t => (t.acc, t.mdr, t.mar, t.pc, t.status)) = some (0x2A#8, 0x20#32, 1#32, 2#32, flags false false false false) := by
  decide

/-- M2: a pointer load. -/
theorem test_stdRead_M2 :
    after (boot .standard 0x00#8 [0x64#8, 0x20#8] [(0x20, 0x30#8), (0x30, 0x99#8)])
      (fun t => (t.acc, t.mdr, t.mar)) = some (0x99#8, 0x30#32, 0x20#32) := by
  decide

/-- M3. -/
theorem test_stdWrite_M3 :
    after (boot .standard 0x11#8 [0x70#8, 0x3F#8] [])
      (fun t => (Memory.read t.mem 0x3F, t.mdr, t.ctl.wr)) = some (0x11#8, 0x3F#32, false) := by
  decide

/-- M4. -/
theorem test_stdWrite_M4 :
    after (boot .standard 0x11#8 [0x74#8, 0x10#8] [(0x10, 0x50#8)])
      (fun t => (Memory.read t.mem 0x50, t.mdr, t.mar)) = some (0x11#8, 0x50#32, 0x10#32) := by
  decide

/-- T1. -/
theorem test_stdGoto_T1 :
    after (boot .standard 0x00#8 [0x80#8, 0x06#8] [])
      (fun t => (t.pc, t.mdr, t.q)) = some (6#32, 6#32, [.fetch]) := by
  decide

/-- T2. -/
theorem test_stdGoto_T2 :
    after (boot .standard 0x00#8 [0x84#8, 0x10#8] [(0x10, 0xFE#8)])
      (fun t => (t.pc, t.mar)) = some (0xFE#32, 0x10#32) := by
  decide

/-- T3, S9 taken. -/
theorem test_stdBranchIfZero_T3 :
    after { boot .standard 0x00#8 [0x90#8, 0x06#8] [] with status := flags true false false false }
      (fun t => t.pc) = some 6#32 := by
  decide

/-- T5: not taken, the pointer still read. -/
theorem test_stdBranchIfZero_T5 :
    after { boot .standard 0x00#8 [0x94#8, 0x10#8] [(0x10, 0xFE#8)] with status := flags false true true true }
      (fun t => (t.pc, t.mdr, t.mar)) = some (2#32, 0xFE#32, 0x10#32) := by
  decide

/-- R128: taken on N alone. -/
theorem test_stdBranchIfNegative :
    after { boot .standard 0x00#8 [0xA0#8, 0x20#8] [] with status := flags false true false false }
      (fun t => t.pc) = some 0x20#32 := by
  decide

/-- R129: taken on V alone. -/
theorem test_stdBranchIfOverflow :
    after { boot .standard 0x00#8 [0xB0#8, 0x10#8] [] with status := flags false false true false }
      (fun t => t.pc) = some 0x10#32 := by
  decide

/-- R130: taken on C alone. -/
theorem test_stdBranchIfCarry :
    after { boot .standard 0x00#8 [0xC0#8, 0x08#8] [] with status := flags false false false true }
      (fun t => t.pc) = some 8#32 := by
  decide

/-- IO1, S10. -/
theorem test_stdOutput_IO1 :
    after (boot .standard 0xA0#8 [0xD0#8, 0x00#8] [])
      (fun t => (t.events, t.iobus, t.ctl.iognt, t.q)) = some ([.output 0xA0#8], 0xA0#8, false, [.fetch]) := by
  decide

/-- The device of P3 answers 41 with 42: the byte is staged and its handler queued behind `Fetch` (R140). -/
theorem test_stdOutput_answered :
    after { boot .standard 0x41#8 [0xD0#8, 0x00#8] [] with device := .lastPlus 1#8 }
      (fun t => (t.iobus, t.ioPending, t.ioVal, t.ioAck, t.q)) = some (0x41#8, true, 0x42#8, true, [.fetch, .ioHandler]) := by
  decide

/-- R139, hazard 1: the byte staged behind a held grant is lost and its handler stays queued. -/
theorem test_stdOutput_swallows :
    after { boot .standard 0x41#8 [0xD0#8, 0x00#8] [] with ioPending := true, ioVal := 0x66#8, ctl := { Ctl.reset with ioreq := true, iognt := true } }
      (fun t => (t.events, t.ioPending, t.ctl.iognt, t.ioAck, t.q)) = some ([.output 0x41#8], false, false, true, [.fetch, .ioHandler]) := by
  decide

/-- IO3. -/
theorem test_stdInput_IO3 :
    after { boot .standard 0x00#8 [0xE0#8, 0x00#8] [] with iobus := 0x37#8, ctl := { Ctl.reset with iognt := true } }
      (fun t => (t.acc, t.ctl.iognt)) = some (0x37#8, false) := by
  decide

/-- IO4: receiveInput(66) before `Start`; the handler grants during the instruction. -/
theorem test_stdInput_IO4 :
    after { boot .standard 0x00#8 [0xE0#8, 0x00#8] [] with ioPending := true, ioVal := 0x66#8, ctl := { Ctl.reset with ioreq := true } }
      (fun t => (t.acc, t.ctl.iognt, t.ioPending, t.q)) = some (0x66#8, false, false, [.fetch]) := by
  decide

/-- E1. -/
theorem test_stdEnd_E1 :
    after (boot .standard 0x00#8 [0xF0#8, 0x00#8] [])
      (fun t => (t.run, t.events, t.pc, t.q)) = some (.haltedEnd, [.complete], 2#32, []) := by
  decide

/-- E2: the mode and operand fields are ignored. -/
theorem test_stdEnd_E2 :
    after (boot .standard 0x00#8 [0xF7#8, 0x3F#8] [])
      (fun t => (t.run, t.pc, t.mdr)) = some (.haltedEnd, 2#32, 0x3F#32) := by
  decide

/-- M10. -/
theorem test_expAddLit_M10 :
    after (boot .expanded 0x03#8 [0x01#8, 0x05#8] [])
      (fun t => (t.acc, t.mdr, t.pc, t.mar)) = some (8#8, 5#32, 2#32, 1#32) := by
  decide

/-- M9: the upper operand bits stay in MDR. -/
theorem test_expAddMem_M9 :
    after (boot .expanded 0x01#8 [0x0C#8, 0x12#8, 0x34#8, 0x56#8, 0x78#8] [(0x12345678, 0x10#8)])
      (fun t => (t.acc, t.mdr, t.mar)) = some (0x11#8, 0x12345610#32, 0x12345678#32) := by
  decide

/-- A-S7. -/
theorem test_expSubLit :
    after (boot .expanded 0x7F#8 [0x11#8, 0xFF#8] [])
      (fun t => (t.acc, t.status)) = some (0x80#8, flags false true true false) := by
  decide

/-- A-S3. -/
theorem test_expSubMem :
    after (boot .expanded 0x09#8 [0x1C#8, 0x12#8, 0x34#8, 0x56#8, 0x78#8] [(0x12345678, 0x09#8)])
      (fun t => (t.acc, t.status)) = some (0#8, flags true false false true) := by
  decide

/-- L1. -/
theorem test_expAndLit :
    after { boot .expanded 0xF0#8 [0x21#8, 0x3C#8] [] with status := flags false false true true }
      (fun t => (t.acc, t.status)) = some (0x30#8, flags false false true true) := by
  decide

/-- L2. -/
theorem test_expAndMem :
    after { boot .expanded 0xAA#8 [0x2C#8, 0x12#8, 0x34#8, 0x56#8, 0x78#8] [(0x12345678, 0x55#8)] with status := flags false false true true }
      (fun t => (t.acc, t.status)) = some (0#8, flags true false true true) := by
  decide

/-- L3. -/
theorem test_expOrLit :
    after { boot .expanded 0x0F#8 [0x31#8, 0x80#8] [] with status := flags false false true true }
      (fun t => (t.acc, t.status)) = some (0x8F#8, flags false true true true) := by
  decide

/-- L4: an unwritten byte is 0. -/
theorem test_expOrMem :
    after { boot .expanded 0x00#8 [0x3C#8, 0x12#8, 0x34#8, 0x56#8, 0x78#8] [] with status := flags false false true true }
      (fun t => (t.acc, t.status)) = some (0#8, flags true false true true) := by
  decide

/-- L5. -/
theorem test_expXorLit :
    after { boot .expanded 0x5A#8 [0x41#8, 0xFF#8] [] with status := flags false false true true }
      (fun t => (t.acc, t.status)) = some (0xA5#8, flags false true true true) := by
  decide

/-- L6. -/
theorem test_expXorMem :
    after { boot .expanded 0x33#8 [0x4C#8, 0x12#8, 0x34#8, 0x56#8, 0x78#8] [(0x12345678, 0x33#8)] with status := flags false false true true }
      (fun t => (t.acc, t.status)) = some (0#8, flags true false true true) := by
  decide

/-- T10: the fetch wraps at the top of memory. -/
theorem test_expNot_T10 :
    after { boot .expanded 0x0F#8 [] [(0xFFFFFFFF, 0x50#8)] with pc := 0xFFFFFFFF#32 }
      (fun t => (t.acc, t.pc)) = some (0xF0#8, 0#32) := by
  decide

/-- M7: a big-endian pointer. -/
theorem test_expRead_M7 :
    after (boot .expanded 0x00#8 [0x6C#8, 0x00#8, 0x00#8, 0x10#8, 0x00#8] [(0x1001, 0x02#8), (0x20000, 0x7F#8)])
      (fun t => (t.acc, t.mdr, t.mar, t.abus)) = some (0x7F#8, 0x20000#32, 0x1004#32, 0x20000#32) := by
  decide

/-- M8: the pointer read wraps through address 0. -/
theorem test_expRead_M8 :
    after (boot .expanded 0x01#8 [0x6C#8, 0xFF#8, 0xFF#8, 0xFF#8, 0xFE#8] [])
      (fun t => (t.acc, t.mdr, t.mar)) = some (0#8, 0x6CFF#32, 2#32) := by
  decide

/-- M5. -/
theorem test_expWrite_M5 :
    after (boot .expanded 0x80#8 [0x74#8, 0xFF#8, 0xFF#8, 0xFF#8, 0xFF#8] [])
      (fun t => (Memory.read t.mem 0xFFFFFFFF, t.pc, t.mar)) = some (0x80#8, 5#32, 4#32) := by
  decide

/-- M6: the zero byte removes the entry. -/
theorem test_expWrite_M6 :
    after (boot .expanded 0x00#8 [0x74#8, 0x00#8, 0x00#8, 0x20#8, 0x00#8] [(0x2000, 0x05#8)])
      (fun t => (Memory.read t.mem 0x2000, t.mem)) = some (0#8, [(0, 0x74#8), (3, 0x20#8)]) := by
  decide

/-- T6. -/
theorem test_expGoto_T6 :
    after (boot .expanded 0x00#8 [0x84#8, 0x12#8, 0x34#8, 0x56#8, 0x78#8] [])
      (fun t => (t.pc, t.mdr, t.dbus, t.mar)) = some (0x12345678#32, 0x12345678#32, 0x78#8, 4#32) := by
  decide

/-- T7. -/
theorem test_expGoto_T7 :
    after (boot .expanded 0x00#8 [0x8C#8, 0x00#8, 0x00#8, 0x01#8, 0x00#8] [(0x100, 0xDE#8), (0x101, 0xAD#8), (0x102, 0xBE#8), (0x103, 0xEF#8)])
      (fun t => (t.pc, t.mar)) = some (0xDEADBEEF#32, 0x104#32) := by
  decide

/-- R127: not taken on Z = 0. -/
theorem test_expBranchIfZero :
    after { boot .expanded 0x00#8 [0x94#8, 0x12#8, 0x34#8, 0x56#8, 0x78#8] [] with status := flags false true true true }
      (fun t => t.pc) = some 5#32 := by
  decide

/-- R128: taken on N alone. -/
theorem test_expBranchIfNegative :
    after { boot .expanded 0x00#8 [0xA4#8, 0x12#8, 0x34#8, 0x56#8, 0x78#8] [] with status := flags false true false false }
      (fun t => t.pc) = some 0x12345678#32 := by
  decide

/-- P2: taken on V alone. -/
theorem test_expBranchIfOverflow :
    after { boot .expanded 0x00#8 [0xB4#8, 0x00#8, 0x00#8, 0x00#8, 0x30#8] [] with status := flags false false true false }
      (fun t => t.pc) = some 0x30#32 := by
  decide

/-- T8. -/
theorem test_expBranchIfCarry_T8 :
    after { boot .expanded 0x00#8 [0xC4#8, 0x00#8, 0x00#8, 0x00#8, 0x40#8] [] with status := flags false false false true }
      (fun t => t.pc) = some 0x40#32 := by
  decide

/-- IO2: the operand, not ACC. -/
theorem test_expOutputLit_IO2 :
    after (boot .expanded 0x11#8 [0xD1#8, 0x41#8] [])
      (fun t => (t.events, t.iobus)) = some ([.output 0x41#8], 0x41#8) := by
  decide

/-- P2: `output` sends MEM[FFFFFFFF] = 80. -/
theorem test_expOutputMem :
    after (boot .expanded 0x11#8 [0xDC#8, 0xFF#8, 0xFF#8, 0xFF#8, 0xFF#8] [(0xFFFFFFFF, 0x80#8)])
      (fun t => t.events) = some [.output 0x80#8] := by
  decide

/-- IO7 in Expanded mode: the stale IOBUS. -/
theorem test_expInput_IO7 :
    after (boot .expanded 0x11#8 [0xE0#8] [])
      (fun t => (t.acc, t.pc)) = some (0#8, 1#32) := by
  decide

/-- E3: the mode bit is ignored. -/
theorem test_expEnd_E3 :
    after (boot .expanded 0x00#8 [0xF8#8] [])
      (fun t => (t.run, t.pc)) = some (.haltedEnd, 1#32) := by
  decide

/-! ## Fetch, decode faults, host port -/

/-- T9: the Standard fetch wraps. -/
theorem test_fetch_T9 :
    after { boot .standard 0x01#8 [0x03#8] [] with pc := 0xFF#32 }
      (fun t => (t.cir, t.acc, t.mar, t.pc)) = some (.std 3#14, 4#8, 0#32, 1#32) := by
  decide

/-- F1. -/
theorem test_fault_F1 :
    after (boot .standard 0x00#8 [0x08#8, 0x00#8] [])
      (fun t => (t.run, t.events, t.pc, t.cir)) = some (.haltedFault (.decode (.badMode 2#2)), [.error (.decode (.badMode 2#2))], 2#32, .std 0x200#14) := by
  decide

/-- F2: the fetch transaction stays open. -/
theorem test_fault_F2 :
    after (boot .expanded 0x00#8 [0x02#8] [])
      (fun t => (t.run, t.pc, t.cir, t.mar, t.ctl.req && t.ctl.gnt && t.ctl.rd)) = some (.haltedFault (.decode (.badLength 2#3)), 1#32, .exp [2#8], 0#32, true) := by
  decide

/-- F4. -/
theorem test_fault_F4 :
    after (boot .expanded 0x00#8 [0x04#8, 0x01#8, 0x02#8, 0x03#8, 0x04#8] [])
      (fun t => (t.run, t.pc, t.cir)) = some (.haltedFault (.decode (.badForm 0#4 0#1 4#3)), 5#32, .exp [4#8, 1#8, 2#8, 3#8, 4#8]) := by
  decide

/-- F3, F5, and that F3's transaction is closed. -/
theorem test_fault_F3_F5 :
    after (boot .expanded 0#8 [0x00#8] []) (fun t => (t.run, t.pc, t.ctl.req))
        = some (.haltedFault (.decode (.badForm 0#4 0#1 0#3)), 1#32, false)
      ∧ after (boot .expanded 0#8 [0x51#8, 0x00#8] []) (fun t => t.run)
        = some (.haltedFault (.decode (.badForm 5#4 0#1 1#3))) := by
  decide

/-- R136: what each form of a device answers; the first row of a history decides. -/
theorem test_device_replies :
    deviceReply .silent [1#8] = none
      ∧ deviceReply (.lastPlus 1#8) [7#8, 0xFF#8] = some 0#8
      ∧ deviceReply (.table [([1#8], 2#8), ([1#8], 3#8)]) [1#8] = some 2#8
      ∧ deviceReply (.table [([1#8], 2#8)]) [1#8, 1#8] = none := by
  decide

/-- S7 and E1: the counts of the spec's own steps (70_reset_and_hazards.md R162). -/
theorem test_step_counts :
    stepCount (.stdAdd .direct 5#8) (flags false false false false) = 34
      ∧ stepCount (.stdEnd .direct 0#8) (flags false false false false) = 20
      ∧ stepCount (.expGoto .direct 0x12345678#32) (flags false false false false) = 59
      ∧ stepCount (.expGoto .address 0x100#32) (flags false false false false) = 85
      ∧ stepCount (.expAddMem 0#32) (flags false false false false) = 59 := by
  decide

/-- The loader places a Standard string as R59 says, refuses a short string, and is not admitted on a started machine. -/
theorem test_loader :
    seen (hostLoad [['0', '0', '0', '0', '0', '1', '1', '1', '0', '0', '1', '0', '0', '0']] State.reset) (fun t => t.mem)
        = some [(0, 0x07#8), (1, 0x08#8)]
      ∧ answers (hostLoad [['0', '0', '0']] State.reset) = false
      ∧ answers (hostLoad [] (boot .standard 0#8 [] [])) = false
      ∧ seen (hostLoad [['1', '1', '1', '1', '0', '0', '0', '0']] (State.resetIn .expanded .silent)) (fun t => t.mem)
        = some [(0, 0xF0#8)] := by
  decide

/-- R143's codes, and the outcome of a halted run (R156). -/
theorem test_fault_codes_and_outcome :
    [FaultReason.memAddr 256, .decode (.badMode 2#2), .decode (.badLength 2#3), .decode (.badForm 0#4 0#1 0#3)].map
        (fun r => r.code) = [1, 2, 3, 4]
      ∧ runOutcome (boot .standard 3#8 [] []) = none
      ∧ (runOutcome { boot .standard 3#8 [] [] with run := .haltedEnd, events := [.complete] }).map
        (fun x => (x.events, x.mem, x.registers.acc)) = some ([.complete], [], 3#8) := by
  decide

/-- A host access outside the memory faults and leaves memory unchanged (20_memory.md R56). -/
theorem test_hostPort_out_of_range :
    seen (hostWrite 256 1#8 (boot .standard 0#8 [1#8] [])) (fun t => (t.run, t.mem))
        = some (.haltedFault (.memAddr 256), [(0, 1#8)])
      ∧ seen (hostRead (-1) (boot .standard 0#8 [] [])) (fun t => t.events) = some [.error (.memAddr (-1))] := by
  decide

/-! ## Witnesses: states and operands that meet the hypotheses of each statement -/

theorem witness_DecodedBytesAreAnEncoding :
    decode .standard [0x90#8, 0xC6#8, 0xAA#8] = .ok (.stdBranchIfZero .direct 6#8, [0xAA#8])
      ∧ decode .expanded [0x50#8, 0xAA#8] = .ok (.expNot .direct, [0xAA#8]) := by
  and_intros <;> rfl

theorem witness_StandardInstructionIsTwoWords :
    0x06#8 &&& 0x3F#8 = 0xC6#8 &&& 0x3F#8
      ∧ (let s := { boot .standard 0#8 [] [] with mdr := 0x3F#32 };
        let s' := { boot .standard 1#8 [] [] with mdr := 0xFF#32 };
        s.mode = .standard ∧ s'.mode = .standard ∧ s.cir = s'.cir ∧ s.mdr &&& 0x3F#32 = s'.mdr &&& 0x3F#32) := by
  decide

/-- A form that fits, and one that does not, as `Decode` meets them. -/
theorem witness_ExpandedLengthMustFitTheForm :
    (Instr.expEnd .direct).machineMode = .expanded
      ∧ (let s := { ready .expanded 0#8 [] with cir := .exp [0xF8#8] };
        s.run = .running ∧ s.mode = .expanded ∧ s.q = [] ∧ s.cir = .exp [0xF8#8]
          ∧ legalLength ((0xF8#8).extractLsb' 0 3) = true
          ∧ (0xF8#8).extractLsb' 0 3 = ((Opcode.ofBits ((0xF8#8).extractLsb' 4 4)).classIn .expanded).legalLen .address)
      ∧ (let s := { ready .expanded 0#8 [] with cir := .exp [0x04#8, 1#8, 2#8, 3#8, 4#8] };
        s.run = .running ∧ s.mode = .expanded ∧ s.q = [] ∧ legalLength ((0x04#8).extractLsb' 0 3) = true
          ∧ (0x04#8).extractLsb' 0 3 ≠ ((Opcode.ofBits ((0x04#8).extractLsb' 4 4)).classIn .expanded).legalLen .direct) := by
  decide

/-- Both modes, at the top of each range, with each CIR form. -/
theorem witness_DatapathMicroOpsFollowTheCatalogue :
    (let s := { ready .standard 3#8 [] with pc := 0xFF#32, mar := 0xFF#32, mdr := 0xFF#32, abus := 0xFF#32 };
      WidthsOk s ∧ s.mode = .standard ∧ s.cir = .std 0#14)
      ∧ (let s := { ready .expanded 3#8 [] with pc := 0xFFFFFFFF#32, cir := .exp [0x01#8, 0x05#8] };
        WidthsOk s ∧ s.mode = .expanded ∧ s.cir = .exp [0x01#8, 0x05#8])
      ∧ (let s := { ready .expanded 3#8 [] with cir := .exp [0x0C#8, 1#8, 2#8, 3#8, 4#8] };
        WidthsOk s ∧ s.mode = .expanded ∧ s.cir = .exp [0x0C#8, 1#8, 2#8, 3#8, 4#8])
      ∧ (let s := ready .expanded 3#8 [];
        WidthsOk s ∧ s.cir = .exp [0x00#8] ∧ [0x00#8].length = (1 : Fin 5)) := by
  decide

theorem witness_OnlyAluMicroOpsWriteFlags :
    Micro.aluTwos ∈ [Micro.aluAdd .plain, .aluAdd .sub, .aluTwos, .aluAnd, .aluOr, .aluXor, .aluNot]
      ∧ Micro.aluNot ∈ [Micro.aluAnd, .aluOr, .aluXor, .aluNot]
      ∧ Micro.inc .pc ∉ [Micro.aluAdd .plain, .aluAdd .sub, .aluTwos, .aluAnd, .aluOr, .aluXor, .aluNot]
      ∧ Flag.c ≠ Flag.z := by
  decide

/-- Both clauses, at the ends of both memories. -/
theorem witness_HostPortReadsWhatItWrites :
    Memory.wf (boot .standard 0#8 [0x07#8, 0x08#8] [(255, 1#8)]).mem
      ∧ (0 ≤ (0 : Int) ∧ (0 : Int) < MachineMode.standard.memSize)
      ∧ (0 ≤ (255 : Int) ∧ (255 : Int) < MachineMode.standard.memSize)
      ∧ (0 ≤ (4294967295 : Int) ∧ (4294967295 : Int) < MachineMode.expanded.memSize)
      ∧ ¬ (0 ≤ (-1 : Int) ∧ (-1 : Int) < MachineMode.standard.memSize)
      ∧ ¬ (0 ≤ (256 : Int) ∧ (256 : Int) < MachineMode.standard.memSize)
      ∧ ¬ (0 ≤ (4294967296 : Int) ∧ (4294967296 : Int) < MachineMode.expanded.memSize) := by
  decide

/-- `write` to the first byte of the next instruction, and to its second byte across the top of memory. -/
theorem witness_WriteIsSeenByTheNextFetch :
    (let s := { ready .standard 8#8 [] with pc := 4#32 };
      Ready .standard s ∧ WidthsOk s ∧ Memory.wf s.mem ∧ (stdValue .direct 4#8 s.mem).setWidth 32 = s.pc)
      ∧ (let s := { ready .standard 8#8 [] with pc := 255#32 };
        Ready .standard s ∧ WidthsOk s ∧ Memory.wf s.mem
          ∧ (stdValue .address 9#8 s.mem).setWidth 32 = fetchAddr .standard s.pc 1)
      ∧ (let s := { ready .expanded 8#8 [] with pc := 4#32 };
        Ready .expanded s ∧ Memory.wf s.mem ∧ expTarget .direct 4#32 s.mem = fetchAddr .expanded s.pc 0)
      ∧ (let s := { ready .expanded 8#8 [] with pc := 0xFFFFFFFC#32 };
        Ready .expanded s ∧ Memory.wf s.mem ∧ 4 ≤ 4
          ∧ expTarget .address 9#32 s.mem = fetchAddr .expanded s.pc 4) := by
  decide

/-- A request that waits for a held I/O grant, and a byte staged with it. -/
def waiting (s : State) : State := { s with ctl := { s.ctl with ioreq := true, iognt := true }, ioPending := true }

/-- A handler that is queued behind the head of the queue, and acknowledged. -/
def behind (s : State) : State :=
  { s with ctl := { s.ctl with ioreq := true }, ioPending := true, ioAck := true, q := s.q ++ [.ioHandler] }

theorem witness_StandardAddResult : Ready .standard (ready .standard 3#8 [(0x20, 0x2A#8)]) := by
  decide

theorem witness_StandardSubResult : Ready .standard (ready .standard 3#8 [(0x20, 0x2A#8)]) := by
  decide

theorem witness_StandardLogicResult : Ready .standard (ready .standard 3#8 [(0x20, 0x2A#8)]) := by
  decide

theorem witness_StandardNotResult : Ready .standard (ready .standard 3#8 [(0x20, 0x2A#8)]) := by
  decide

theorem witness_StandardReadResult : Ready .standard (ready .standard 3#8 [(0x20, 0x2A#8)]) := by
  decide

theorem witness_StandardTransferResult : Ready .standard (ready .standard 3#8 [(0x20, 0x2A#8)]) := by
  decide

theorem witness_StandardEndResult : Ready .standard (ready .standard 3#8 [(0x20, 0x2A#8)]) := by
  decide

theorem witness_StandardWriteResult :
    Ready .standard (ready .standard 3#8 [(0x20, 0x2A#8)]) ∧ Memory.wf (ready .standard 3#8 [(0x20, 0x2A#8)]).mem := by
  decide

theorem witness_ExpandedAddResult : Ready .expanded (ready .expanded 3#8 [(0x1000, 0x2A#8)]) := by
  decide

theorem witness_ExpandedSubResult : Ready .expanded (ready .expanded 3#8 [(0x1000, 0x2A#8)]) := by
  decide

theorem witness_ExpandedLogicResult : Ready .expanded (ready .expanded 3#8 [(0x1000, 0x2A#8)]) := by
  decide

theorem witness_ExpandedNotResult : Ready .expanded (ready .expanded 3#8 [(0x1000, 0x2A#8)]) := by
  decide

theorem witness_ExpandedReadResult : Ready .expanded (ready .expanded 3#8 [(0x1000, 0x2A#8)]) := by
  decide

theorem witness_ExpandedTransferResult : Ready .expanded (ready .expanded 3#8 [(0x1000, 0x2A#8)]) := by
  decide

theorem witness_ExpandedEndResult : Ready .expanded (ready .expanded 3#8 [(0x1000, 0x2A#8)]) := by
  decide

theorem witness_ExpandedWriteResult :
    Ready .expanded (ready .expanded 3#8 [(0x1000, 0x2A#8)]) ∧ Memory.wf (ready .expanded 3#8 [(0x1000, 0x2A#8)]).mem := by
  decide

/-- No request, a request that waits for a held grant, and a handler queued behind. -/
theorem witness_StandardOutputResult :
    (let s := ready .standard 3#8 [(0x20, 0x2A#8)]; Ready .standard s)
      ∧ (let s := waiting (ready .standard 3#8 [(0x20, 0x2A#8)]); ReadyIo .standard s)
      ∧ (let s := behind (ready .standard 3#8 [(0x20, 0x2A#8)]); ReadyIo .standard s) := by
  decide

/-- No request, a request that waits for a held grant, and a handler queued behind. -/
theorem witness_StandardInputResult :
    (let s := ready .standard 3#8 [(0x20, 0x2A#8)]; Ready .standard s)
      ∧ (let s := waiting (ready .standard 3#8 [(0x20, 0x2A#8)]); ReadyIo .standard s)
      ∧ (let s := behind (ready .standard 3#8 [(0x20, 0x2A#8)]); ReadyIo .standard s) := by
  decide

/-- No request, a request that waits for a held grant, and a handler queued behind. -/
theorem witness_ExpandedOutputResult :
    (let s := ready .expanded 3#8 [(0x20, 0x2A#8)]; Ready .expanded s)
      ∧ (let s := waiting (ready .expanded 3#8 [(0x20, 0x2A#8)]); ReadyIo .expanded s)
      ∧ (let s := behind (ready .expanded 3#8 [(0x20, 0x2A#8)]); ReadyIo .expanded s) := by
  decide

/-- No request, a request that waits for a held grant, and a handler queued behind. -/
theorem witness_ExpandedInputResult :
    (let s := ready .expanded 3#8 [(0x20, 0x2A#8)]; Ready .expanded s)
      ∧ (let s := waiting (ready .expanded 3#8 [(0x20, 0x2A#8)]); ReadyIo .expanded s)
      ∧ (let s := behind (ready .expanded 3#8 [(0x20, 0x2A#8)]); ReadyIo .expanded s) := by
  decide

/-- MDR at the top of each mode's range. -/
theorem witness_GotoBodyCopiesMdrToPc :
    (let s := { ready .standard 0#8 [] with mdr := 0xFF#32 };
      s.run = .running ∧ s.q = [] ∧ s.ctl.ioreq = false ∧ s.ctl.clk = false ∧ s.mdr.toNat < s.mode.memSize)
      ∧ (let s := { ready .expanded 0#8 [] with mdr := 0xFFFFFFFF#32 };
        s.run = .running ∧ s.q = [] ∧ s.ctl.ioreq = false ∧ s.ctl.clk = false ∧ s.mdr.toNat < s.mode.memSize) := by
  decide

theorem witness_StandardFetchNetEffect : AtFetch .standard (boot .standard 3#8 [0x00#8, 0x05#8] []) := by
  decide

theorem witness_ExpandedFetchNetEffect :
    AtFetch .expanded (boot .expanded 3#8 [0x01#8, 0x05#8] [])
      ∧ legalLength (lengthAt (boot .expanded 3#8 [0x01#8, 0x05#8] [])) = true
      ∧ AtFetch .expanded (boot .expanded 3#8 [0x02#8] [])
      ∧ legalLength (lengthAt (boot .expanded 3#8 [0x02#8] [])) = false := by
  decide

theorem witness_StepRunsTheDecodedInstruction :
    AtFetch .standard (boot .standard 3#8 [0x00#8, 0x05#8] [])
      ∧ instrAt (boot .standard 3#8 [0x00#8, 0x05#8] []) = some (.stdAdd .direct 5#8)
      ∧ AtFetch .expanded (boot .expanded 3#8 [0x84#8, 0x12#8, 0x34#8, 0x56#8, 0x78#8] [])
      ∧ instrAt (boot .expanded 3#8 [0x84#8, 0x12#8, 0x34#8, 0x56#8, 0x78#8] [])
        = some (.expGoto .direct 0x12345678#32)
      ∧ (let s := waiting (boot .standard 3#8 [0x00#8, 0x05#8] []);
        AtFetchIo .standard s ∧ instrAt s = some (.stdAdd .direct 5#8))
      ∧ (let s := behind (boot .expanded 3#8 [0xE0#8] []);
        AtFetchIo .expanded s ∧ instrAt s = some (.expInput .direct)) := by
  decide

/-- One state per clause, the second with a handler queued. -/
theorem witness_DecodeFaultLeavesTheFetchedState :
    (let s := boot .standard 3#8 [0x08#8, 0x00#8] [];
      AtFetchIo .standard s ∧ (wordAt s).extractLsb' 8 2 = 2#2)
      ∧ (let s := { boot .standard 3#8 [0xFC#8, 0x00#8] [] with q := [.fetch, .ioHandler], ioAck := true };
        AtFetchIo .standard s ∧ (wordAt s).extractLsb' 8 2 = 3#2)
      ∧ (let s := boot .expanded 3#8 [0x07#8] [];
        AtFetchIo .expanded s ∧ legalLength (lengthAt s) = false)
      ∧ (let s := boot .expanded 3#8 [0x00#8] [];
        AtFetchIo .expanded s ∧ legalLength (lengthAt s) = true
          ∧ lengthAt s ≠ ((Opcode.ofBits ((headAt s).extractLsb' 4 4)).classIn .expanded).legalLen
            (AddrMode.ofBit ((headAt s).extractLsb' 3 1))) := by
  decide

theorem witness_StepEndsAtTheNextBoundaryOrHalts :
    AtFetchIo .standard (boot .standard 3#8 [0x00#8, 0x05#8] [])
      ∧ AtFetchIo .expanded { boot .expanded 3#8 [0xE0#8] [] with q := [.fetch, .ioHandler], ioAck := true } := by
  decide

theorem witness_InstructionTakesTheTabledSteps :
    AtFetch .standard (boot .standard 3#8 [0x00#8, 0x05#8] [])
      ∧ instrAt (boot .standard 3#8 [0x00#8, 0x05#8] []) = some (.stdAdd .direct 5#8)
      ∧ ∃ t, step (boot .standard 3#8 [0x00#8, 0x05#8] []) = .next t :=
  ⟨by decide, by decide, exists_next (by decide)⟩

theorem witness_StepIsARunOfMicroSteps :
    AtFetchIo .standard { boot .standard 3#8 [0xD0#8, 0x00#8] [] with q := [.fetch, .ioHandler], ioAck := true }
      ∧ ∃ t, step { boot .standard 3#8 [0xD0#8, 0x00#8] [] with q := [.fetch, .ioHandler], ioAck := true } = .next t :=
  ⟨by decide, exists_next (by decide)⟩

/-- An `output` met by a request that waits; a handler queued at the boundary of another instruction, of an `input` and of
an illegal encoding. -/
theorem witness_HandlerNeverDisturbsAnInstruction :
    ((Instr.stdOutput .direct 5#8).opcode ≠ .input
      ∧ ReadyIo (Instr.stdOutput .direct 5#8).machineMode (waiting (ready .standard 3#8 []))
      ∧ ∃ t, exec (.stdOutput .direct 5#8) (waiting (ready .standard 3#8 [])) = .next t)
      ∧ (let s := behind (boot .standard 3#8 [0x00#8, 0x05#8] []);
        AtFetchIo .standard s ∧ instrAt s = some (.stdAdd .direct 5#8)
          ∧ (Instr.stdAdd .direct 5#8).opcode ≠ .input ∧ ∃ t, step s = .next t)
      ∧ (let s := behind (boot .expanded 3#8 [0xE0#8] []);
        AtFetchIo .expanded s ∧ instrAt s = some (.expInput .direct) ∧ ∃ t, step s = .next t)
      ∧ (let s := behind (boot .expanded 3#8 [0x02#8] []);
        AtFetchIo .expanded s ∧ instrAt s = none ∧ ∃ t, step s = .next t) :=
  ⟨⟨by decide, by decide, exists_next (by decide)⟩, ⟨by decide, by decide, by decide, exists_next (by decide)⟩,
    ⟨by decide, by decide, exists_next (by decide)⟩, by decide, by decide, exists_next (by decide)⟩

theorem witness_EveryStepKeepsTheRecordInForm :
    Inv (boot .standard 3#8 [0x70#8, 0x3F#8] []) ∧ ∃ t, step (boot .standard 3#8 [0x70#8, 0x3F#8] []) = .next t :=
  ⟨by decide, exists_next (by decide)⟩

theorem witness_MicroStepsAndHostActionsKeepTheRecordInForm :
    Inv (boot .expanded 3#8 [0xF0#8] []) ∧ (∃ t, microStep (boot .expanded 3#8 [0xF0#8] []) = .next t)
      ∧ ∃ t, hostAct (.memWrite 4294967295 1#8) (boot .expanded 3#8 [0xF0#8] []) = .next t :=
  ⟨by decide, exists_next (by decide), exists_next (by decide)⟩

/-- A step, and a host action in each run state: Idle, Running, Paused in either clock mode, HaltedEnd, HaltedFault. -/
theorem witness_AcknowledgeMeansOneHandlerQueued :
    (let s := behind (boot .standard 3#8 [0x00#8, 0x05#8] []);
      AckOk s ∧ (∃ t, microStep s = .next t) ∧ (∃ t, step s = .next t) ∧ ∃ t, hostAct .pause s = .next t)
      ∧ (let s := { State.reset with ioPending := true, ctl := { Ctl.reset with ioreq := true } };
        AckOk s ∧ ∃ t, hostAct (.start 0) s = .next t)
      ∧ (let s := behind (boot .standard 3#8 [] []);
        let p := { s with run := .paused, savedQ := s.q, q := [] };
        AckOk p ∧ (∃ t, hostAct .resume p = .next t) ∧ ∃ t, hostAct (.receiveInput 7#8) p = .next t)
      ∧ (let p := { behind (boot .standard 3#8 [] []) with run := .paused, hz := 100 };
        AckOk p ∧ ∃ t, hostAct .resume p = .next t)
      ∧ (let s := { State.reset with run := .haltedEnd, events := [.complete] };
        AckOk s ∧ ∃ t, hostAct .reset s = .next t)
      ∧ (let s := { State.reset with run := .haltedFault (.memAddr 256), ioAck := true };
        AckOk s ∧ ∃ t, hostAct (.memWrite 0 1#8) s = .next t) :=
  ⟨⟨by decide, exists_next (by decide), exists_next (by decide), exists_next (by decide)⟩,
    ⟨by decide, exists_next (by decide)⟩, ⟨by decide, exists_next (by decide), exists_next (by decide)⟩,
    ⟨by decide, exists_next (by decide)⟩, ⟨by decide, exists_next (by decide)⟩,
    by decide, exists_next (by decide)⟩

/-- One instruction per clause. -/
theorem witness_OnlyAluInstructionsChangeFlags :
    ReadyIo .standard (ready .standard 3#8 [])
      ∧ (Instr.stdRead .direct 9#8).opcode ∉ [Opcode.add, .sub, .and, .or, .xor, .not]
      ∧ (∃ t, exec (.stdRead .direct 9#8) (ready .standard 3#8 []) = .next t)
      ∧ (Instr.stdAnd .direct 9#8).opcode ∈ [Opcode.and, .or, .xor, .not]
      ∧ ∃ t, exec (.stdAnd .direct 9#8) (ready .standard 3#8 []) = .next t :=
  ⟨by decide, by decide, exists_next (by decide), by decide, exists_next (by decide)⟩

/-- One instruction per clause. -/
theorem witness_OnlyWriteChangesMemory :
    ReadyIo .standard (ready .standard 3#8 []) ∧ ReadyIo .expanded (ready .expanded 3#8 [])
      ∧ Memory.wf (ready .standard 3#8 []).mem ∧ (Instr.stdAdd .direct 5#8).opcode ≠ .write
      ∧ (∃ t, exec (.stdAdd .direct 5#8) (ready .standard 3#8 []) = .next t)
      ∧ (∃ t, exec (.stdWrite .direct 0xFF#8) (ready .standard 3#8 []) = .next t)
      ∧ ∃ t, exec (.expWrite .address 0xFFFFFFFE#32) (ready .expanded 3#8 []) = .next t :=
  ⟨by decide, by decide, by decide, by decide, exists_next (by decide), exists_next (by decide),
    exists_next (by decide)⟩

theorem witness_StepsKeepParametersAndHistory : ∃ t, step (boot .standard 0#8 [0xF0#8, 0x00#8] []) = .next t :=
  exists_next (by decide)

/-- Each way the bus can be in use, and a free bus. -/
theorem witness_IoHandlerGrantsOrRequeues :
    ({ Ctl.reset with gnt := true }.gnt = true) ∧ ({ Ctl.reset with iognt := true }.iognt = true)
      ∧ Ctl.reset.gnt = false ∧ Ctl.reset.iognt = false := by
  decide

/-- One boundary per mode. -/
theorem witness_InputReadsTheStagedByte :
    (let s := { boot .standard 3#8 [0xE0#8, 0x00#8] [] with
        q := [.fetch, .ioHandler], ioAck := true, ioPending := true, ioVal := 0x42#8 };
      s.run = .running ∧ s.mode = .standard ∧ s.q = [.fetch, .ioHandler] ∧ s.ioAck = true ∧ s.ioPending = true
        ∧ s.ctl.gnt = false ∧ s.ctl.iognt = false ∧ instrAt s = some (.stdInput .direct 0#8)
        ∧ (Instr.stdInput .direct 0#8).opcode = .input)
      ∧ (let s := { boot .expanded 3#8 [0xE8#8] [] with
          q := [.fetch, .ioHandler], ioAck := true, ioPending := true, ioVal := 0x42#8 };
        s.run = .running ∧ s.mode = .expanded ∧ s.q = [.fetch, .ioHandler] ∧ s.ioAck = true ∧ s.ioPending = true
          ∧ s.ctl.gnt = false ∧ s.ctl.iognt = false ∧ instrAt s = some (.expInput .address)
          ∧ (Instr.expInput .address).opcode = .input) := by
  decide

/-- A waiting request and a silent device; a `receiveInput` in front of the Body, in either mode; the `input` that meets the
late handler. -/
theorem witness_OutputSwallowsAStagedInput :
    ((let s := waiting (ready .standard 3#8 []);
      (Instr.stdOutput .direct 0#8).opcode = .output ∧ ReadyIo (Instr.stdOutput .direct 0#8).machineMode s
        ∧ s.ctl.ioreq = true ∧ s.ioPending = true ∧ s.ctl.iognt = true ∧ s.ctl.gnt = false)
      ∧ seen (exec (.stdOutput .direct 0#8) (waiting (ready .standard 3#8 [])))
        (fun t => deviceReply t.device (outputsOf t.events)) = some none)
      ∧ (let s := { boot .standard 3#8 [] [] with q := outputBody };
        s.run = .running ∧ s.q = outputBody ∧ s.ioAck = false ∧ s.ctl.gnt = false ∧ s.mode = .standard
          ∧ deviceReply s.device (outputsOf (s.events ++ [.output s.acc])) = none)
      ∧ (let s := { boot .expanded 3#8 [] [] with q := outputBody, device := .table [([1#8], 2#8)] };
        s.run = .running ∧ s.q = outputBody ∧ s.ioAck = false ∧ s.ctl.gnt = false ∧ s.mode = .expanded
          ∧ deviceReply s.device (outputsOf (s.events ++ [.output (s.mdr.extractLsb' 0 8)])) = none)
      ∧ (let s := { behind (boot .expanded 3#8 [0xE0#8] []) with ioPending := false, iobus := 0x37#8 };
        AtFetchIo .expanded s ∧ s.ioAck = true ∧ s.ioPending = false ∧ s.ctl.gnt = false ∧ s.ctl.iognt = false
          ∧ instrAt s = some (.expInput .direct) ∧ (Instr.expInput .direct).opcode = .input) := by
  decide

/-- Both halts, with an action that a halt admits. -/
theorem witness_OnlyResetLeavesAHalt :
    (let s := { State.reset with run := .haltedEnd };
      isHalted s.run = true ∧ HostAct.memWrite 0 1#8 ≠ .reset ∧ ∃ t, hostAct (.memWrite 0 1#8) s = .next t)
      ∧ (let s := { State.reset with run := .haltedFault (.decode (.badMode 2#2)) };
        isHalted s.run = true ∧ HostAct.receiveInput 1#8 ≠ .reset ∧ ∃ t, hostAct (.receiveInput 1#8) s = .next t) :=
  ⟨⟨by decide, by decide, exists_next (by decide)⟩, by decide, by decide, exists_next (by decide)⟩

/-- The boundary lengths of each clause, and one string of each refused kind. -/
theorem witness_LoaderPlacesTheImage :
    (State.reset.run = .idle ∧ Memory.wf State.reset.mem ∧ State.reset.mode = .standard)
      ∧ ((List.replicate 128 0x3FFF#14).length ≤ 128 ∧ 128 < (List.replicate 129 0x3FFF#14).length)
      ∧ (let s := State.resetIn .expanded .silent; s.run = .idle ∧ s.mode = .expanded ∧ Memory.wf s.mem)
      ∧ (let codes : List (List Byte) := [[0xF0#8], [0x01#8, 5#8], [0x84#8, 1#8, 2#8, 3#8, 4#8]];
        (∀ c ∈ codes, c.length = 1 ∨ c.length = 2 ∨ c.length = 5) ∧ codes.flatten.length ≤ 4294967296)
      ∧ ¬ stringLengthOk .standard ['0', '1'].length
      ∧ (∃ c ∈ ['2', '0'], c ≠ '0' ∧ c ≠ '1')
      ∧ (boot .standard 0#8 [] []).run ≠ .idle := by
  refine ⟨by decide, by simp, by decide, ⟨by decide, by simp⟩, by simp [stringLengthOk], ⟨'2', by simp⟩, by decide⟩

/-- An image of more than 2^32 bytes: one-byte strings, one more than there are addresses. -/
theorem witness_LoaderPlacesTheImage_too_long :
    (∀ c ∈ List.replicate 4294967297 [0x00#8], c.length = 1 ∨ c.length = 2 ∨ c.length = 5)
      ∧ 4294967296 < (List.replicate 4294967297 [0x00#8]).flatten.length := by
  refine ⟨fun c hc => .inl ?_, ?_⟩
  · rw [List.eq_of_mem_replicate hc]; rfl
  · rw [List.length_flatten, List.map_replicate, List.sum_replicate]; decide

theorem witness_OnlyARunningMachineHasAStep :
    (boot .standard 0#8 [] []).run = .running ∧ (boot .standard 0#8 [] []).q = .fetch :: []
      ∧ State.reset.run ≠ .running := by
  decide

/-- Unlimited mode and timed mode. -/
theorem witness_PauseThenResumeIsTheIdentity :
    (boot .standard 0#8 [] []).run = .running ∧ (boot .standard 0#8 [] []).hz = 0 ∧ (boot .standard 0#8 [] []).savedQ = []
      ∧ (let s := { boot .standard 0#8 [] [] with hz := 100 };
        s.run = .running ∧ s.hz ≠ 0) := by
  decide

theorem witness_YieldChangesNothing :
    (boot .standard 0#8 [] []).run = .running ∧ (boot .standard 0#8 [] []).hz = 0
      ∧ (boot .standard 0#8 [] []).savedQ = [] := by
  decide

theorem witness_BootRunsTheImageFromAddressZero :
    (imageBytes .standard [['1', '1', '1', '1', '0', '0', '0', '0', '0', '0', '0', '0', '0', '0']]
        = some [0xF0#8, 0x00#8] ∧ [0xF0#8, 0x00#8].length ≤ MachineMode.standard.memSize)
      ∧ imageBytes .expanded [['1', '1', '1', '1', '0', '0', '0', '0'], ['1', '1', '1', '1', '1', '0', '0', '0']]
        = some [0xF0#8, 0xF8#8] ∧ [0xF0#8, 0xF8#8].length ≤ MachineMode.expanded.memSize := by
  decide

end Sys2Proof.Tests
end

/-! The facts of 10_state.md about the flags: what `FlagWrite` does to STATUS and the flags line (R27), what the ALU
micro-ops leave there (41_alu_arithmetic.md R110, R113 to R115), and that no other micro-op writes either (R22). -/

namespace Sys2Proof.Machine

/-! ## One flag write (R27) -/

/-- A write to one bit of STATUS is read back from that bit and changes no other. -/
theorem Status.get_write (st : Status) (f g : Flag) (b : Bool) :
    (st.write f b).get g = if g = f then b else st.get g := by
  cases f <;> cases g <;> rfl

/-- The whole effect of a flag write: the STATUS bit and the flags line, as a frame. -/
theorem State.flagWrite_eq (s : State) (f : Flag) (b : Bool) :
    s.flagWrite f b
      = { s with ctl := { s.ctl with fidx := f.index, fval := b }, status := (s.flagWrite f b).status } := rfl

/-! ## What the ALU operations leave in STATUS and on the flags line -/

/-- The flags line holds the N write, and Z and N describe the result latch: how every ALU micro-op ends (R27, R110). -/
def State.ShowsRes (s : State) : Prop :=
  s.ctl.fidx = 1#2 ∧ s.ctl.fval = s.status.n ∧ s.status.z = decide (s.res = 0#8) ∧ s.status.n = s.res.msb

/-- A state whose flags are those `zn8` of its result latch writes, on top of whatever flag writes came before. -/
theorem State.showsRes_of_zn8 {t : State} (s : State) (hctl : t.ctl = (s.zn8 t.res).ctl)
    (hstatus : t.status = (s.zn8 t.res).status) : t.ShowsRes := by
  rw [State.ShowsRes, hctl, hstatus]
  exact ⟨rfl, rfl, rfl, rfl⟩

theorem State.aluAdd_showsRes (s : State) (k : AddKind) : (s.aluAdd k).ShowsRes :=
  State.showsRes_of_zn8
    ((s.flagWrite .c (add8Carry s.val1 s.val2)).flagWrite .v (add8Overflow s.val1 s.val2)) rfl rfl

/-- The flags of `AluTwos` are those of its inner addition `add8(NOT val1, 1)`, whose sum is the result (R109). -/
theorem State.aluTwos_showsRes (s : State) : s.aluTwos.ShowsRes :=
  State.showsRes_of_zn8
    ((s.flagWrite .c (add8Carry (not8 s.val1) 1#8)).flagWrite .v (add8Overflow (not8 s.val1) 1#8)) rfl rfl

theorem State.aluBitwise_showsRes (s : State) (r : Byte) : (s.aluBitwise r).ShowsRes :=
  State.showsRes_of_zn8 (s.writeRes r) rfl rfl

@[simp] theorem State.aluBitwise_status (s : State) (r : Byte) :
    (s.aluBitwise r).status = { s.status with z := decide (r = 0#8), n := r.msb } := rfl

/-! ## The ALU micro-ops -/

/-- The bitwise ALU micro-ops (R115). -/
def bitwiseMicros : List Micro := [.aluAnd, .aluOr, .aluXor, .aluNot]

/-- The ALU micro-ops (R113 to R115). -/
def aluMicros : List Micro := [.aluAdd .plain, .aluAdd .sub, .aluTwos] ++ bitwiseMicros

theorem aluAdd_mem_aluMicros (k : AddKind) : .aluAdd k ∈ aluMicros := by
  cases k <;> decide

/-- A bitwise micro-op is `aluBitwise` of some result (R115). -/
theorem perform_bitwise {m : Micro} (h : m ∈ bitwiseMicros) (s : State) : ∃ r, perform m s = s.aluBitwise r := by
  simp only [bitwiseMicros, List.mem_cons, List.not_mem_nil, or_false] at h
  rcases h with rfl | rfl | rfl | rfl <;> exact ⟨_, rfl⟩

/-- After every ALU micro-op the flags line holds the N write, and Z and N describe `res` (R27). -/
theorem perform_alu_showsRes {m : Micro} (h : m ∈ aluMicros) (s : State) : (perform m s).ShowsRes := by
  rcases List.mem_append.mp h with h | h
  · simp only [List.mem_cons, List.not_mem_nil, or_false] at h
    rcases h with rfl | rfl | rfl
    · exact s.aluAdd_showsRes .plain
    · exact s.aluAdd_showsRes .sub
    · exact s.aluTwos_showsRes
  · obtain ⟨r, hr⟩ := perform_bitwise h s
    exact hr ▸ s.aluBitwise_showsRes r

/-! ## The other micro-ops keep STATUS and the flags line (R22) -/

/-- What a flag write changes: STATUS and the flags line. -/
def State.flagView (s : State) : Status × BitVec 2 × Bool := (s.status, s.ctl.fidx, s.ctl.fval)

theorem State.flagView_eq_iff (s t : State) :
    t.flagView = s.flagView ↔ t.status = s.status ∧ t.ctl.fidx = s.ctl.fidx ∧ t.ctl.fval = s.ctl.fval := by
  simp [State.flagView]

@[simp] theorem State.append_flagView (s : State) (ms : List Micro) : (s.append ms).flagView = s.flagView := rfl
@[simp] theorem State.writeMdr_flagView (s : State) (v : Addr) : (s.writeMdr v).flagView = s.flagView := rfl
@[simp] theorem State.setIoreq_flagView (s : State) (b : Bool) : (s.setIoreq b).flagView = s.flagView := rfl
@[simp] theorem State.setIoAck_flagView (s : State) (b : Bool) : (s.setIoAck b).flagView = s.flagView := rfl
@[simp] theorem State.raise_flagView (s : State) (r : FaultReason) : (s.raise r).flagView = s.flagView := rfl

theorem State.fetchRest_flagView (s : State) : s.fetchRest.flagView = s.flagView := by
  rcases s.fetchRest_cases with ⟨-, e⟩ | ⟨-, e⟩ <;> simp [e]

theorem State.decodeOp_flagView (s : State) : s.decodeOp.flagView = s.flagView := by
  rcases s.decodeOp_cases with ⟨_, _, e⟩ | ⟨_, e⟩ <;> simp [e]

theorem State.branchOp_flagView (s : State) (f : Flag) : (s.branchOp f).flagView = s.flagView := by
  rcases s.branchOp_cases f with ⟨-, e⟩ | ⟨-, e⟩ <;> simp [e]

theorem State.memOut_flagView (s : State) : s.memOut.flagView = s.flagView := by
  rcases s.memOut_cases with ⟨-, e⟩ | ⟨-, e⟩ <;> simp [e, State.flagView]

theorem State.memIn_flagView (s : State) : s.memIn.flagView = s.flagView := by
  rcases s.memIn_cases with ⟨-, e⟩ | ⟨-, e⟩ <;> simp [e, State.flagView]

theorem State.cirStd_flagView (s : State) (part : CirPart) : (s.cirStd part).flagView = s.flagView := by
  cases hm : s.mode <;> cases part <;> simp [State.cirStd, hm, State.flagView]

theorem State.cirExp_flagView (s : State) (k : Fin 5) : (s.cirExp k).flagView = s.flagView := by
  cases hm : s.mode <;> simp [State.cirExp, hm, State.flagView]

theorem State.setIoGrant_flagView (s : State) (b : Bool) : (s.setIoGrant b).flagView = s.flagView := by
  rcases s.setIoGrant_cases b with ⟨-, -, e⟩ | ⟨-, e⟩ <;> simp [e, State.flagView]

theorem State.ioPut_flagView (s : State) : s.ioPut.flagView = s.flagView := by
  cases hm : s.mode <;> simp [State.ioPut, hm, State.flagView]

theorem State.ioCallback_flagView (s : State) : s.ioCallback.flagView = s.flagView := by
  rcases s.ioCallback_cases with ⟨-, e⟩ | ⟨_, -, e⟩ <;> simp [e, State.flagView]

theorem State.ioHandler_flagView (s : State) : s.ioHandler.flagView = s.flagView := by
  rcases s.ioHandler_cases with ⟨-, e⟩ | ⟨-, e⟩ <;> simp [e, s.setIoGrant_flagView]

theorem State.endRun_flagView (s : State) : s.endRun.flagView = s.flagView := by
  simp [State.endRun, State.flagView]

/-- No micro-op but those of the ALU writes STATUS or the flags line (R22). -/
theorem perform_flagView {m : Micro} (h : m ∉ aluMicros) (s : State) : (perform m s).flagView = s.flagView := by
  cases m with
  | aluAdd kind => exact absurd (aluAdd_mem_aluMicros kind) h
  | aluTwos | aluAnd | aluOr | aluXor | aluNot => exact absurd (by decide) h
  | fetchRest => exact s.fetchRest_flagView
  | decode => exact s.decodeOp_flagView
  | branch f => exact s.branchOp_flagView f
  | memOut => exact s.memOut_flagView
  | memIn => exact s.memIn_flagView
  | cirStd part => exact s.cirStd_flagView part
  | cirExp k => exact s.cirExp_flagView k
  | ioOpen => exact s.setIoGrant_flagView true
  | ioClose | ioRelease => exact s.setIoGrant_flagView false
  | ioPut => exact s.ioPut_flagView
  | ioCallback => exact s.ioCallback_flagView
  | ioHandler => exact s.ioHandler_flagView
  | marFrom src => cases src <;> rfl
  | abusFrom src => cases src <;> rfl
  | dbusFrom src => cases src <;> rfl
  | load dst => cases dst <;> rfl
  | rot reg => cases reg <;> rfl
  | inc reg => cases reg <;> rfl
  | getVal latch => cases latch <;> rfl
  | fetch => exact s.append_flagView _
  | execute => exact s.append_flagView _
  | loadOperand => exact s.writeMdr_flagView _
  | busReq | busGrant | busRelease | readOn | readOff | writeOn | writeOff | inLoad => rfl
  | endRun => exact s.endRun_flagView

/-- Settles O9: the flag write by `flagWrite_eq` and `get_write`, the ALU micro-ops by how their last write leaves the
flags line, the others by the frame of each micro-op. -/
theorem onlyAluMicroOpsWriteFlags : Obligations.OnlyAluMicroOpsWriteFlags := by
  refine ⟨fun s f b => ⟨s.flagWrite_eq f b, ?_, fun g hg => ?_, rfl⟩, fun m s h => perform_alu_showsRes h s,
    fun m s h => ?_, fun m s h => (s.flagView_eq_iff _).mp (perform_flagView h s)⟩
  · simp [Status.get_write]
  · simp [Status.get_write, hg]
  · obtain ⟨r, hr⟩ := perform_bitwise h s
    simp [hr]

end Sys2Proof.Machine

/-! The reset values of 10_state.md R35. -/

namespace Sys2Proof.Machine

/-- Memory with nothing materialized reads 0 at every address (20_memory.md R38). -/
theorem Memory.read_nil (a : Nat) : Memory.read [] a = 0#8 :=
  Memory.read_eq_unlisted [] a fun _ hc => absurd hc List.not_mem_nil

/-- CIR at reset is 14 zero bits in Standard mode, the list [0x00] in Expanded mode. -/
theorem State.resetIn_cir (mode : MachineMode) (device : Device) :
    (mode = .standard → (State.resetIn mode device).cir = .std 0#14)
      ∧ (mode = .expanded → (State.resetIn mode device).cir = .exp [0x00#8]) := by
  constructor <;> rintro rfl <;> rfl

/-- Settles O52: CIR by the machine mode, memory by the read of the empty list, every other component as
`State.resetIn` writes it. -/
theorem resetGivesEveryComponentItsValue : Obligations.ResetGivesEveryComponentItsValue := by
  intro mode device
  obtain ⟨hstd, hexp⟩ := State.resetIn_cir mode device
  have hmem : ∀ a, Memory.read (State.resetIn mode device).mem a = 0#8 := Memory.read_nil
  exact ⟨rfl, rfl, rfl, rfl, rfl, hstd, hexp, rfl, rfl, rfl, rfl, rfl, rfl, rfl, rfl, rfl, hmem, fun _ => rfl, rfl, rfl,
    rfl, rfl, rfl, rfl, rfl⟩

end Sys2Proof.Machine

/-! The encodings of 30_encoding.md: the two words of a Standard instruction and its padding bits (R59), the length that
fits an Expanded form and what `Decode` does with it (R67), and the listed encodings (R72). -/

namespace Sys2Proof

/-! ## The two words of a Standard instruction (R59) -/

theorem encode_stdInstr (op : Opcode) (m : AddrMode) (n : Byte) :
    encode (stdInstr op m n) = stdBytes (stdCode op m n) := by
  cases op <;> rfl

theorem toNat_append_eq_add {v w : Nat} (x : BitVec v) (y : BitVec w) :
    (x ++ y).toNat = x.toNat * 2 ^ w + y.toNat := by
  rw [BitVec.toNat_append, Nat.shiftLeft_eq, Nat.mul_comm, Nat.two_pow_add_eq_or_of_lt y.isLt]

/-- The fields of the Standard format by weight (R58). -/
theorem stdCode_toNat (op : Opcode) (m : AddrMode) (n : Byte) :
    (stdCode op m n).toNat = op.bits.toNat * 1024 + m.bit.toNat * 256 + n.toNat := by
  simp only [stdCode, toNat_append_eq_add, BitVec.toNat_ofNat]
  omega

theorem stdCode_firstWord (op : Opcode) (m : AddrMode) (n : Byte) :
    (stdCode op m n).extractLsb' 6 8 = BitVec.ofNat 8 (op.bits.toNat * 16 + m.bit.toNat * 4 + n.toNat / 64) := by
  apply BitVec.eq_of_toNat_eq
  rw [BitVec.extractLsb'_toNat, BitVec.toNat_ofNat, stdCode_toNat, Nat.shiftRight_eq_div_pow]
  omega

theorem stdCode_secondWord (op : Opcode) (m : AddrMode) (n : Byte) :
    0#2 ++ (stdCode op m n).extractLsb' 0 6 = n &&& 0x3F#8 := by
  have hmask : n.toNat &&& 63 = n.toNat % 64 := Nat.and_two_pow_sub_one_eq_mod _ 6
  apply BitVec.eq_of_toNat_eq
  rw [toNat_append_eq_add, BitVec.extractLsb'_toNat, Nat.shiftRight_zero, stdCode_toNat, BitVec.toNat_and]
  simp only [BitVec.toNat_ofNat, hmask]
  omega

/-- Words that agree under the mask 0x3F agree in their low six bits (R44). -/
theorem setWidth_six_eq_of_and_mask_eq {w : Nat} (hw : 6 ≤ w) {x y : BitVec w}
    (h : x &&& BitVec.ofNat w 0x3F = y &&& BitVec.ofNat w 0x3F) : x.setWidth 6 = y.setWidth 6 := by
  have hmask : (BitVec.ofNat w 0x3F).setWidth 6 = BitVec.allOnes 6 := by
    rw [BitVec.setWidth_ofNat_of_le hw]; rfl
  simpa only [BitVec.setWidth_and, hmask, BitVec.and_allOnes] using congrArg (BitVec.setWidth 6) h

/-- The 14-bit word does not depend on the padding bits of its second byte (R59). -/
theorem stdWord_eq_of_and_mask_eq (w0 : Byte) {w1 w1' : Byte} (h : w1 &&& 0x3F#8 = w1' &&& 0x3F#8) :
    stdWord w0 w1 = stdWord w0 w1' := by
  have h6 := setWidth_six_eq_of_and_mask_eq (by decide) h
  rw [BitVec.setWidth_eq_extractLsb' (by decide), BitVec.setWidth_eq_extractLsb' (by decide)] at h6
  rw [stdWord, stdWord, h6]

/-- The second CIR transfer of the Standard fetch (40_control_unit.md R90). -/
theorem Machine.State.cirStd_second_cir {s : State} (hs : s.mode = .standard) :
    (s.cirStd .second).cir = .std ((cirWord s.cir).extractLsb' 6 8 ++ s.mdr.setWidth 6) := by
  simp only [State.cirStd, hs, State.writeCir_cir]

/-- Settles O3: the words by the weights of the 14-bit format, the padding bits by what the mask 0x3F keeps. -/
theorem standardInstructionIsTwoWords : Obligations.StandardInstructionIsTwoWords := by
  refine ⟨fun op m n => ?_, fun w0 w1 w1' rest h => ?_, fun s s' hs hs' hcir h => ?_⟩
  · rw [encode_stdInstr, stdBytes, stdCode_firstWord, stdCode_secondWord]
  · simp only [decode, stdWord_eq_of_and_mask_eq w0 h]
  · rw [Machine.State.cirStd_second_cir hs, Machine.State.cirStd_second_cir hs', hcir,
      setWidth_six_eq_of_and_mask_eq (by decide) h]

/-! ## The length an Expanded form requires (R67) -/

namespace Laws.EncodedLength

/-- The length law for every instruction, from its constructor's own. -/
theorem statement_all : ∀ i : Instr, Statement i
  | .stdAdd m n => stdAdd m n
  | .stdSub m n => stdSub m n
  | .stdAnd m n => stdAnd m n
  | .stdOr m n => stdOr m n
  | .stdXor m n => stdXor m n
  | .stdNot m n => stdNot m n
  | .stdRead m n => stdRead m n
  | .stdWrite m n => stdWrite m n
  | .stdGoto m n => stdGoto m n
  | .stdBranchIfZero m n => stdBranchIfZero m n
  | .stdBranchIfNegative m n => stdBranchIfNegative m n
  | .stdBranchIfOverflow m n => stdBranchIfOverflow m n
  | .stdBranchIfCarry m n => stdBranchIfCarry m n
  | .stdOutput m n => stdOutput m n
  | .stdInput m n => stdInput m n
  | .stdEnd m n => stdEnd m n
  | .expAddLit n => expAddLit n
  | .expAddMem a => expAddMem a
  | .expSubLit n => expSubLit n
  | .expSubMem a => expSubMem a
  | .expAndLit n => expAndLit n
  | .expAndMem a => expAndMem a
  | .expOrLit n => expOrLit n
  | .expOrMem a => expOrMem a
  | .expXorLit n => expXorLit n
  | .expXorMem a => expXorMem a
  | .expNot m => expNot m
  | .expRead m a => expRead m a
  | .expWrite m a => expWrite m a
  | .expGoto m a => expGoto m a
  | .expBranchIfZero m a => expBranchIfZero m a
  | .expBranchIfNegative m a => expBranchIfNegative m a
  | .expBranchIfOverflow m a => expBranchIfOverflow m a
  | .expBranchIfCarry m a => expBranchIfCarry m a
  | .expOutputLit n => expOutputLit n
  | .expOutputMem a => expOutputMem a
  | .expInput m => expInput m
  | .expEnd m => expEnd m

end Laws.EncodedLength

theorem encode_length_of_expanded {i : Instr} (hi : i.machineMode = .expanded) :
    (encode i).length = 1 + ((i.opcode.classIn .expanded).legalLen i.addrMode).toNat := by
  have h := (Laws.EncodedLength.statement_all i).1
  rw [hi] at h
  exact h

end Sys2Proof

namespace Sys2Proof.Machine

/-! ## What a clock cycle adds to its micro-op -/

@[simp] theorem State.ioCheck_run (s : State) : s.ioCheck.run = s.run := by
  rcases s.ioCheck_cases with ⟨-, -, e⟩ | ⟨-, e⟩ <;> simp [e]

/-- The I/O check puts only handlers behind the queue (40_control_unit.md R76). -/
theorem State.ioCheck_q (s : State) : ∃ hs, s.ioCheck.q = s.q ++ hs ∧ ∀ h ∈ hs, h = .ioHandler := by
  rcases s.ioCheck_cases with ⟨-, -, e⟩ | ⟨-, e⟩
  · exact ⟨[.ioHandler], by simp [e]⟩
  · exact ⟨[], by simp [e]⟩

/-- A clock cycle whose micro-op leaves the machine Running ends with the I/O check (R73). -/
theorem tick_running {f : State → State} {s : State} (hr : (f (s.setClk true)).run = .running) :
    tick f s = (f (s.setClk true)).ioCheck.setClk false := by
  rcases State.afterMicro_cases (f (s.setClk true)) with ⟨-, h⟩ | ⟨h, -⟩
  · simp only [tick, h]
  · exact absurd hr h

/-- A micro-op that appends to the queue: the machine runs on, and at most a handler stands behind what it appended. -/
theorem dispatch_of_perform_append {m : Micro} {s : State} {ms : List Micro} (hr : s.run = .running)
    (hp : perform m (s.setClk true) = (s.setClk true).append ms) :
    (dispatch m s).run = .running ∧ ∃ hs, (dispatch m s).q = s.q ++ ms ++ hs ∧ ∀ h ∈ hs, h = .ioHandler := by
  have ht : dispatch m s = ((s.setClk true).append ms).ioCheck.setClk false := by
    rw [dispatch, tick_running (by simp [hp, hr]), hp]
  obtain ⟨hs, hioq, hio⟩ := ((s.setClk true).append ms).ioCheck_q
  exact ⟨by simp [ht, hr], hs, by simp [ht, hioq], hio⟩

theorem dispatch_run_of_perform_raise {m : Micro} {s : State} {r : FaultReason}
    (hp : perform m (s.setClk true) = (s.setClk true).raise r) : (dispatch m s).run = .haltedFault r := by
  rw [dispatch, tick_halted (by simp [hp]), hp]
  simp

/-! ## `Decode` in Expanded mode (R67, R97) -/

/-- The two outcomes of `Decode` on an Expanded CIR, by the fields of its first byte. -/
theorem State.decodeOp_expanded {s : State} {b0 : Byte} {bs : List Byte} (hm : s.mode = .expanded)
    (hcir : s.cir = .exp (b0 :: bs)) :
    s.decodeOp
      = if b0.extractLsb' 0 3 = ((Opcode.ofBits (b0.extractLsb' 4 4)).classIn .expanded).legalLen
            (AddrMode.ofBit (b0.extractLsb' 3 1)) then
          s.append (getOpExp ((Opcode.ofBits (b0.extractLsb' 4 4)).classIn .expanded)
            (AddrMode.ofBit (b0.extractLsb' 3 1)) ++ [.execute])
        else
          s.raise (.decode (.badForm (b0.extractLsb' 4 4) (b0.extractLsb' 3 1) (b0.extractLsb' 0 3))) := by
  simp only [State.decodeOp, hm, State.decodeExpOp, cirOpcode, cirHead, cirBytes, hcir, List.headD_cons]

/-- Settles O4: the classes per opcode, the lengths per instruction, and `Decode` by whether the length is the one its
class and mode require. -/
theorem expandedLengthMustFitTheForm : Obligations.ExpandedLengthMustFitTheForm := by
  refine ⟨fun op => by cases op <;> rfl, ⟨rfl, rfl, fun m => by cases m <;> rfl, fun m => by cases m <;> rfl⟩,
    fun i => encode_length_of_expanded, fun s b0 bs hr hm hq hcir _ => ?_⟩
  have hd := State.decodeOp_expanded (s := s.setClk true) hm hcir
  intro cls m
  split
  · rename_i hfit
    have h := dispatch_of_perform_append (m := .decode) hr (hd.trans (if_pos hfit))
    rwa [hq, List.nil_append] at h
  · rename_i hfit
    exact dispatch_run_of_perform_raise (m := .decode) (hd.trans (if_neg hfit))

end Sys2Proof.Machine

namespace Sys2Proof

/-! ## The listed encodings (R72) -/

/-- Settles O5: each listed row is computed, first its decoding and then its encoding. -/
theorem listedEncodingsDecodeAsListed : Obligations.ListedEncodingsDecodeAsListed := by
  exact ⟨⟨rfl, rfl⟩, ⟨rfl, rfl⟩, ⟨rfl, rfl⟩, ⟨rfl, rfl⟩, ⟨rfl, rfl⟩, ⟨rfl, rfl⟩,
    ⟨rfl, rfl⟩, ⟨rfl, rfl⟩, ⟨rfl, rfl⟩, ⟨rfl, rfl⟩, ⟨rfl, rfl⟩⟩

end Sys2Proof

/-! The Standard fetch of 40_control_unit.md: a sequence of register, bus and memory micro-ops runs, with no I/O request
waiting, as the plain composition of their effects, for the steps of R73 and for a phase of the model's step alike; the
net effect of the Standard fetch (R93) is that composition for its list. -/

namespace Sys2Proof.Machine

/-! ## Micro-ops that leave the control unit alone -/

/-- The micro-ops of the datapath and handshake catalogue (R78 to R92), which touch neither the queue nor the I/O
arbiter. -/
def Micro.isDatapath : Micro → Bool
  | .busReq | .busGrant | .busRelease | .readOn | .readOff | .writeOn | .writeOff | .marFrom _ | .abusFrom _ | .memOut
  | .memIn | .dbusFrom _ | .load _ | .rot _ | .inc _ | .cirStd _ | .cirExp _ | .loadOperand => true
  | _ => false

/-- The address a micro-op accesses memory at is one of the machine's (R40). -/
def Micro.AccessOk (m : Micro) (s : State) : Prop :=
  m = .memOut ∨ m = .memIn → s.abus.toNat < s.mode.memSize

/-- A micro-op whose effect neither reads nor changes what the step of R73 works with. -/
structure Micro.Transparent (m : Micro) (s : State) : Prop where
  run_eq : (perform m s).run = s.run
  ioreq_eq : (perform m s).ctl.ioreq = s.ctl.ioreq
  clk_eq : (perform m s).ctl.clk = s.ctl.clk
  commutes : ∀ ms b, perform m ((s.setQ ms).setClk b) = ((perform m s).setQ ms).setClk b

theorem State.cirStd_transparent (s : State) (part : CirPart) : (Micro.cirStd part).Transparent s := by
  obtain ⟨mode⟩ := s
  cases mode <;> cases part <;> exact ⟨rfl, rfl, rfl, fun _ _ => rfl⟩

theorem State.cirExp_transparent (s : State) (k : Fin 5) : (Micro.cirExp k).Transparent s := by
  obtain ⟨mode⟩ := s
  cases mode <;> exact ⟨rfl, rfl, rfl, fun _ _ => rfl⟩

theorem State.memOut_transparent {s : State} (h : s.abus.toNat < s.mode.memSize) : Micro.memOut.Transparent s := by
  have e : perform .memOut s = s.driveDbus (Memory.read s.mem s.abus.toNat) := s.memOut_eq h
  exact ⟨by rw [e]; rfl, by rw [e]; rfl, by rw [e]; rfl, fun ms b => by
    rw [e]; exact ((s.setQ ms).setClk b).memOut_eq h⟩

theorem State.memIn_transparent {s : State} (h : s.abus.toNat < s.mode.memSize) : Micro.memIn.Transparent s := by
  have e : perform .memIn s = s.setMem (Memory.write s.mem s.abus.toNat s.dbus) := s.memIn_eq h
  exact ⟨by rw [e]; rfl, by rw [e]; rfl, by rw [e]; rfl, fun ms b => by
    rw [e]; exact ((s.setQ ms).setClk b).memIn_eq h⟩

theorem Micro.transparent_of_isDatapath {m : Micro} {s : State} (hm : m.isDatapath = true) (ha : m.AccessOk s) :
    m.Transparent s := by
  cases m with
  | memOut => exact State.memOut_transparent (ha (.inl rfl))
  | memIn => exact State.memIn_transparent (ha (.inr rfl))
  | cirStd part => exact s.cirStd_transparent part
  | cirExp k => exact s.cirExp_transparent k
  | marFrom src | abusFrom src | dbusFrom src => cases src <;> exact ⟨rfl, rfl, rfl, fun _ _ => rfl⟩
  | load reg | rot reg | inc reg => cases reg <;> exact ⟨rfl, rfl, rfl, fun _ _ => rfl⟩
  | busReq | busGrant | busRelease | readOn | readOff | writeOn | writeOff | loadOperand =>
    exact ⟨rfl, rfl, rfl, fun _ _ => rfl⟩
  | fetch | fetchRest | decode | execute | branch _ | getVal _ | aluAdd _ | aluTwos | aluAnd | aluOr | aluXor | aluNot
  | ioOpen | ioPut | ioCallback | ioClose | inLoad | ioRelease | ioHandler | endRun => cases hm

theorem Micro.not_atDecodeOrFetch_of_isDatapath {m : Micro} (hm : m.isDatapath = true) : atDecodeOrFetch m = false := by
  have hdecode : m ≠ .decode := by rintro rfl; cases hm
  have hfetch : m ≠ .fetch := by rintro rfl; cases hm
  simp [atDecodeOrFetch, hdecode, hfetch]

/-! ## Runs of such micro-ops -/

/-- Running, with no I/O request waiting and the clock line low, as between two steps (R73). -/
structure State.Quiet (s : State) : Prop where
  running : s.run = .running
  noRequest : s.ctl.ioreq = false
  clkLow : s.ctl.clk = false

/-- The effects of a list of micro-ops, one after the other. -/
def performAll (ms : List Micro) (s : State) : State := ms.foldl (fun t m => perform m t) s

@[simp] theorem performAll_nil (s : State) : performAll [] s = s := rfl

@[simp] theorem performAll_cons (m : Micro) (ms : List Micro) (s : State) :
    performAll (m :: ms) s = performAll ms (perform m s) := rfl

@[simp] theorem performAll_append (ms ms' : List Micro) (s : State) :
    performAll (ms ++ ms') s = performAll ms' (performAll ms s) := List.foldl_append

/-- A list of datapath micro-ops that only accesses addresses of the machine when it runs from `s`. -/
def DatapathFrom : List Micro → State → Prop
  | [], _ => True
  | m :: ms, s => m.isDatapath = true ∧ m.AccessOk s ∧ DatapathFrom ms (perform m s)

theorem datapathFrom_append (ms ms' : List Micro) (s : State) :
    DatapathFrom (ms ++ ms') s ↔ DatapathFrom ms s ∧ DatapathFrom ms' (performAll ms s) := by
  induction ms generalizing s with
  | nil => simp [DatapathFrom, performAll]
  | cons m ms ih => simp [DatapathFrom, ih, and_assoc]

theorem State.Quiet.perform {s : State} {m : Micro} (h : s.Quiet) (hm : m.Transparent s) : (perform m s).Quiet :=
  ⟨hm.run_eq.trans h.running, hm.ioreq_eq.trans h.noRequest, hm.clk_eq.trans h.clkLow⟩

theorem State.Quiet.setClk_false {s : State} (h : s.Quiet) : s.setClk false = s := by
  rw [← h.clkLow]
  rfl

/-- The dispatch of a popped micro-op that leaves the control unit alone is its effect (R73). -/
theorem dispatch_of_transparent {m : Micro} {s : State} (hs : s.Quiet) (hm : m.Transparent s) (rest : List Micro) :
    dispatch m (s.setQ rest) = (perform m s).setQ rest := by
  have h := hs.perform hm
  have e := hm.commutes rest true
  rw [dispatch, tick_quiet (by rw [e]; exact h.running) (by rw [e]; exact h.noRequest), e]
  exact congrArg (State.setQ · rest) h.setClk_false

theorem microRun_cons {s : State} {m : Micro} {rest : List Micro} (hr : s.run = .running)
    (hq : s.q = m :: rest) (n : Nat) : microRun (n + 1) s = microRun n (dispatch m (s.setQ rest)) := by
  simp [microRun, microStep, hr, hq]

/-- Steps of R73 are a phase that no head ends. -/
theorem microRun_eq_runUntil (n : Nat) (s : State) : microRun n s = runUntil (fun _ => false) n s := by
  induction n generalizing s with
  | zero => rfl
  | succ n ih =>
    cases hr : s.run with
    | running =>
      cases hq : s.q with
      | nil => simp [microRun, microStep, runUntil, hr, hq]
      | cons m rest => rw [microRun_cons hr hq, runUntil_step hr hq rfl, ih]
    | idle | paused | haltedEnd | haltedFault => simp [microRun, microStep, runUntil, hr]

/-- A phase dispatches datapath micro-ops as the composition of their effects, where `stop` picks none of them. -/
theorem runUntil_datapath {stop : Micro → Bool} (hstop : ∀ m : Micro, m.isDatapath = true → stop m = false)
    {ms : List Micro} {s : State} (hs : s.Quiet) (hd : DatapathFrom ms s) (rest : List Micro) (n : Nat) :
    runUntil stop (ms.length + n) (s.setQ (ms ++ rest)) = runUntil stop n ((performAll ms s).setQ rest) := by
  induction ms generalizing s with
  | nil => rw [List.length_nil, Nat.zero_add]; rfl
  | cons m ms ih =>
    obtain ⟨hm, ha, hd⟩ := hd
    have ht := Micro.transparent_of_isDatapath hm ha
    calc runUntil stop ((ms.length + 1) + n) (s.setQ (m :: (ms ++ rest)))
        = runUntil stop (ms.length + n + 1) (s.setQ (m :: (ms ++ rest))) := by rw [Nat.add_right_comm]
      _ = runUntil stop (ms.length + n) (dispatch m (s.setQ (ms ++ rest))) :=
          runUntil_step hs.running rfl (hstop m hm)
      _ = runUntil stop (ms.length + n) ((perform m s).setQ (ms ++ rest)) := by rw [dispatch_of_transparent hs ht]
      _ = runUntil stop n ((performAll ms (perform m s)).setQ rest) := ih (hs.perform ht) hd

/-- The same as steps of R73. -/
theorem microRun_datapath {ms : List Micro} {s : State} (hs : s.Quiet) (hd : DatapathFrom ms s) (rest : List Micro) :
    microRun ms.length (s.setQ (ms ++ rest)) = (performAll ms s).setQ rest := by
  rw [microRun_eq_runUntil]
  exact runUntil_datapath (fun _ _ => rfl) hs hd rest 0

/-! ## The Standard fetch (R93) -/

/-- An A-bit register wraps (20_memory.md R47). -/
theorem fitTo_fitTo_add (mode : MachineMode) (v k : Addr) : fitTo mode (fitTo mode v + k) = fitTo mode (v + k) := by
  cases mode
  · apply BitVec.eq_of_toNat_eq
    simp only [fitTo, BitVec.toNat_setWidth, BitVec.toNat_add]
    omega
  · rfl

/-- The read of one instruction word at MAR, of which the Standard fetch has two. -/
def readWord (part : CirPart) : List Micro := [.abusFrom .mar, .memOut, .load .mdr, .cirStd part]

/-- The bus transaction a fetch opens, with MAR on the instruction's first byte. -/
def openFetch : List Micro := [.busReq, .busGrant, .marFrom .pc, .readOn]

/-- The end of the Standard fetch's bus transaction, with PC moved past the instruction. -/
def closeFetchStd : List Micro := [.readOff, .inc .pc, .busRelease]

/-- What the Standard fetch dispatches before `Decode`. -/
def fetchStdWords : List Micro :=
  openFetch ++ readWord .first ++ [.inc .mar] ++ readWord .second ++ closeFetchStd

theorem fetchStd_eq : fetchStd = fetchStdWords ++ [.decode] := rfl

theorem performAll_openFetch (s : State) :
    performAll openFetch s
      = { s with mar := fitTo s.mode s.pc, ctl := { s.ctl with req := true, gnt := true, rd := true } } := rfl

theorem perform_incMar (s : State) : perform (.inc .mar) s = { s with mar := fitTo s.mode (s.mar + 1#32) } := rfl

theorem performAll_closeFetchStd {s : State} (hm : s.mode = .standard) :
    performAll closeFetchStd s
      = { s with
          pc := fitTo .standard (s.pc + 2#32)
          ctl := { s.ctl with req := false, gnt := false, rd := false } } := by
  rw [← show pcIncrement s.mode = 2#32 by rw [hm]; rfl, ← hm]
  rfl

/-- The 14 bits of CIR with one of its two parts replaced from a word (R90). -/
def CirPart.put (w : Byte) (word : BitVec 14) : CirPart → BitVec 14
  | .first => w ++ word.extractLsb' 0 6
  | .second => word.extractLsb' 6 8 ++ w.setWidth 6

theorem State.cirStd_eq_put {s : State} (hm : s.mode = .standard) (part : CirPart) :
    s.cirStd part = s.writeCir (.std (part.put (s.mdr.setWidth 8) (cirWord s.cir))) := by
  cases part
  · simp only [State.cirStd, hm, CirPart.put]
  · simp only [State.cirStd, hm, CirPart.put, BitVec.setWidth_setWidth_of_le _ (show 6 ≤ 8 by decide)]

/-- Both parts together are the instruction of the two words (20_memory.md R44). -/
theorem CirPart.put_second_put_first (w0 w1 : Byte) (word : BitVec 14) :
    CirPart.second.put w1 (CirPart.first.put w0 word) = stdWord w0 w1 := by
  rw [CirPart.put, CirPart.put, BitVec.extractLsb'_append_eq_left, BitVec.setWidth_eq_extractLsb' (by decide), stdWord]

/-- The read of one word: the byte at MAR goes over DATABUS into MDR and from there into CIR. -/
theorem performAll_readWord {s : State} (hm : s.mode = .standard) (part : CirPart) :
    performAll (readWord part) s
      = { s with
          abus := fitTo .standard s.mar
          dbus := Memory.read s.mem (fitTo .standard s.mar).toNat
          mdr := (Memory.read s.mem (fitTo .standard s.mar).toNat).setWidth 32
          cir := .std (part.put (Memory.read s.mem (fitTo .standard s.mar).toNat) (cirWord s.cir)) } := by
  have hmem : perform .memOut (s.driveAbus s.mar)
      = (s.driveAbus s.mar).driveDbus (Memory.read s.mem (fitTo s.mode s.mar).toNat) :=
    State.memOut_eq _ (fitTo_lt _ _)
  calc performAll (readWord part) s
      = ((perform .memOut (s.driveAbus s.mar)).load .mdr).cirStd part := rfl
    _ = _ := by
      rw [hmem, State.cirStd_eq_put (by exact hm)]
      simp [State.load, State.writeMdr, State.writeCir, State.driveAbus, State.driveDbus, loadTail, hm]

theorem datapathFrom_readWord (s : State) (part : CirPart) : DatapathFrom (readWord part) s := by
  have hmem : (perform (.abusFrom .mar) s).abus.toNat < (perform (.abusFrom .mar) s).mode.memSize := fitTo_lt _ _
  simp [readWord, DatapathFrom, Micro.isDatapath, Micro.AccessOk, hmem]

theorem datapathFrom_fetchStdWords (s : State) : DatapathFrom fetchStdWords s := by
  simp [fetchStdWords, datapathFrom_append, datapathFrom_readWord, openFetch, closeFetchStd, DatapathFrom,
    Micro.isDatapath, Micro.AccessOk]

/-- The net effect of R93's list but for the queue: the two parts of CIR are the word at PC, and the incremented MAR is
the wrapped address of its second byte. -/
theorem performAll_fetchStdWords {s : State} (hm : s.mode = .standard) :
    performAll fetchStdWords (s.setClk false) = (fetched s).setQ s.q := by
  simp [fetchStdWords, performAll_openFetch, perform_incMar, performAll_closeFetchStd, performAll_readWord, fetched,
    fetchedTo, codeAt, wordAt, fetchAddr, loadTail, cirWord, CirPart.put_second_put_first, fitTo_fitTo_add,
    State.setQ, hm]

/-- The dispatch of `Fetch` with no I/O request waiting. -/
theorem dispatch_fetch {s : State} (hr : s.run = .running) (hi : s.ctl.ioreq = false) :
    dispatch .fetch s = (s.append (fetchOf s.mode)).setClk false := by
  rw [dispatch, tick_quiet hr hi]
  rfl

/-- Settles O34: `Fetch` appends R93's list, whose micro-ops before `Decode` run as the composition of their effects, as
steps of R73 and as the fetch phase. -/
theorem standardFetchNetEffect : Obligations.StandardFetchNetEffect := by
  refine ⟨rfl, fun s ⟨hr, hm, hq, hi⟩ => ?_⟩
  have hquiet : (s.setClk false).Quiet := ⟨hr, hi, rfl⟩
  have hfetch : dispatch .fetch (s.setQ []) = (s.setClk false).setQ (fetchStdWords ++ [.decode]) := by
    rw [dispatch_fetch (by simpa) (by simpa), State.setQ_mode, hm, fetchOf, fetchStd_eq]
    rfl
  have heffect : (performAll fetchStdWords (s.setClk false)).setQ [.decode] = { fetched s with q := [.decode] } := by
    rw [performAll_fetchStdWords hm]
    rfl
  have hsteps : microRun 17 s = { fetched s with q := [.decode] } := by
    rw [microRun_cons hr hq, hfetch, ← heffect]
    exact microRun_datapath hquiet (datapathFrom_fetchStdWords _) _
  have hphase : fetchPhase s = { fetched s with q := [.decode] } := by
    simp only [fetchPhase, hq, hfetch, reduceCtorEq, if_false, ← heffect]
    rw [show Config.phaseFuel = fetchStdWords.length + 48 from rfl,
      runUntil_datapath (fun _ => Micro.not_atDecodeOrFetch_of_isDatapath) hquiet (datapathFrom_fetchStdWords _)]
    exact runUntil_stop _ rfl rfl
  exact ⟨hsteps, hphase.trans hsteps.symm⟩

end Sys2Proof.Machine

/-! The arithmetic of the ALU (41_alu_arithmetic.md R108, R109): `add8` is the sum of bit vectors, its ripple of full
adders is the carry chain of that sum, and `twos8` is its negation. -/

namespace Sys2Proof.Machine

/-! ## The result and the carry of `add8` (R108) -/

/-- The addition modulo 256 is the library's addition of bit vectors. -/
theorem add8_eq_add (a b : Byte) : add8 a b = a + b := rfl

/-- The carry out of a full adder is the majority of its three inputs. -/
theorem fullCarry_eq_atLeastTwo (a b c : Bool) : fullCarry a b c = Bool.atLeastTwo a b c := by
  rw [fullCarry, Bool.and_or_distrib_left, Bool.and_comm c a, Bool.and_comm c b, ← Bool.or_assoc]

/-- The ripple of full adders carries what the sums of the low bits carry. -/
theorem rippleCarry_eq_carry {w : Nat} (a b : BitVec w) (i : Nat) :
    rippleCarry a b i = BitVec.carry i a b false := by
  induction i with
  | zero => exact BitVec.carry_zero.symm
  | succ i ih => rw [rippleCarry, ih, fullCarry_eq_atLeastTwo, BitVec.carry_succ]

/-- Each bit of a sum is a full adder's. -/
theorem getLsbD_add_eq_rippleBit {w : Nat} {a b : BitVec w} {i : Nat} (h : i < w) :
    (a + b).getLsbD i = rippleBit a b i := by
  rw [BitVec.getLsbD_add h, rippleBit, rippleCarry_eq_carry, fullSum, Bool.bne_eq_xor, Bool.xor_assoc]

/-- The carry of `add8` is the carry out of its top bit. -/
theorem add8Carry_eq_rippleCarry (a b : Byte) : add8Carry a b = rippleCarry a b 8 := by
  rw [rippleCarry_eq_carry, BitVec.carry_width]
  rfl

/-! ## The flag writes of `add8` (R108) -/

/-- The overflow rule on the sign bits, which are the bits 7. -/
theorem add8Overflow_eq_getLsbD (a b : Byte) :
    add8Overflow a b = (a.getLsbD 7 == b.getLsbD 7 && (add8 a b).getLsbD 7 != a.getLsbD 7) := by
  simp only [add8Overflow, BitVec.msb_eq_getLsbD_last]

/-- The whole effect of `add8`'s flag writes: they set all of STATUS, and the N write stays on the flags line. -/
theorem State.addFlags_eq (s : State) (a b : Byte) :
    s.addFlags a b =
      { s with
        status := { z := decide (add8 a b = 0#8), n := (add8 a b).msb, v := add8Overflow a b, c := add8Carry a b }
        ctl := { s.ctl with fidx := 1#2, fval := (add8 a b).msb } } := rfl

/-- Settles O6: the result and its bits by the addition of bit vectors, the carry by its carry chain, the flags by the
order of the four writes. -/
theorem addEightAddsAndWritesTheFourFlags : Obligations.AddEightAddsAndWritesTheFourFlags := by
  intro a b s
  refine ⟨?_, fun j hj => ?_, add8Carry_eq_rippleCarry a b, ?_, ?_⟩
  · rw [add8_eq_add]
    exact BitVec.toNat_add a b
  · rw [add8_eq_add, getLsbD_add_eq_rippleBit hj]
  · rw [← add8Overflow_eq_getLsbD]
    rfl
  · rw [State.addFlags_eq, ← add8Overflow_eq_getLsbD]
    rfl

/-! ## The two's complement (R109) -/

theorem twos8_eq_neg (x : Byte) : twos8 x = -x := by
  rw [twos8, add8_eq_add, not8, BitVec.neg_eq_not_add]

theorem twos8_twos8 (x : Byte) : twos8 (twos8 x) = x := by
  rw [twos8_eq_neg, twos8_eq_neg, BitVec.neg_neg]

/-- Only the negation of 0 is 0. -/
theorem twos8_eq_zero_iff (x : Byte) : twos8 x = 0#8 ↔ x = 0#8 := by
  rw [twos8_eq_neg, BitVec.neg_eq_zero_iff]

/-- `NOT x + 1` carries only for `NOT x = 0xFF`. -/
theorem add8Carry_not8_one (x : Byte) : add8Carry (not8 x) 1#8 = decide (x = 0#8) := by
  have hnot : (not8 x).toNat = 255 - x.toNat := BitVec.toNat_not
  have hone : (1#8).toNat = 1 := rfl
  rw [add8Carry, decide_eq_decide, hnot, hone]
  bv_omega

/-- `NOT x + 1` overflows only for `NOT x = 0x7F`: when `x` and its negation are both negative. -/
theorem add8Overflow_not8_one (x : Byte) : add8Overflow (not8 x) 1#8 = decide (x = 0x80#8) := by
  have hneg : add8 (not8 x) 1#8 = -x := twos8_eq_neg x
  have hsigns : add8Overflow (not8 x) 1#8 = (x.msb && (-x).msb) := by
    rw [add8Overflow, hneg, not8, BitVec.msb_not]
    cases x.msb <;> cases (-x).msb <;> rfl
  rw [hsigns, BitVec.msb_eq_decide, BitVec.msb_eq_decide, ← Bool.decide_and, decide_eq_decide]
  bv_omega

/-- Settles O7: the value as the negation of bit vectors, the flags as those of the inner addition `add8(NOT x, 1)`. -/
theorem twosComplementNegatesInVal1 : Obligations.TwosComplementNegatesInVal1 := by
  refine ⟨fun x => ⟨rfl, ?value, twos8_twos8 x⟩, fun s => ?effect⟩
  case value =>
    rw [twos8_eq_neg]
    exact BitVec.toNat_neg x
  case effect =>
    have hsum : add8 (not8 s.val1) 1#8 = twos8 s.val1 := rfl
    rw [State.aluTwos, State.addFlags_eq, add8Carry_not8_one, add8Overflow_not8_one, hsum]
    simp only [twos8_eq_zero_iff]
    rfl

end Sys2Proof.Machine

/-! The transfer of 44_control_transfer.md from MDR to PC (R124): one byte in Standard mode, four rounds in Expanded
mode, each of which moves the first byte of MDR to the end of PC. -/

namespace Sys2Proof.Machine

/-! ## A 32-bit register as its four bytes -/

/-- The register of four bytes, the most significant first. -/
def fourBytes (b3 b2 b1 b0 : Byte) : Addr := b3 ++ b2 ++ b1 ++ b0

theorem exists_fourBytes (v : Addr) : ∃ b3 b2 b1 b0, v = fourBytes b3 b2 b1 b0 := by
  refine ⟨v.extractLsb' 24 8, v.extractLsb' 16 8, v.extractLsb' 8 8, v.extractLsb' 0 8, ?_⟩
  simp [fourBytes]

/-- The byte that `DbusFrom(MDR)` drives is the last one (R86). -/
@[simp] theorem setWidth_fourBytes (b3 b2 b1 b0 : Byte) : (fourBytes b3 b2 b1 b0).setWidth 8 = b0 :=
  BitVec.setWidth_append_eq_right

/-- `Load` replaces the last byte (R87). -/
@[simp] theorem loadTail_fourBytes (b3 b2 b1 b0 d : Byte) :
    loadTail .expanded (fourBytes b3 b2 b1 b0) d = fourBytes b3 b2 b1 d :=
  congrArg (· ++ d) BitVec.extractLsb'_append_eq_left

/-- `Rot` moves the first byte to the end (R88): the bits of the last byte come from 24 places up, the others from 8
places down. -/
@[simp] theorem rotA_fourBytes (b3 b2 b1 b0 : Byte) :
    rotA .expanded (fourBytes b3 b2 b1 b0) = fourBytes b2 b1 b0 b3 := by
  have hrot : (b3 ++ b2 ++ b1 ++ b0).rotateLeft 8 = b2 ++ b1 ++ b0 ++ b3 := by
    refine BitVec.eq_of_getLsbD_eq fun i hi => ?_
    simp only [BitVec.getLsbD_rotateLeft, BitVec.getLsbD_append]
    grind
  exact hrot

/-! ## The transfer from MDR to PC -/

/-- A state up to the three components that the transfer writes. -/
def State.withTransfer (s : State) (mdr pc : Addr) (dbus : Byte) : State :=
  { s with mdr := mdr, pc := pc, dbus := dbus }

theorem State.withTransfer_self (s : State) : s.withTransfer s.mdr s.pc s.dbus = s := rfl

/-- A round of the Expanded `GotoBody`: MDR is rotated by a byte, and that byte is shifted into PC. -/
theorem performAll_gotoRound {s : State} (hm : s.mode = .expanded) (b3 b2 b1 b0 p3 p2 p1 p0 d : Byte) :
    performAll gotoRound (s.withTransfer (fourBytes b3 b2 b1 b0) (fourBytes p3 p2 p1 p0) d)
      = s.withTransfer (fourBytes b2 b1 b0 b3) (fourBytes p2 p1 p0 b3) b3 := by
  simp [gotoRound, perform, State.rot, State.dbusFrom, State.load, State.writeMdr, State.writePc, State.driveDbus,
    State.withTransfer, hm]

/-- What `GotoBody` dispatches between taking the bus and releasing it. -/
def gotoTransfer : MachineMode → List Micro
  | .standard => [.dbusFrom .mdr, .load .pc]
  | .expanded => gotoRound ++ gotoRound ++ gotoRound ++ gotoRound

/-- What `GotoBody` dispatches before `Fetch`. -/
def gotoMicros (mode : MachineMode) : List Micro :=
  [.busReq, .busGrant] ++ gotoTransfer mode ++ [.busRelease]

theorem gotoBody_eq (mode : MachineMode) : gotoBody mode = gotoMicros mode ++ [.fetch] := by
  cases mode <;> rfl

/-- In Standard mode MDR is its one byte. -/
theorem performAll_gotoTransfer_standard {s : State} (hm : s.mode = .standard)
    (hfit : s.mdr.toNat < MachineMode.standard.memSize) :
    performAll (gotoTransfer s.mode) s = s.withTransfer s.mdr s.mdr (s.mdr.setWidth 8) := by
  have hbyte : (s.mdr.setWidth 8).setWidth 32 = s.mdr := fitTo_of_lt .standard _ hfit
  simp [gotoTransfer, perform, State.dbusFrom, State.load, State.writePc, State.driveDbus, loadTail, State.withTransfer,
    hm, hbyte, fitTo_of_lt _ _ hfit]

/-- Four rounds restore MDR and leave all of its bytes in PC. -/
theorem performAll_gotoTransfer_expanded {s : State} (hm : s.mode = .expanded) :
    performAll (gotoTransfer s.mode) s = s.withTransfer s.mdr s.mdr (s.mdr.setWidth 8) := by
  obtain ⟨b3, b2, b1, b0, hmdr⟩ := exists_fourBytes s.mdr
  obtain ⟨p3, p2, p1, p0, hpc⟩ := exists_fourBytes s.pc
  calc performAll (gotoTransfer s.mode) s
      = performAll (gotoTransfer s.mode) (s.withTransfer (fourBytes b3 b2 b1 b0) (fourBytes p3 p2 p1 p0) s.dbus) := by
        rw [← hmdr, ← hpc, State.withTransfer_self]
    _ = s.withTransfer (fourBytes b3 b2 b1 b0) (fourBytes b3 b2 b1 b0) b0 := by
        simp only [hm, gotoTransfer, performAll_append, performAll_gotoRound hm]
    _ = s.withTransfer s.mdr s.mdr (s.mdr.setWidth 8) := by rw [hmdr, setWidth_fourBytes]

theorem performAll_gotoTransfer {s : State} (hfit : s.mdr.toNat < s.mode.memSize) :
    performAll (gotoTransfer s.mode) s = s.withTransfer s.mdr s.mdr (s.mdr.setWidth 8) := by
  cases hm : s.mode with
  | standard => exact hm ▸ performAll_gotoTransfer_standard hm (hm ▸ hfit)
  | expanded => exact hm ▸ performAll_gotoTransfer_expanded hm

/-! ## The net effect of `GotoBody` -/

theorem datapathFrom_gotoMicros (s : State) (mode : MachineMode) : DatapathFrom (gotoMicros mode) s := by
  cases mode <;> simp [gotoMicros, gotoTransfer, gotoRound, DatapathFrom, Micro.isDatapath, Micro.AccessOk]

/-- The state with the bus requested and granted (R78, R79). -/
def State.takeBus (s : State) : State := (s.setReq true).setGnt true

theorem performAll_takeBus (s : State) : performAll [.busReq, .busGrant] s = s.takeBus := rfl

/-- The transfer inside its bus handshake, which leaves `req` and `gnt` low. -/
theorem performAll_gotoMicros {s : State} (hfit : s.mdr.toNat < s.mode.memSize) :
    (performAll (gotoMicros s.mode) s).setQ [.fetch] = netGoto s := by
  calc (performAll (gotoMicros s.mode) s).setQ [.fetch]
      = (perform .busRelease (performAll (gotoTransfer s.mode) s.takeBus)).setQ [.fetch] := by
        rw [gotoMicros, performAll_append, performAll_append, performAll_takeBus]
        rfl
    _ = (perform .busRelease (s.takeBus.withTransfer s.mdr s.mdr (s.mdr.setWidth 8))).setQ [.fetch] :=
        congrArg (fun t => (perform .busRelease t).setQ [.fetch]) (performAll_gotoTransfer (s := s.takeBus) hfit)
    _ = netGoto s := rfl

/-- Settles O33: the lists by computation, the net effect by the transfer, which the steps of R73 perform micro-op by
micro-op. -/
theorem gotoBodyCopiesMdrToPc : Obligations.GotoBodyCopiesMdrToPc := by
  refine ⟨rfl, rfl, fun s hr hq hi hclk hfit => ?_⟩
  have hquiet : s.Quiet := ⟨hr, hi, hclk⟩
  have hqueued : s.append (gotoBody s.mode) = s.setQ (gotoMicros s.mode ++ [.fetch]) := by
    rw [State.append, hq, gotoBody_eq]
    rfl
  have hlength : (gotoBody s.mode).length - 1 = (gotoMicros s.mode).length := by
    rw [gotoBody_eq, List.length_append]
    rfl
  rw [hqueued, hlength, microRun_datapath hquiet (datapathFrom_gotoMicros s s.mode), performAll_gotoMicros hfit]

end Sys2Proof.Machine

/-! The decode faults of 60_exceptions.md R145: the fetch from an instruction boundary in both machine modes, with the
I/O arbiter in any state (40_control_unit.md R93 to R95, R107), and the halt that `FetchRest` or `Decode` ends it with.

A request that waits is acknowledged by the end of `Fetch`, so no later micro-op of the fetch queues a handler, and the
handler itself runs at most twice: behind `Fetch`, and behind `FetchRest`, where the bus is granted and it goes to the
end of the queue. In between the micro-ops run as the composition of their effects. -/

namespace Sys2Proof.Machine

/-! ## A phase is a run of steps of R73 -/

theorem microRun_of_no_step {s : State} (h : ∀ t, microStep s ≠ .next t) (n : Nat) : microRun n s = s := by
  cases n with
  | zero => rfl
  | succ n =>
    rw [microRun]
    split
    · exact absurd ‹_› (h _)
    · rfl

theorem microRun_add (m n : Nat) (s : State) : microRun (m + n) s = microRun n (microRun m s) := by
  induction m generalizing s with
  | zero => rw [Nat.zero_add]; rfl
  | succ m ih =>
    rw [Nat.add_right_comm]
    cases h : microStep s with
    | next t => simp only [microRun, h, ih]
    | fault | refused => simp [microRun, h, microRun_of_no_step]

theorem exists_microRun_eq_runUntil (stop : Micro → Bool) (n : Nat) (s : State) :
    ∃ k, microRun k s = runUntil stop n s := by
  induction n generalizing s with
  | zero => exact ⟨0, rfl⟩
  | succ n ih =>
    rw [runUntil]
    split
    · rename_i m rest hr hq
      split
      · exact ⟨0, rfl⟩
      · obtain ⟨k, hk⟩ := ih (dispatch m (s.setQ rest))
        exact ⟨k + 1, (microRun_cons hr hq k).trans hk⟩
    · exact ⟨0, rfl⟩

/-- The fetch phase from an instruction boundary: `Fetch`, then all up to the next `Decode` or a halt. -/
theorem fetchPhase_of_fetch {s : State} {rest : List Micro} (hq : s.q = .fetch :: rest) :
    fetchPhase s = runUntil atDecodeOrFetch Config.phaseFuel (dispatch .fetch (s.setQ rest)) := by
  simp [fetchPhase, hq]

theorem exists_microRun_eq_fetchPhase {s : State} {rest : List Micro} (hr : s.run = .running)
    (hq : s.q = .fetch :: rest) : ∃ k, microRun k s = fetchPhase s := by
  obtain ⟨k, hk⟩ := exists_microRun_eq_runUntil atDecodeOrFetch Config.phaseFuel (dispatch .fetch (s.setQ rest))
  exact ⟨k + 1, by rw [microRun_cons hr hq, hk, fetchPhase_of_fetch hq]⟩

/-! ## Micro-ops behind which no new handler is queued (R76) -/

/-- Running between two steps, a request that waits acknowledged: no `IoCheck` has anything left to do. -/
structure State.Settled (s : State) : Prop where
  running : s.run = .running
  acknowledged : (s.ctl.ioreq && !s.ioAck) = false
  clkLow : s.ctl.clk = false

theorem State.Settled.setQ {s : State} (h : s.Settled) (ms : List Micro) : (s.setQ ms).Settled :=
  ⟨h.running, h.acknowledged, h.clkLow⟩

theorem State.Settled.setClk_false {s : State} (h : s.Settled) : s.setClk false = s := by
  rw [← h.clkLow]
  rfl

/-- A clock cycle that ends settled is the micro-op's effect between the two clock writes (R73). -/
theorem tick_of_settled {f : State → State} {s : State} (h : ((f (s.setClk true)).setClk false).Settled) :
    tick f s = (f (s.setClk true)).setClk false := by
  have hcheck : (f (s.setClk true)).ioCheck = f (s.setClk true) :=
    if_neg (Bool.eq_false_iff.mp h.acknowledged)
  rw [tick_running h.running, hcheck]

theorem perform_ioAck_of_isDatapath {m : Micro} (hm : m.isDatapath = true) (s : State) :
    (perform m s).ioAck = s.ioAck := by
  cases m with
  | memOut => rcases s.memOut_cases with ⟨-, e⟩ | ⟨-, e⟩ <;> simp [perform, e]
  | memIn => rcases s.memIn_cases with ⟨-, e⟩ | ⟨-, e⟩ <;> simp [perform, e]
  | cirStd part => cases h : s.mode <;> cases part <;> simp [perform, State.cirStd, h]
  | cirExp k => cases h : s.mode <;> simp [perform, State.cirExp, h]
  | marFrom src | abusFrom src | dbusFrom src => cases src <;> rfl
  | load reg | rot reg | inc reg => cases reg <;> rfl
  | busReq | busGrant | busRelease | readOn | readOff | writeOn | writeOff | loadOperand => rfl
  | fetch | fetchRest | decode | execute | branch _ | getVal _ | aluAdd _ | aluTwos | aluAnd | aluOr | aluXor | aluNot
  | ioOpen | ioPut | ioCallback | ioClose | inLoad | ioRelease | ioHandler | endRun => cases hm

theorem State.Settled.perform {s : State} {m : Micro} (h : s.Settled) (hm : m.isDatapath = true) (ha : m.AccessOk s) :
    (perform m s).Settled := by
  have ht := Micro.transparent_of_isDatapath hm ha
  refine ⟨ht.run_eq.trans h.running, ?_, ht.clk_eq.trans h.clkLow⟩
  rw [ht.ioreq_eq, perform_ioAck_of_isDatapath hm, h.acknowledged]

theorem dispatch_datapath {s : State} {m : Micro} (h : s.Settled) (hm : m.isDatapath = true) (ha : m.AccessOk s)
    (rest : List Micro) : dispatch m (s.setQ rest) = (perform m s).setQ rest := by
  have hs := (h.perform hm ha).setQ rest
  have e : (perform m ((s.setQ rest).setClk true)).setClk false = (perform m s).setQ rest := by
    rw [(Micro.transparent_of_isDatapath hm ha).commutes]
    exact hs.setClk_false
  rw [dispatch, tick_of_settled (e.symm ▸ hs), e]

/-- The head of the queue is dispatched where the fetch phase does not end. -/
theorem runUntil_setQ_cons {s : State} {m : Micro} (hr : s.run = .running) (hm : atDecodeOrFetch m = false)
    (rest : List Micro) (n : Nat) :
    runUntil atDecodeOrFetch (n + 1) (s.setQ (m :: rest)) = runUntil atDecodeOrFetch n (dispatch m (s.setQ rest)) :=
  runUntil_step hr rfl hm

/-- A phase dispatches datapath micro-ops as the composition of their effects, also while a request waits. -/
theorem runUntil_datapath_of_settled {ms : List Micro} {s : State} (hs : s.Settled) (hd : DatapathFrom ms s)
    (rest : List Micro) (n : Nat) :
    runUntil atDecodeOrFetch (ms.length + n) (s.setQ (ms ++ rest))
      = runUntil atDecodeOrFetch n ((performAll ms s).setQ rest) := by
  induction ms generalizing s with
  | nil => rw [List.length_nil, Nat.zero_add]; rfl
  | cons m ms ih =>
    obtain ⟨hm, ha, hd⟩ := hd
    rw [List.length_cons, Nat.add_right_comm, List.cons_append,
      runUntil_setQ_cons hs.running (Micro.not_atDecodeOrFetch_of_isDatapath hm),
      dispatch_datapath hs hm ha, ih (hs.perform hm ha) hd, performAll_cons]

/-- The dispatch of a micro-op whose effect is to append to the queue. -/
theorem dispatch_append {s : State} {m : Micro} {ms rest : List Micro} (h : s.Settled)
    (hp : perform m ((s.setQ rest).setClk true) = ((s.setQ rest).setClk true).append ms) :
    dispatch m (s.setQ rest) = s.setQ (rest ++ ms) := by
  have hs := h.setQ (rest ++ ms)
  have e : (perform m ((s.setQ rest).setClk true)).setClk false = s.setQ (rest ++ ms) := by
    rw [hp]
    exact hs.setClk_false
  rw [dispatch, tick_of_settled (e.symm ▸ hs), e]

/-! ## The handler of an acknowledged request (45_io.md R133) -/

/-- The handlers in the queue between two steps, as `io_ack` announces them. -/
def State.handlers (s : State) : List Micro := if s.ioAck then [.ioHandler] else []

theorem State.handlers_length_le (s : State) : s.handlers.length ≤ 1 := by
  cases h : s.ioAck <;> simp [State.handlers, h]

/-- A handler that meets a held grant requeues itself. -/
theorem perform_ioHandler_of_busy {s : State} (h : (s.ctl.gnt || s.ctl.iognt) = true) :
    perform .ioHandler s = s.append [.ioHandler] := if_pos h

/-- A handler that meets no grant takes the I/O bus, with a pending byte, and withdraws the request. -/
theorem perform_ioHandler_of_free {s : State} (h : (s.ctl.gnt || s.ctl.iognt) = false) :
    perform .ioHandler s = granted s := by
  rcases s.ioHandler_cases with ⟨hbusy, -⟩ | ⟨-, e⟩
  · simp [h] at hbusy
  · rcases s.setIoGrant_cases true with ⟨-, hp, e'⟩ | ⟨hp, e'⟩ <;> rw [perform, e, e']
    · simp only [granted, hp, if_true]
      rfl
    · rw [Bool.true_and] at hp
      simp [granted, hp, State.setIognt, State.setIoreq, State.setIoAck]

/-- While the bus is granted to the fetch, the handler at the head goes behind the queue. -/
theorem runUntil_handlers_of_gnt {s : State} (hs : s.Settled) (hg : s.ctl.gnt = true) (ms : List Micro) (n : Nat) :
    runUntil atDecodeOrFetch (s.handlers.length + n) (s.setQ (s.handlers ++ ms))
      = runUntil atDecodeOrFetch n (s.setQ (ms ++ s.handlers)) := by
  cases hack : s.ioAck with
  | false => simp [State.handlers, hack]
  | true =>
    simp only [State.handlers, hack, if_true, List.length_singleton, Nat.add_comm 1, List.singleton_append]
    rw [runUntil_setQ_cons hs.running rfl, dispatch_append hs (perform_ioHandler_of_busy (by simp [hg]))]

/-! ## The dispatch of `Fetch` with the arbiter in any state -/

/-- `Fetch` where no handler is queued: a request that waits gets its handler behind the fetch. -/
theorem dispatch_fetch_of_not_ioAck {s : State} (hr : s.run = .running) (hack : s.ioAck = false) :
    dispatch .fetch (s.setQ [])
      = ((arbitratedInFetch s).setClk false).setQ (fetchOf s.mode ++ (arbitratedInFetch s).handlers) := by
  rw [dispatch, tick_running hr]
  cases hreq : s.ctl.ioreq <;>
    simp [perform, State.ioCheck, arbitratedInFetch, State.handlers, State.append, State.setQ, State.setClk,
      State.setIoAck, hack, hreq]

/-- `Fetch` where a handler is queued: the handler stands in front of the fetch. -/
theorem dispatch_fetch_of_ioAck {s : State} (hr : s.run = .running) (hack : s.ioAck = true) :
    dispatch .fetch (s.setQ [.ioHandler]) = (s.setClk false).setQ (.ioHandler :: fetchOf s.mode) :=
  dispatch_append (s := s.setClk false) (rest := [.ioHandler]) ⟨hr, by simp [hack], rfl⟩ rfl

/-- The handler in front of the fetch is granted, or requeued behind it while either grant is held (R133). -/
theorem dispatch_ioHandler_of_ioAck {s : State} (hr : s.run = .running) (hack : s.ioAck = true) (ms : List Micro) :
    dispatch .ioHandler ((s.setClk false).setQ ms)
      = ((arbitratedInFetch s).setClk false).setQ (ms ++ (arbitratedInFetch s).handlers) := by
  cases hbusy : s.ctl.gnt || s.ctl.iognt with
  | true =>
    have hsettled : (s.setClk false).Settled := ⟨hr, by simp [hack], rfl⟩
    rw [dispatch_append hsettled (perform_ioHandler_of_busy hbusy)]
    simp [arbitratedInFetch, State.handlers, hack, hbusy]
  | false =>
    have hfree : perform .ioHandler (((s.setClk false).setQ ms).setClk true)
        = granted (((s.setClk false).setQ ms).setClk true) := perform_ioHandler_of_free hbusy
    rw [dispatch, tick_quiet (by rw [hfree]; exact hr) (by rw [hfree]; rfl), hfree]
    simp [arbitratedInFetch, State.handlers, granted, State.setQ, State.setClk, hack, hbusy]

/-- `Fetch` at an instruction boundary, and a handler that was queued there: the fetch's list stands in the queue, and
the arbiter is as `arbitratedInFetch` says. -/
theorem runUntil_dispatch_fetch {s : State} (hr : s.run = .running) (n : Nat) :
    runUntil atDecodeOrFetch (s.handlers.length + n) (dispatch .fetch (s.setQ s.handlers))
      = runUntil atDecodeOrFetch n
        (((arbitratedInFetch s).setClk false).setQ (fetchOf s.mode ++ (arbitratedInFetch s).handlers)) := by
  cases hack : s.ioAck with
  | false =>
    have hnone : s.handlers = [] := by simp [State.handlers, hack]
    rw [hnone, dispatch_fetch_of_not_ioAck hr hack, List.length_nil, Nat.zero_add]
  | true =>
    have hone : s.handlers = [.ioHandler] := by simp [State.handlers, hack]
    rw [hone, dispatch_fetch_of_ioAck hr hack, List.length_singleton, Nat.add_comm,
      runUntil_setQ_cons (s := s.setClk false) hr rfl,
      dispatch_ioHandler_of_ioAck hr hack]

theorem arbitratedInFetch_settled {s : State} (hr : s.run = .running) :
    ((arbitratedInFetch s).setClk false).Settled := by
  unfold arbitratedInFetch
  split
  · split
    · exact ⟨hr, by simp_all, rfl⟩
    · exact ⟨hr, rfl, rfl⟩
  · exact ⟨hr, by simp, rfl⟩


/-! ## What the arbiter leaves alone in a fetch -/

/-- A state up to the components that the arbiter writes in a fetch. -/
theorem arbitratedInFetch_eq (s : State) :
    arbitratedInFetch s
      = { s with
          iobus := (arbitratedInFetch s).iobus
          ioPending := (arbitratedInFetch s).ioPending
          ioAck := (arbitratedInFetch s).ioAck
          ctl := { s.ctl with
            iognt := (arbitratedInFetch s).ctl.iognt
            ioreq := (arbitratedInFetch s).ctl.ioreq } } := by
  unfold arbitratedInFetch
  split
  · split <;> rfl
  · rfl

@[simp] theorem arbitratedInFetch_mode (s : State) : (arbitratedInFetch s).mode = s.mode := by
  rw [arbitratedInFetch_eq]
@[simp] theorem arbitratedInFetch_run (s : State) : (arbitratedInFetch s).run = s.run := by
  rw [arbitratedInFetch_eq]
@[simp] theorem arbitratedInFetch_pc (s : State) : (arbitratedInFetch s).pc = s.pc := by
  rw [arbitratedInFetch_eq]
@[simp] theorem arbitratedInFetch_acc (s : State) : (arbitratedInFetch s).acc = s.acc := by
  rw [arbitratedInFetch_eq]
@[simp] theorem arbitratedInFetch_status (s : State) : (arbitratedInFetch s).status = s.status := by
  rw [arbitratedInFetch_eq]
@[simp] theorem arbitratedInFetch_mem (s : State) : (arbitratedInFetch s).mem = s.mem := by
  rw [arbitratedInFetch_eq]

@[simp] theorem bytesAt_arbitratedInFetch (s : State) (n : Nat) : bytesAt (arbitratedInFetch s) n = bytesAt s n := by
  simp [bytesAt]
@[simp] theorem headAt_arbitratedInFetch (s : State) : headAt (arbitratedInFetch s) = headAt s := by
  simp [headAt]
@[simp] theorem lengthAt_arbitratedInFetch (s : State) : lengthAt (arbitratedInFetch s) = lengthAt s := by
  simp [lengthAt]
@[simp] theorem codeAt_arbitratedInFetch (s : State) : codeAt (arbitratedInFetch s) = codeAt s := by
  simp [codeAt, wordAt]

/-! ## The bytes of an Expanded fetch (R94, R95) -/

theorem bytesAt_succ (s : State) (n : Nat) :
    bytesAt s (n + 1) = bytesAt s n ++ [Memory.read s.mem (fetchAddr s.mode s.pc n).toNat] := by
  simp [bytesAt, List.range_succ]

@[simp] theorem bytesAt_length (s : State) (n : Nat) : (bytesAt s n).length = n := by
  simp [bytesAt]

/-- The first byte in front of the operand bytes. -/
theorem bytesAt_succ_eq_cons (s : State) (n : Nat) : bytesAt s (n + 1) = headAt s :: (bytesAt s (n + 1)).tail := by
  simp [bytesAt, headAt, List.range_succ_eq_map]

theorem fetchAddr_expanded_zero (p : Addr) : fetchAddr .expanded p 0 = p := BitVec.add_zero p

theorem fetchAddr_expanded_succ (p : Addr) (k : Nat) :
    fetchAddr .expanded p (k + 1) = fetchAddr .expanded p k + 1#32 := by
  rw [fetchAddr, BitVec.ofNat_add, ← BitVec.add_assoc]
  rfl

/-- `Load` replaces the tail that an earlier `Load` left (40_control_unit.md R87). -/
theorem loadTail_loadTail (r : Addr) (d d' : Byte) :
    loadTail .expanded (loadTail .expanded r d) d' = loadTail .expanded r d' :=
  congrArg (· ++ d') BitVec.extractLsb'_append_eq_left

/-- The read of byte k of an Expanded instruction at MAR. -/
def readByte (k : Fin 5) : List Micro := [.abusFrom .mar, .memOut, .load .mdr, .cirExp k, .inc .pc]

theorem fetchExp_eq : fetchExp = openFetch ++ readByte 0 ++ [.fetchRest] := rfl

theorem fetchByte_eq (k : Fin 5) : fetchByte k = .marFrom .pc :: readByte k := rfl

/-- The read of one byte: the byte at MAR goes over DATABUS into the tail of MDR and from there into CIR, and PC moves
past it. -/
theorem performAll_readByte {s : State} (hm : s.mode = .expanded) (k : Fin 5) :
    performAll (readByte k) s
      = { s with
          abus := s.mar
          dbus := Memory.read s.mem s.mar.toNat
          mdr := loadTail .expanded s.mdr (Memory.read s.mem s.mar.toNat)
          cir := .exp ((cirBytes s.cir).take k ++ [Memory.read s.mem s.mar.toNat])
          pc := s.pc + 1#32 } := by
  have hmem : perform .memOut (s.driveAbus s.mar)
      = (s.driveAbus s.mar).driveDbus (Memory.read s.mem (fitTo s.mode s.mar).toNat) :=
    State.memOut_eq _ (fitTo_lt _ _)
  have htail : (loadTail .expanded s.mdr (Memory.read s.mem s.mar.toNat)).setWidth 8
      = Memory.read s.mem s.mar.toNat := BitVec.setWidth_append_eq_right
  calc performAll (readByte k) s
      = (((perform .memOut (s.driveAbus s.mar)).load .mdr).cirExp k).inc .pc := rfl
    _ = _ := by
      rw [hmem]
      simp [State.load, State.cirExp, State.inc, State.writeMdr, State.writeCir, State.writePc, State.driveAbus,
        State.driveDbus, pcIncrement, htail, hm]

theorem datapathFrom_readByte (s : State) (k : Fin 5) : DatapathFrom (readByte k) s := by
  have hmem : (perform (.abusFrom .mar) s).abus.toNat < (perform (.abusFrom .mar) s).mode.memSize := fitTo_lt _ _
  simp [readByte, DatapathFrom, Micro.isDatapath, Micro.AccessOk, hmem]

theorem datapathFrom_fetchByte (s : State) (k : Fin 5) : DatapathFrom (fetchByte k) s :=
  ⟨rfl, by simp [Micro.AccessOk], datapathFrom_readByte _ k⟩

theorem datapathFrom_openFetch_readByte (s : State) : DatapathFrom (openFetch ++ readByte 0) s := by
  simp [datapathFrom_readByte, openFetch, DatapathFrom, Micro.isDatapath, Micro.AccessOk]

/-- The state inside an Expanded fetch, byte `last` of the instruction at PC in CIR: as `fetchedTo`, but for the bytes
that are still to come and the bus that is still held. -/
def bytesRead (last : Nat) (s : State) : State :=
  { fetchedTo last s with
    cir := .exp (bytesAt s (last + 1))
    ctl := { s.ctl with req := true, gnt := true, rd := true }
    q := s.q }

/-- The first byte (R94). -/
theorem performAll_openFetch_readByte {s : State} (hm : s.mode = .expanded) :
    performAll (openFetch ++ readByte 0) s = bytesRead 0 s := by
  rw [performAll_append, performAll_openFetch, performAll_readByte (by exact hm)]
  simp only [bytesRead, fetchedTo, hm, fetchAddr_expanded_succ, fetchAddr_expanded_zero, bytesAt_succ, fitTo_expanded]
  rfl

/-- Each byte after it (R95). -/
theorem performAll_fetchByte {s : State} (hm : s.mode = .expanded) {last : Nat} (h : last + 1 < 5) :
    performAll (fetchByte ⟨last + 1, h⟩) (bytesRead last s) = bytesRead (last + 1) s := by
  have hmode : (perform (.marFrom .pc) (bytesRead last s)).mode = .expanded := hm
  have hkept : (bytesAt s (last + 1)).take (last + 1) = bytesAt s (last + 1) := List.take_of_length_le (by simp)
  rw [fetchByte_eq, performAll_cons, performAll_readByte hmode]
  simp [bytesRead, fetchedTo, perform, State.marFrom, State.writeMar, hm, fetchAddr_expanded_succ,
    bytesAt_succ s (last + 1), loadTail_loadTail, cirBytes, hkept]

/-- The Expanded lengths that are legal (30_encoding.md R61). -/
theorem legalLength_iff (n : BitVec 3) : legalLength n = true ↔ n = 0#3 ∨ n = 1#3 ∨ n = 4#3 := by
  simp [legalLength, or_assoc]

/-- The operand bytes that a legal length announces. -/
theorem performAll_fetchOperand {s : State} (hm : s.mode = .expanded) {n : BitVec 3} (hn : legalLength n = true) :
    performAll (fetchOperand n) (bytesRead 0 s) = bytesRead n.toNat s := by
  have hbyte {last : Nat} (h : last + 1 < 5) := performAll_fetchByte hm h
  rcases (legalLength_iff n).mp hn with rfl | rfl | rfl
  · rfl
  · exact hbyte (last := 0) (by decide)
  · calc performAll (fetchByte 1 ++ fetchByte 2 ++ fetchByte 3 ++ fetchByte 4) (bytesRead 0 s)
        = performAll (fetchByte 4) (performAll (fetchByte 3) (performAll (fetchByte 2)
            (performAll (fetchByte 1) (bytesRead 0 s)))) := by simp only [performAll_append]
      _ = bytesRead 4 s := by
        rw [show performAll (fetchByte 1) (bytesRead 0 s) = bytesRead 1 s from hbyte (by decide),
          show performAll (fetchByte 2) (bytesRead 1 s) = bytesRead 2 s from hbyte (by decide),
          show performAll (fetchByte 3) (bytesRead 2 s) = bytesRead 3 s from hbyte (by decide)]
        exact hbyte (by decide)

theorem datapathFrom_fetchOperand {n : BitVec 3} (hn : legalLength n = true) (s : State) :
    DatapathFrom (fetchOperand n) s := by
  rcases (legalLength_iff n).mp hn with rfl | rfl | rfl
  · exact trivial
  · exact datapathFrom_fetchByte s 1
  · simp [fetchOperand, datapathFrom_append, datapathFrom_fetchByte]

/-- What an Expanded fetch with this length dispatches after `FetchRest` and before `Decode` (R95). -/
def fetchExpRest (n : BitVec 3) : List Micro := fetchOperand n ++ [.readOff, .busRelease]

theorem fetchExpRest_length_le (n : BitVec 3) : (fetchExpRest n).length ≤ 26 := by
  simp only [fetchExpRest, fetchOperand]
  split
  · decide
  · split <;> decide

theorem datapathFrom_fetchExpRest {n : BitVec 3} (hn : legalLength n = true) (s : State) :
    DatapathFrom (fetchExpRest n) s :=
  (datapathFrom_append _ _ s).mpr ⟨datapathFrom_fetchOperand hn s,
    by simp [DatapathFrom, Micro.isDatapath, Micro.AccessOk]⟩

/-- The net effect of R94 and R95 for a legal length, but for the queue. -/
theorem performAll_fetchExpRest {s : State} (hm : s.mode = .expanded) (hn : legalLength (lengthAt s) = true) :
    performAll (fetchExpRest (lengthAt s)) (bytesRead 0 (s.setClk false)) = (fetched s).setQ s.q := by
  have hlen : performAll (fetchOperand (lengthAt s)) (bytesRead 0 (s.setClk false))
      = bytesRead (lengthAt s).toNat (s.setClk false) :=
    performAll_fetchOperand (s := s.setClk false) hm hn
  have hcode : codeAt s = .exp (bytesAt s ((lengthAt s).toNat + 1)) := by rw [codeAt, hm]
  rw [fetchExpRest, performAll_append, hlen, fetched, hm]
  simp only [fetchedTo, hcode]
  rfl

theorem cirHead_bytesRead (last : Nat) (s : State) : cirHead (bytesRead last s).cir = headAt s := by
  simp only [bytesRead]
  rw [bytesAt_succ_eq_cons]
  rfl

/-- `FetchRest` of a legal length (R95). -/
theorem dispatch_fetchRest_of_legal {s : State} {n : BitVec 3} (hs : s.Settled)
    (hcir : (cirHead s.cir).extractLsb' 0 3 = n) (hn : legalLength n = true) (rest : List Micro) :
    dispatch .fetchRest (s.setQ rest) = s.setQ (rest ++ (fetchExpRest n ++ [.decode])) := by
  subst hcir
  refine dispatch_append hs ((if_pos hn).trans ?_)
  rw [fetchExpRest, List.append_assoc]
  rfl

/-- A micro-op that raises a fault, between two steps (60_exceptions.md R144). -/
theorem dispatch_raise {s : State} {m : Micro} {r : FaultReason} {rest : List Micro} (hclk : s.ctl.clk = false)
    (hp : perform m ((s.setQ rest).setClk true) = ((s.setQ rest).setClk true).raise r) :
    dispatch m (s.setQ rest) = s.raise r := by
  have hlow : (s.raise r).setClk false = s.raise r := by
    rw [← hclk]
    rfl
  rw [dispatch, tick_halted (by simp [hp]), hp]
  exact hlow

/-! ## The fetch phase in either mode -/

/-- The fetch phase from an instruction boundary, its first datapath micro-ops done. -/
theorem fetchPhase_eq_runUntil {mode : MachineMode} {s : State} (hs : AtFetchIo mode s) {ms rest : List Micro}
    (hfetch : fetchOf mode = ms ++ rest) (hd : DatapathFrom ms ((arbitratedInFetch s).setClk false))
    (hfuel : 1 + ms.length ≤ Config.phaseFuel) :
    ∃ n, Config.phaseFuel ≤ 1 + ms.length + n ∧ fetchPhase s = runUntil atDecodeOrFetch n
      ((performAll ms ((arbitratedInFetch s).setClk false)).setQ (rest ++ (arbitratedInFetch s).handlers)) := by
  obtain ⟨hr, rfl, hq⟩ := hs
  have hle := s.handlers_length_le
  obtain ⟨n, hn⟩ := Nat.exists_eq_add_of_le (show s.handlers.length + ms.length ≤ Config.phaseFuel by omega)
  refine ⟨n, by omega, ?_⟩
  rw [fetchPhase_of_fetch hq, hn, Nat.add_assoc]
  refine (runUntil_dispatch_fetch hr _).trans ?_
  rw [hfetch, List.append_assoc, runUntil_datapath_of_settled (arbitratedInFetch_settled hr) hd]

/-- The state when `FetchRest` is dispatched, but for the queue: the first byte of the Expanded instruction at PC is in
CIR, and the arbiter has done its part. -/
def firstByteRead (s : State) : State := bytesRead 0 ((arbitratedInFetch s).setClk false)

theorem firstByteRead_settled {s : State} (hr : s.run = .running) : (firstByteRead s).Settled :=
  have h := arbitratedInFetch_settled hr
  ⟨h.running, h.acknowledged, h.clkLow⟩

/-- The length field that `FetchRest` reads. -/
theorem firstByteRead_length (s : State) : (cirHead (firstByteRead s).cir).extractLsb' 0 3 = lengthAt s := by
  rw [firstByteRead, cirHead_bytesRead]
  exact lengthAt_arbitratedInFetch s

theorem firstByteRead_handlers (s : State) : (firstByteRead s).handlers = (arbitratedInFetch s).handlers := rfl

/-- The Expanded fetch phase up to `FetchRest`. -/
theorem fetchPhase_expanded {s : State} (hs : AtFetchIo .expanded s) :
    ∃ n, 53 ≤ n ∧ fetchPhase s = runUntil atDecodeOrFetch n
      (dispatch .fetchRest ((firstByteRead s).setQ (arbitratedInFetch s).handlers)) := by
  have hd := datapathFrom_openFetch_readByte ((arbitratedInFetch s).setClk false)
  obtain ⟨n, hn, hphase⟩ := fetchPhase_eq_runUntil hs fetchExp_eq hd (by decide)
  obtain ⟨hr, hm, -⟩ := hs
  obtain ⟨n, rfl⟩ := Nat.exists_eq_add_of_lt (Nat.le_of_add_le_add_left (show 10 + 54 ≤ 10 + n from hn))
  rw [performAll_openFetch_readByte (by simpa using hm)] at hphase
  exact ⟨53 + n, by omega, hphase.trans (runUntil_setQ_cons (firstByteRead_settled hr).running rfl _ _)⟩

/-- How far the last byte of the instruction at PC is from its first. -/
def lastAt (s : State) : Nat :=
  match s.mode with
  | .standard => 1
  | .expanded => (lengthAt s).toNat

theorem fetchedIo_eq (s : State) :
    fetchedIo s = (fetchedTo (lastAt s) (arbitratedInFetch s)).setQ (arbitratedInFetch s).handlers := by
  cases hm : s.mode <;> simp [fetchedIo, handlerBehind, fetched, fetchedTo, lastAt, State.handlers, State.setQ, hm]

@[simp] theorem fetchedIo_mode (s : State) : (fetchedIo s).mode = s.mode := by simp [fetchedIo_eq, fetchedTo]
@[simp] theorem fetchedIo_run (s : State) : (fetchedIo s).run = s.run := by simp [fetchedIo_eq, fetchedTo]
@[simp] theorem fetchedIo_pc (s : State) : (fetchedIo s).pc = fetchAddr s.mode s.pc (lastAt s + 1) := by
  simp [fetchedIo_eq, fetchedTo]
@[simp] theorem fetchedIo_cir (s : State) : (fetchedIo s).cir = codeAt s := by simp [fetchedIo_eq, fetchedTo]
@[simp] theorem fetchedIo_acc (s : State) : (fetchedIo s).acc = s.acc := by simp [fetchedIo_eq, fetchedTo]
@[simp] theorem fetchedIo_status (s : State) : (fetchedIo s).status = s.status := by simp [fetchedIo_eq, fetchedTo]
@[simp] theorem fetchedIo_mem (s : State) : (fetchedIo s).mem = s.mem := by simp [fetchedIo_eq, fetchedTo]
@[simp] theorem fetchedIo_req (s : State) : (fetchedIo s).ctl.req = false := by simp [fetchedIo_eq, fetchedTo]
@[simp] theorem fetchedIo_gnt (s : State) : (fetchedIo s).ctl.gnt = false := by simp [fetchedIo_eq, fetchedTo]
@[simp] theorem fetchedIo_rd (s : State) : (fetchedIo s).ctl.rd = false := by simp [fetchedIo_eq, fetchedTo]
@[simp] theorem fetchedIo_clk (s : State) : (fetchedIo s).ctl.clk = false := by simp [fetchedIo_eq, fetchedTo]

/-- The state in which a fetch phase ends with `Decode` at the head. -/
theorem fetchedIo_setQ_decode (s : State) :
    (fetchedIo s).setQ (.decode :: (fetchedIo s).q)
      = (fetched (arbitratedInFetch s)).setQ (.decode :: (arbitratedInFetch s).handlers) := by
  cases hm : s.mode <;> simp [fetchedIo_eq, fetched, fetchedTo, lastAt, State.setQ, hm]

/-- The Standard fetch phase with the arbiter in any state. -/
theorem fetchPhase_standard {s : State} (hs : AtFetchIo .standard s) :
    fetchPhase s = (fetchedIo s).setQ (.decode :: (fetchedIo s).q) := by
  have hd := datapathFrom_fetchStdWords ((arbitratedInFetch s).setClk false)
  obtain ⟨n, -, hphase⟩ := fetchPhase_eq_runUntil hs fetchStd_eq hd (by decide)
  obtain ⟨-, hm, -⟩ := hs
  rw [performAll_fetchStdWords (by simpa using hm)] at hphase
  rw [hphase, fetchedIo_setQ_decode]
  exact runUntil_stop n rfl rfl

/-- The fetch phase of an Expanded instruction of a legal length, with the arbiter in any state. -/
theorem fetchPhase_of_legalLength {s : State} (hs : AtFetchIo .expanded s) (hn : legalLength (lengthAt s) = true) :
    fetchPhase s = (fetchedIo s).setQ (.decode :: (fetchedIo s).q) := by
  obtain ⟨n, hfuel, hphase⟩ := fetchPhase_expanded hs
  obtain ⟨hr, hm, -⟩ := hs
  have hsettled := firstByteRead_settled hr
  have hd := datapathFrom_fetchExpRest hn (firstByteRead s)
  have heffect : performAll (fetchExpRest (lengthAt s)) (firstByteRead s)
      = (fetched (arbitratedInFetch s)).setQ (arbitratedInFetch s).q := by
    rw [← lengthAt_arbitratedInFetch] at hn ⊢
    exact performAll_fetchExpRest (by simpa using hm) hn
  have hle := (firstByteRead s).handlers_length_le
  have hle' := fetchExpRest_length_le (lengthAt s)
  obtain ⟨n, rfl⟩ := Nat.exists_eq_add_of_le
    (show (firstByteRead s).handlers.length + (fetchExpRest (lengthAt s)).length ≤ n by omega)
  rw [hphase, fetchedIo_setQ_decode, dispatch_fetchRest_of_legal hsettled (firstByteRead_length s) hn,
    ← firstByteRead_handlers, Nat.add_assoc, runUntil_handlers_of_gnt hsettled rfl, List.append_assoc,
    runUntil_datapath_of_settled hsettled hd, heffect]
  exact runUntil_stop n rfl rfl

/-- The fetch phase of an Expanded instruction of any other length: the halt of `FetchRest`. -/
theorem fetchPhase_of_not_legalLength {s : State} (hs : AtFetchIo .expanded s)
    (hn : legalLength (lengthAt s) = false) :
    fetchPhase s = (firstByteRead s).raise (.decode (.badLength (lengthAt s))) := by
  obtain ⟨n, -, hphase⟩ := fetchPhase_expanded hs
  have hraise : dispatch .fetchRest ((firstByteRead s).setQ (arbitratedInFetch s).handlers)
      = (firstByteRead s).raise (.decode (.badLength (lengthAt s))) := by
    rw [← firstByteRead_length] at hn ⊢
    exact dispatch_raise rfl (if_neg (by simp [hn]))
  rw [hphase, hraise]
  exact runUntil_halted _ _ (by simp)

/-! ## The faults -/

theorem finishCycle_of_not_running {s : State} (h : s.run ≠ .running) : finishCycle s = .next s := by
  rcases finishCycle_cases s with ⟨_, _, hr, -⟩ | ⟨_, hr, -⟩ | e
  · exact absurd hr h
  · exact absurd hr h
  · exact e

/-- Where CIR spells no instruction, `Decode` is dispatched. -/
theorem finishCycle_of_decodeCode_none {s : State} {rest : List Micro} (hr : s.run = .running)
    (hq : s.q = .decode :: rest) (hnone : decodeCode s.mode s.cir = none) :
    finishCycle s = .next (dispatch .decode (s.setQ rest)) := by
  simp [finishCycle, hr, hq, hnone]

/-- A step whose fetch is complete and whose `Decode` takes a fault, by the model's step and by steps of R73. -/
theorem step_of_decode_fault {mode : MachineMode} {s : State} {r : DecodeReason} (hs : AtFetchIo mode s)
    (hphase : fetchPhase s = (fetchedIo s).setQ (.decode :: (fetchedIo s).q)) (hnone : instrAt s = none)
    (hfault : ∀ t : State, t.mode = s.mode → t.cir = codeAt s → t.decodeOp = t.raise (.decode r)) :
    ∃ k, step s = .next ((fetchedIo s).raise (.decode r)) ∧ microRun k s = (fetchedIo s).raise (.decode r) := by
  obtain ⟨hr, -, hq⟩ := hs
  have hdispatch : dispatch .decode ((fetchedIo s).setQ (fetchedIo s).q) = (fetchedIo s).raise (.decode r) :=
    dispatch_raise (fetchedIo_clk s) (hfault _ (fetchedIo_mode s) (fetchedIo_cir s))
  obtain ⟨k, hk⟩ := exists_microRun_eq_fetchPhase hr hq
  have hcycle : finishCycle (fetchPhase s) = .next (dispatch .decode ((fetchedIo s).setQ (fetchedIo s).q)) := by
    rw [hphase]
    refine finishCycle_of_decodeCode_none (by simpa using hr) rfl ?_
    simpa [instrAt] using hnone
  refine ⟨k + 1, ?_, ?_⟩
  · rw [step_eq hr (by simp [hq]), hcycle, hdispatch]
  · rw [microRun_add, hk, hphase, microRun_cons (by simpa using hr) rfl]
    exact hdispatch

/-- No row has operand bytes of another number than its class and mode require (30_encoding.md R67). -/
theorem expInstr_eq_none_of_length_ne {op : Opcode} {m : AddrMode} {operand : List Byte}
    (h : operand.length ≠ ((op.classIn .expanded).legalLen m).toNat) : expInstr op m operand = none := by
  match operand with
  | [] =>
    cases op with
    | not | input | endRun => exact absurd rfl h
    | _ => rfl
  | [_] =>
    cases op with
    | add | sub | and | or | xor | output =>
      cases m with
      | direct => exact absurd rfl h
      | address => rfl
    | _ => rfl
  | [_, _, _, _] =>
    cases op with
    | add | sub | and | or | xor | output =>
      cases m with
      | direct => rfl
      | address => exact absurd rfl h
    | not | input | endRun => rfl
    | _ => exact absurd rfl h
  | [_, _] | [_, _, _] | _ :: _ :: _ :: _ :: _ :: _ => rfl

theorem instrAt_of_reservedMode {s : State} (hm : s.mode = .standard)
    (h : (wordAt s).extractLsb' 8 2 = 2#2 ∨ (wordAt s).extractLsb' 8 2 = 3#2) : instrAt s = none := by
  simp only [instrAt, codeAt, hm, decodeCode, decodeStd, if_pos h]
  rfl

theorem State.decodeOp_of_reservedMode {s t : State} (hs : s.mode = .standard)
    (h : (wordAt s).extractLsb' 8 2 = 2#2 ∨ (wordAt s).extractLsb' 8 2 = 3#2) (hm : t.mode = s.mode)
    (hcir : t.cir = codeAt s) : t.decodeOp = t.raise (.decode (.badMode ((wordAt s).extractLsb' 8 2))) := by
  have hword : cirWord t.cir = wordAt s := by rw [hcir, codeAt, hs]; rfl
  simp only [State.decodeOp, hm, hs, State.decodeStdOp, hword, if_pos h]

theorem codeAt_expanded {s : State} (hm : s.mode = .expanded) :
    codeAt s = .exp (headAt s :: (bytesAt s ((lengthAt s).toNat + 1)).tail) := by
  rw [← bytesAt_succ_eq_cons, codeAt, hm]

theorem instrAt_of_badForm {s : State} (hm : s.mode = .expanded)
    (h : lengthAt s ≠ ((Opcode.ofBits ((headAt s).extractLsb' 4 4)).classIn .expanded).legalLen
      (AddrMode.ofBit ((headAt s).extractLsb' 3 1))) : instrAt s = none := by
  have hnone : expInstr (Opcode.ofBits ((headAt s).extractLsb' 4 4)) (AddrMode.ofBit ((headAt s).extractLsb' 3 1))
      (bytesAt s ((lengthAt s).toNat + 1)).tail = none := by
    refine expInstr_eq_none_of_length_ne fun e => h (BitVec.eq_of_toNat_eq ?_)
    rw [← e, List.length_tail, bytesAt_length, Nat.add_sub_cancel]
  rw [instrAt, hm, codeAt_expanded hm]
  simp only [decodeCode, decodeExp, hnone]
  split
  · split <;> rfl
  · rfl

/-- Settles O37: the fetch phase ends with `Decode` at the head or with `FetchRest`'s halt, and the fault leaves what
the fetch left, whatever the arbiter did meanwhile. -/
theorem decodeFaultLeavesTheFetchedState : Obligations.DecodeFaultLeavesTheFetchedState := by
  refine fun s => ⟨fun hs hmode => ?badMode, fun hs hlen => ?badLength, fun hs hlen hform => ?badForm⟩
  case badMode =>
    have ⟨_, hm, _⟩ := hs
    have hlast : lastAt s = 1 := by rw [lastAt, hm]
    obtain ⟨k, hstep, hrun⟩ := step_of_decode_fault hs (fetchPhase_standard hs) (instrAt_of_reservedMode hm hmode)
      fun t => State.decodeOp_of_reservedMode hm hmode
    exact ⟨_, k, hstep, hrun, rfl, by simp [codeAt, hm], by simp [hm, hlast], by simp⟩
  case badLength =>
    have ⟨hr, hm, hq⟩ := hs
    have hphase := fetchPhase_of_not_legalLength hs hlen
    obtain ⟨k, hrun⟩ := exists_microRun_eq_fetchPhase hr hq
    have hstep : step s = .next (fetchPhase s) := by
      rw [step_eq hr (by simp [hq]), finishCycle_of_not_running (by simp [hphase])]
    rw [hphase] at hstep hrun
    exact ⟨_, k, hstep, hrun, rfl, by simp [firstByteRead, bytesRead, bytesAt, headAt],
      by simp [firstByteRead, bytesRead, fetchedTo, hm], rfl, rfl, rfl, rfl,
      by simp [firstByteRead, bytesRead, fetchedTo]⟩
  case badForm =>
    have ⟨_, hm, _⟩ := hs
    have hlast : lastAt s = (lengthAt s).toNat := by rw [lastAt, hm]
    obtain ⟨k, hstep, hrun⟩ := step_of_decode_fault hs (fetchPhase_of_legalLength hs hlen)
      (instrAt_of_badForm hm hform)
      fun t ht hcir => (State.decodeOp_expanded (ht.trans hm) (hcir.trans (codeAt_expanded hm))).trans (if_neg hform)
    exact ⟨_, k, hstep, hrun, rfl, by simp [codeAt, hm], by simp [hm, hlast], by simp⟩

end Sys2Proof.Machine

/-! The round trip of 30_encoding.md: each instruction is the row its opcode, mode and operand bytes select, so
decoding gives an encoding back (R58 to R62, R64, R67); and what the decoder accepts is the encoding of its answer,
up to the padding bits of a Standard word (R59). -/

namespace Sys2Proof

/-! ## Instructions by their fields -/

/-- A Standard instruction is the row of its opcode with its mode and its one operand byte (R58). -/
theorem Instr.exists_stdInstr_eq {i : Instr} (hi : i.machineMode = .standard) :
    ∃ n, i.operandBytes = [n] ∧ stdInstr i.opcode i.addrMode n = i := by
  cases i with
  | stdAdd m n | stdSub m n | stdAnd m n | stdOr m n | stdXor m n | stdNot m n | stdRead m n | stdWrite m n
  | stdGoto m n | stdBranchIfZero m n | stdBranchIfNegative m n | stdBranchIfOverflow m n | stdBranchIfCarry m n
  | stdOutput m n | stdInput m n | stdEnd m n => exact ⟨n, rfl, rfl⟩
  | _ => cases hi

@[simp] theorem stdInstr_machineMode (op : Opcode) (m : AddrMode) (n : Byte) :
    (stdInstr op m n).machineMode = .standard := by
  cases op <;> rfl

theorem stdInstr_code (op : Opcode) (m : AddrMode) (n : Byte) : (stdInstr op m n).code = .std (stdCode op m n) := by
  cases op <;> rfl

theorem Instr.code_of_standard {i : Instr} {n : Byte} (hi : i.machineMode = .standard) (hn : i.operandBytes = [n]) :
    i.code = .std (stdCode i.opcode i.addrMode n) := by
  simp [Instr.code, hi, hn]

theorem Instr.code_of_expanded {i : Instr} (hi : i.machineMode = .expanded) :
    i.code = .exp (expHead i.opcode i.addrMode i.operandBytes.length :: i.operandBytes) := by
  simp [Instr.code, hi]

/-- An Expanded instruction is the row that its opcode, mode and operand bytes spell (R67). -/
theorem Instr.expInstr_eq {i : Instr} (hi : i.machineMode = .expanded) :
    expInstr i.opcode i.addrMode i.operandBytes = some i := by
  cases i with
  | expAddLit | expSubLit | expAndLit | expOrLit | expXorLit | expOutputLit | expNot | expInput | expEnd => rfl
  | expAddMem | expSubMem | expAndMem | expOrMem | expXorMem | expOutputMem | expRead | expWrite | expGoto
  | expBranchIfZero | expBranchIfNegative | expBranchIfOverflow | expBranchIfCarry =>
    simp [Instr.opcode, Instr.addrMode, Instr.operandBytes, expInstr, expWide]
  | _ => cases hi

/-- The four bytes of a big-endian operand are read back from it (R43). -/
theorem bytes_of_address (b1 b2 b3 b4 : Byte) :
    let a : Addr := b1 ++ b2 ++ b3 ++ b4
    [a.extractLsb' 24 8, a.extractLsb' 16 8, a.extractLsb' 8 8, a.extractLsb' 0 8] = [b1, b2, b3, b4] := by
  simp (disch := omega) only [BitVec.extractLsb'_append_eq_of_le, BitVec.extractLsb'_append_eq_of_add_le,
    BitVec.extractLsb'_eq_self, Nat.reduceSub]

/-- An Expanded row is spelt in the Expanded format with the opcode, the mode and the operand bytes that select it. -/
theorem fields_of_expInstr {op : Opcode} {m : AddrMode} {bs : List Byte} {i : Instr}
    (h : expInstr op m bs = some i) :
    i.machineMode = .expanded ∧ i.opcode = op ∧ i.addrMode = m ∧ i.operandBytes = bs := by
  match bs with
  | [] =>
    cases op with
    | not | input | endRun => cases h; exact ⟨rfl, rfl, rfl, rfl⟩
    | _ => cases h
  | [n] =>
    cases op with
    | add | sub | and | or | xor | output => cases m <;> cases h; exact ⟨rfl, rfl, rfl, rfl⟩
    | _ => cases h
  | [b1, b2, b3, b4] =>
    have hb := bytes_of_address b1 b2 b3 b4
    cases op with
    | add | sub | and | or | xor | output => cases m <;> cases h; exact ⟨rfl, rfl, rfl, hb⟩
    | not | input | endRun => cases h
    | _ => cases h; exact ⟨rfl, rfl, rfl, hb⟩
  | [_, _] | [_, _, _] | _ :: _ :: _ :: _ :: _ :: _ => cases h

/-! ## The Standard format, both ways (R58, R59) -/

theorem Opcode.bits_ofBits (b : BitVec 4) : (Opcode.ofBits b).bits = b := by
  revert b; decide

theorem AddrMode.bit_ofBit (b : BitVec 1) : (AddrMode.ofBit b).bit = b := by
  revert b; decide

/-- A mode bit under a 0 is no reserved mode value (R65). -/
theorem not_reserved_of_bit (b : BitVec 1) : ¬ (0#1 ++ b = 2#2 ∨ 0#1 ++ b = 3#2) := by
  revert b; decide

/-- The mode values that are not reserved have their upper bit 0 (R65). -/
theorem eq_append_of_not_reserved (v : BitVec 2) (h : ¬ (v = 2#2 ∨ v = 3#2)) : v = 0#1 ++ v.extractLsb' 0 1 := by
  revert v; decide

theorem decodeStd_stdCode (op : Opcode) (m : AddrMode) (n : Byte) :
    decodeStd (stdCode op m n) = .ok (stdInstr op m n) := by
  simp [decodeStd, not_reserved_of_bit]

/-- A word whose mode is not reserved is the word of its fields. -/
theorem stdCode_of_fields (w : BitVec 14) (h : ¬ (w.extractLsb' 8 2 = 2#2 ∨ w.extractLsb' 8 2 = 3#2)) :
    stdCode (Opcode.ofBits (w.extractLsb' 10 4)) (AddrMode.ofBit (w.extractLsb' 8 1)) (w.extractLsb' 0 8) = w := by
  have hmode : 0#1 ++ w.extractLsb' 8 1 = w.extractLsb' 8 2 := by
    have hbit : (w.extractLsb' 8 2).extractLsb' 0 1 = w.extractLsb' 8 1 := by
      ext j hj
      simp [show j < 2 by omega]
    exact hbit ▸ (eq_append_of_not_reserved _ h).symm
  rw [stdCode, Opcode.bits_ofBits, AddrMode.bit_ofBit, hmode,
    BitVec.extractLsb'_append_extractLsb'_eq_extractLsb' (show 10 = 8 + 2 from rfl),
    BitVec.extractLsb'_append_extractLsb'_eq_extractLsb' (show 8 = 0 + 8 from rfl)]
  exact BitVec.extractLsb'_eq_self

/-- What the Standard decoder accepts holds the bits of its answer. -/
theorem code_of_decodeStd {w : BitVec 14} {i : Instr} (h : decodeStd w = .ok i) :
    i.machineMode = .standard ∧ i.code = .std w := by
  simp only [decodeStd] at h
  split at h
  · cases h
  · rename_i hmode
    cases Except.ok.inj h
    exact ⟨stdInstr_machineMode _ _ _, by rw [stdInstr_code, stdCode_of_fields w hmode]⟩

/-- The two words of `stdWord` but for the padding bits (R59). -/
theorem stdBytes_stdWord (w0 w1 : Byte) : stdBytes (stdWord w0 w1) = [w0, w1 &&& 0x3F#8] := by
  have hlow : 0#2 ++ w1.extractLsb' 0 6 = w1 &&& 0x3F#8 := by
    have hmask : w1.toNat &&& 63 = w1.toNat % 64 := Nat.and_two_pow_sub_one_eq_mod _ 6
    apply BitVec.eq_of_toNat_eq
    rw [toNat_append_eq_add, BitVec.extractLsb'_toNat, Nat.shiftRight_zero, BitVec.toNat_and]
    simp only [BitVec.toNat_ofNat, hmask]
    omega
  rw [stdBytes, stdWord, BitVec.extractLsb'_append_eq_left, BitVec.extractLsb'_append_eq_right, hlow]

/-! ## The Expanded format, both ways (R60 to R62, R67) -/

/-- An Expanded instruction has as many operand bytes as a legal length says (R61). -/
theorem Instr.operandBytes_legal {i : Instr} (hi : i.machineMode = .expanded) :
    legalLength (BitVec.ofNat 3 i.operandBytes.length) = true ∧ i.operandBytes.length < 8 := by
  cases i with
  | expAddLit | expSubLit | expAndLit | expOrLit | expXorLit | expOutputLit | expNot | expInput | expEnd
  | expAddMem | expSubMem | expAndMem | expOrMem | expXorMem | expOutputMem | expRead | expWrite | expGoto
  | expBranchIfZero | expBranchIfNegative | expBranchIfOverflow | expBranchIfCarry =>
    exact ⟨rfl, by simp [Instr.operandBytes]⟩
  | _ => cases hi

theorem decodeExp_expHead {i : Instr} (hi : i.machineMode = .expanded) :
    decodeExp (expHead i.opcode i.addrMode i.operandBytes.length) i.operandBytes = .ok i := by
  simp [decodeExp, (Instr.operandBytes_legal hi).1, Instr.expInstr_eq hi]

/-- A first byte is the head of its fields. -/
theorem expHead_of_fields (b0 : Byte) {len : Nat} (h : len = (b0.extractLsb' 0 3).toNat) :
    expHead (Opcode.ofBits (b0.extractLsb' 4 4)) (AddrMode.ofBit (b0.extractLsb' 3 1)) len = b0 := by
  rw [expHead, Opcode.bits_ofBits, AddrMode.bit_ofBit, h, BitVec.ofNat_toNat, BitVec.setWidth_eq,
    BitVec.extractLsb'_append_extractLsb'_eq_extractLsb' (show 4 = 3 + 1 from rfl),
    BitVec.extractLsb'_append_extractLsb'_eq_extractLsb' (show 3 = 0 + 3 from rfl)]
  exact BitVec.extractLsb'_eq_self

/-- What the Expanded decoder accepts holds the bits of its answer. -/
theorem code_of_decodeExp {b0 : Byte} {operand : List Byte} {i : Instr}
    (hlen : operand.length = (b0.extractLsb' 0 3).toNat) (h : decodeExp b0 operand = .ok i) :
    i.machineMode = .expanded ∧ i.code = .exp (b0 :: operand) := by
  simp only [decodeExp] at h
  split at h
  · split at h
    · rename_i hrow
      cases Except.ok.inj h
      obtain ⟨hi, hop, hm, hbs⟩ := fields_of_expInstr hrow
      exact ⟨hi, by rw [Instr.code_of_expanded hi, hop, hm, hbs, expHead_of_fields b0 hlen]⟩
    · cases h
  · cases h

/-! ## The decoder of either mode -/

/-- The bits that CIR holds are those of the instruction they decode to, which is of the machine's format (R69). -/
theorem code_of_decodeCode {mode : MachineMode} {c : Code} {i : Instr} (h : decodeCode mode c = some i) :
    i.machineMode = mode ∧ i.code = c := by
  unfold decodeCode at h
  split at h
  · rename_i w
    cases hd : decodeStd w with
    | ok j =>
      cases Option.some.inj ((congrArg Except.toOption hd).symm.trans h)
      exact code_of_decodeStd hd
    | error r => rw [hd] at h; cases h
  · rename_i b0 operand
    split at h
    · rename_i hlen
      cases hd : decodeExp b0 operand with
      | ok j =>
        cases Option.some.inj ((congrArg Except.toOption hd).symm.trans h)
        exact code_of_decodeExp hlen hd
      | error r => rw [hd] at h; cases h
    · cases h
  · cases h

/-- Settles O1: an instruction is the row of its fields, and each decoder reads the fields that the encoder writes. -/
theorem decodingAnEncodingGivesTheInstruction : Obligations.DecodingAnEncodingGivesTheInstruction := by
  intro i rest
  cases hi : i.machineMode with
  | standard =>
    obtain ⟨n, hn, hrow⟩ := Instr.exists_stdInstr_eq hi
    rw [encode, Instr.code_of_standard hi hn]
    simp only [Code.bytes, stdBytes, List.cons_append, List.nil_append, decode, stdWord_stdBytes, decodeStd_stdCode,
      hrow]
  | expanded =>
    obtain ⟨hlegal, hlt⟩ := Instr.operandBytes_legal hi
    have hlen : i.operandBytes.length % 8 = i.operandBytes.length := Nat.mod_eq_of_lt hlt
    rw [encode, Instr.code_of_expanded hi]
    simp only [Code.bytes, List.cons_append, decode, expHead_length, hlegal, BitVec.toNat_ofNat, Nat.reducePow, hlen,
      List.take_left, List.drop_left, decodeExp_expHead hi]
    simp

/-- Settles O2: an accepted word or byte string is put together again from the fields the decoder read of it. -/
theorem decodedBytesAreAnEncoding : Obligations.DecodedBytesAreAnEncoding := by
  intro mode bytes rest i h
  unfold decode at h
  split at h
  · rename_i w0 w1 rest'
    split at h
    · rename_i j hd
      cases Except.ok.inj h
      obtain ⟨hi, hcode⟩ := code_of_decodeStd hd
      refine ⟨by simp [Instr.wellFormed, hi], nofun, fun _ => ⟨w0, w1, rfl, ?_⟩⟩
      rw [encode, hcode]
      exact stdBytes_stdWord w0 w1
    · cases h
  · rename_i b0 rest'
    simp only at h
    split at h
    · cases h
    · rename_i henough
      split at h
      · rename_i j hd
        cases Except.ok.inj h
        have hlegal : legalLength (b0.extractLsb' 0 3) = true := by
          by_contra hbad
          simp [decodeExp, hbad] at hd
        have hlen : (rest'.take (b0.extractLsb' 0 3).toNat).length = (b0.extractLsb' 0 3).toNat := by
          simp [hlegal] at henough
          simpa using henough
        obtain ⟨hi, hcode⟩ := code_of_decodeExp hlen hd
        refine ⟨by simp [Instr.wellFormed, hi], fun _ => ?_, nofun⟩
        rw [encode, hcode]
        simp [Code.bytes]
      · cases h
  · cases h

end Sys2Proof

/-! How an instruction runs on the control unit (40_control_unit.md R73 to R77, R107) with the I/O arbiter in any
state. A micro-op that leaves the queue and the request line alone is dispatched as its effect; a handler that is
queued meets the grants once in front of the operand phase and once in front of the Body. The same runs are counted
in steps of R73. -/

namespace Sys2Proof.Machine

/-! ## Micro-ops that leave the queue and the request line alone -/

/-- The micro-ops whose effect neither reads nor changes what the step of R73 works with: all but the phase micro-ops,
the device's answer, the handler and `End`. -/
def Micro.isPlain : Micro → Bool
  | .fetch | .fetchRest | .decode | .execute | .branch _ | .ioCallback | .ioHandler | .endRun => false
  | _ => true

theorem Micro.isPlain_of_isDatapath {m : Micro} (hm : m.isDatapath = true) : m.isPlain = true := by
  cases m with
  | fetch | fetchRest | decode | execute | branch | ioCallback | ioHandler | endRun => cases hm
  | _ => rfl

@[simp] theorem State.setQ_setQ (s : State) (ms ms' : List Micro) : (s.setQ ms).setQ ms' = s.setQ ms' := rfl

theorem State.flagWrite_setQ_setClk (s : State) (ms : List Micro) (b : Bool) (f : Flag) (c : Bool) :
    ((s.setQ ms).setClk b).flagWrite f c = ((s.flagWrite f c).setQ ms).setClk b := rfl

theorem State.zn8_setQ_setClk (s : State) (ms : List Micro) (b : Bool) (r : Byte) :
    ((s.setQ ms).setClk b).zn8 r = ((s.zn8 r).setQ ms).setClk b := by
  simp only [State.zn8, State.flagWrite_setQ_setClk]

theorem State.addFlags_setQ_setClk (s : State) (ms : List Micro) (b : Bool) (x y : Byte) :
    ((s.setQ ms).setClk b).addFlags x y = ((s.addFlags x y).setQ ms).setClk b := by
  simp only [State.addFlags, State.flagWrite_setQ_setClk, State.zn8_setQ_setClk]

theorem State.aluAdd_transparent (s : State) (k : AddKind) : (Micro.aluAdd k).Transparent s := by
  refine ⟨by simp [perform, State.aluAdd, State.addFlags_eq], by simp [perform, State.aluAdd, State.addFlags_eq],
    by simp [perform, State.aluAdd, State.addFlags_eq], fun ms b => ?_⟩
  have hflags := s.addFlags_setQ_setClk ms b s.val1 s.val2
  exact congrArg (fun t => (t.writeRes (add8 s.val1 s.val2)).writeSubmark (decide (k = .sub))) hflags

theorem State.aluTwos_transparent (s : State) : Micro.aluTwos.Transparent s := by
  refine ⟨by simp [perform, State.aluTwos, State.addFlags_eq], by simp [perform, State.aluTwos, State.addFlags_eq],
    by simp [perform, State.aluTwos, State.addFlags_eq], fun ms b => ?_⟩
  have hflags := s.addFlags_setQ_setClk ms b (not8 s.val1) 1#8
  exact congrArg (fun t => (t.writeVal1 (twos8 s.val1)).writeRes (twos8 s.val1)) hflags

theorem State.aluBitwise_setQ_setClk (s : State) (ms : List Micro) (b : Bool) (r : Byte) :
    ((s.setQ ms).setClk b).aluBitwise r = ((s.aluBitwise r).setQ ms).setClk b :=
  (s.writeRes r).zn8_setQ_setClk ms b r

theorem Micro.transparent_of_mem_bitwiseMicros {m : Micro} (h : m ∈ bitwiseMicros) (s : State) : m.Transparent s := by
  have hall (t : State) (r : Byte) : (t.aluBitwise r).run = t.run ∧ (t.aluBitwise r).ctl.ioreq = t.ctl.ioreq
      ∧ (t.aluBitwise r).ctl.clk = t.ctl.clk := by simp [State.aluBitwise, State.zn8]
  simp only [bitwiseMicros, List.mem_cons, List.not_mem_nil, or_false] at h
  rcases h with rfl | rfl | rfl | rfl <;>
    exact ⟨(hall s _).1, (hall s _).2.1, (hall s _).2.2, fun ms b => s.aluBitwise_setQ_setClk ms b _⟩

/-- `SetIoGrant` reads and changes neither the queue nor the lines a step works with. -/
theorem Micro.transparent_of_setIoGrant {m : Micro} {b : Bool} (hm : ∀ s, perform m s = s.setIoGrant b) (s : State) :
    m.Transparent s := by
  refine ⟨?_, ?_, ?_, fun ms c => ?_⟩
  · rw [hm]; rcases s.setIoGrant_cases b with ⟨-, -, e⟩ | ⟨-, e⟩ <;> simp [e]
  · rw [hm]; rcases s.setIoGrant_cases b with ⟨-, -, e⟩ | ⟨-, e⟩ <;> simp [e]
  · rw [hm]; rcases s.setIoGrant_cases b with ⟨-, -, e⟩ | ⟨-, e⟩ <;> simp [e]
  · rw [hm, hm]
    cases b <;> cases hp : s.ioPending <;> simp [State.setIoGrant, hp] <;> rfl

theorem State.ioPut_transparent (s : State) : Micro.ioPut.Transparent s := by
  obtain ⟨mode⟩ := s
  cases mode <;> exact ⟨rfl, rfl, rfl, fun _ _ => rfl⟩

theorem Micro.transparent_of_isPlain {m : Micro} {s : State} (hm : m.isPlain = true) (ha : m.AccessOk s) :
    m.Transparent s := by
  cases m with
  | getVal latch => cases latch <;> exact ⟨rfl, rfl, rfl, fun _ _ => rfl⟩
  | aluAdd kind => exact s.aluAdd_transparent kind
  | aluTwos => exact s.aluTwos_transparent
  | aluAnd | aluOr | aluXor | aluNot => exact Micro.transparent_of_mem_bitwiseMicros (by decide) s
  | inLoad => exact ⟨rfl, rfl, rfl, fun _ _ => rfl⟩
  | ioOpen => exact Micro.transparent_of_setIoGrant (b := true) (fun _ => rfl) s
  | ioClose | ioRelease => exact Micro.transparent_of_setIoGrant (b := false) (fun _ => rfl) s
  | ioPut => exact s.ioPut_transparent
  | fetch | fetchRest | decode | execute | branch | ioCallback | ioHandler | endRun => cases hm
  | _ => exact Micro.transparent_of_isDatapath rfl ha

theorem perform_ioAck_of_isPlain {m : Micro} (hm : m.isPlain = true) (s : State) : (perform m s).ioAck = s.ioAck := by
  cases m with
  | getVal latch => cases latch <;> rfl
  | aluAdd | aluTwos => simp [perform, State.aluAdd, State.aluTwos, State.addFlags_eq]
  | aluAnd | aluOr | aluXor | aluNot => simp [perform, State.aluBitwise, State.zn8]
  | inLoad => rfl
  | ioOpen => rcases s.setIoGrant_cases true with ⟨-, -, e⟩ | ⟨-, e⟩ <;> simp [perform, e]
  | ioClose | ioRelease => rcases s.setIoGrant_cases false with ⟨-, -, e⟩ | ⟨-, e⟩ <;> simp [perform, e]
  | ioPut => cases h : s.mode <;> simp [perform, State.ioPut, h]
  | fetch | fetchRest | decode | execute | branch | ioCallback | ioHandler | endRun => cases hm
  | _ => exact perform_ioAck_of_isDatapath rfl s

theorem Micro.Transparent.q_eq {m : Micro} {s : State} (h : m.Transparent s) : (perform m s).q = s.q := by
  change (perform m ((s.setQ s.q).setClk s.ctl.clk)).q = s.q
  rw [h.commutes]
  rfl

theorem settled_perform_of_isPlain {s : State} {m : Micro} (h : s.Settled) (hm : m.isPlain = true)
    (ha : m.AccessOk s) :
    (perform m s).Settled := by
  have ht := Micro.transparent_of_isPlain hm ha
  refine ⟨ht.run_eq.trans h.running, ?_, ht.clk_eq.trans h.clkLow⟩
  rw [ht.ioreq_eq, perform_ioAck_of_isPlain hm, h.acknowledged]

/-- The dispatch of a plain micro-op where no request is left to acknowledge is its effect. -/
theorem dispatch_plain {s : State} {m : Micro} (h : s.Settled) (hm : m.isPlain = true) (ha : m.AccessOk s)
    (rest : List Micro) : dispatch m (s.setQ rest) = (perform m s).setQ rest := by
  have hs := (settled_perform_of_isPlain h hm ha).setQ rest
  have e : (perform m ((s.setQ rest).setClk true)).setClk false = (perform m s).setQ rest := by
    rw [(Micro.transparent_of_isPlain hm ha).commutes]
    exact hs.setClk_false
  rw [dispatch, tick_of_settled (e.symm ▸ hs), e]

/-- A list of plain micro-ops that only accesses addresses of the machine when it runs from `s`. -/
def PlainFrom : List Micro → State → Prop
  | [], _ => True
  | m :: ms, s => m.isPlain = true ∧ m.AccessOk s ∧ PlainFrom ms (perform m s)

theorem plainFrom_append (ms ms' : List Micro) (s : State) :
    PlainFrom (ms ++ ms') s ↔ PlainFrom ms s ∧ PlainFrom ms' (performAll ms s) := by
  induction ms generalizing s with
  | nil => simp [PlainFrom]
  | cons m ms ih => simp [PlainFrom, ih, and_assoc]

theorem plainFrom_of_datapathFrom {ms : List Micro} {s : State} (h : DatapathFrom ms s) : PlainFrom ms s := by
  induction ms generalizing s with
  | nil => trivial
  | cons m ms ih =>
    obtain ⟨hm, ha, hd⟩ := h
    exact ⟨Micro.isPlain_of_isDatapath hm, ha, ih hd⟩

theorem PlainFrom.q_eq {ms : List Micro} {s : State} (h : PlainFrom ms s) : (performAll ms s).q = s.q := by
  induction ms generalizing s with
  | nil => rfl
  | cons m ms ih =>
    obtain ⟨hm, ha, hd⟩ := h
    exact (ih hd).trans (Micro.transparent_of_isPlain hm ha).q_eq

theorem PlainFrom.settled {ms : List Micro} {s : State} (h : PlainFrom ms s) (hs : s.Settled) :
    (performAll ms s).Settled := by
  induction ms generalizing s with
  | nil => exact hs
  | cons m ms ih =>
    obtain ⟨hm, ha, hd⟩ := h
    exact ih hd (settled_perform_of_isPlain hs hm ha)

/-! ## Runs inside a phase -/

/-- A phase ends at no other head than one that begins the next phase. -/
def PhaseStop (stop : Micro → Bool) : Prop :=
  ∀ m, stop m = true → m = .fetch ∨ m = .decode ∨ m = .execute

theorem phaseStop_atDecodeOrFetch : PhaseStop atDecodeOrFetch := fun _ h => by
  simp [atDecodeOrFetch] at h
  tauto

theorem phaseStop_atExecute : PhaseStop atExecute := fun _ h => .inr (.inr (of_decide_eq_true h))

theorem phaseStop_atFetch : PhaseStop atFetch := fun _ h => .inl (of_decide_eq_true h)

theorem phaseStop_never : PhaseStop (fun _ => false) := fun _ h => by cases h

theorem PhaseStop.eq_false {stop : Micro → Bool} (h : PhaseStop stop) {m : Micro} (hf : m ≠ .fetch)
    (hd : m ≠ .decode) (he : m ≠ .execute) : stop m = false := by
  by_contra hs
  rcases h m (by simpa using hs) with rfl | rfl | rfl <;> contradiction

/-- `k` dispatches inside a phase lead from `s` to `t`. -/
def Leads (k : Nat) (s t : State) : Prop :=
  ∀ stop, PhaseStop stop → ∀ n, runUntil stop (k + n) s = runUntil stop n t

theorem Leads.refl (s : State) : Leads 0 s s := fun _ _ n => by rw [Nat.zero_add]

theorem Leads.trans {j k : Nat} {s t u : State} (h : Leads j s t) (h' : Leads k t u) : Leads (j + k) s u :=
  fun stop hstop n => by rw [Nat.add_assoc, h stop hstop, h' stop hstop]

/-- One dispatch, of a head that no phase ends at. -/
theorem leads_dispatch {s : State} {m : Micro} {rest : List Micro} (hr : s.run = .running) (hf : m ≠ .fetch)
    (hd : m ≠ .decode) (he : m ≠ .execute) : Leads 1 (s.setQ (m :: rest)) (dispatch m (s.setQ rest)) :=
  fun stop hstop n => by
    rw [Nat.add_comm]
    exact runUntil_step hr rfl (hstop.eq_false hf hd he)

/-- Plain micro-ops run as the composition of their effects. -/
theorem leads_plain {ms : List Micro} {s : State} (hs : s.Settled) (hp : PlainFrom ms s) (rest : List Micro) :
    Leads ms.length (s.setQ (ms ++ rest)) ((performAll ms s).setQ rest) := by
  induction ms generalizing s with
  | nil => exact Leads.refl _
  | cons m ms ih =>
    obtain ⟨hm, ha, hd⟩ := hp
    have hstep : Leads 1 (s.setQ (m :: (ms ++ rest))) ((perform m s).setQ (ms ++ rest)) := by
      rw [← dispatch_plain hs hm ha]
      refine leads_dispatch hs.running ?_ ?_ ?_ <;> (rintro rfl; cases hm)
    rw [List.length_cons, Nat.add_comm]
    exact hstep.trans (ih (settled_perform_of_isPlain hs hm ha) hd)

/-- The same run as steps of R73. -/
theorem Leads.microRun_eq {k : Nat} {s t : State} (h : Leads k s t) : microRun k s = t := by
  rw [microRun_eq_runUntil]
  exact h _ phaseStop_never 0

/-- A phase that reaches one of its ends stops there. -/
theorem Leads.runUntil_eq {k n : Nat} {s t : State} {stop : Micro → Bool} (h : Leads k s t) (hstop : PhaseStop stop)
    (hk : k ≤ n) (hend : ∀ n, runUntil stop n t = t) : runUntil stop n s = t := by
  obtain ⟨n, rfl⟩ := Nat.exists_eq_add_of_le hk
  rw [h stop hstop, hend]

/-! ## The queued handler (45_io.md R133) -/

/-- Nothing but a handler is queued, and only an acknowledged one. -/
def State.HandlerQueued (s : State) : Prop := s.q = [] ∨ s.q = [.ioHandler] ∧ s.ioAck = true

/-- A handler at the head has met the grants: it has gone back behind the queue, or the request is granted. -/
def State.afterHandler (s : State) : State :=
  if s.q = [] ∨ (s.ctl.gnt || s.ctl.iognt) = true then s else (granted s).setQ []

theorem State.afterHandler_cases (s : State) :
    s.afterHandler = s ∨ (s.ctl.gnt || s.ctl.iognt) = false ∧ s.afterHandler = (granted s).setQ [] := by
  unfold State.afterHandler
  split
  · exact .inl rfl
  · rename_i h
    exact .inr ⟨by simpa using (not_or.mp h).2, rfl⟩

theorem State.afterHandler_of_q_nil {s : State} (hq : s.q = []) : s.afterHandler = s := if_pos (.inl hq)

theorem State.afterHandler_of_busy {s : State} (h : (s.ctl.gnt || s.ctl.iognt) = true) : s.afterHandler = s :=
  if_pos (.inr h)

theorem State.afterHandler_of_free {s : State} (hq : s.q ≠ []) (h : (s.ctl.gnt || s.ctl.iognt) = false) :
    s.afterHandler = (granted s).setQ [] := if_neg (by simp [hq, h])

theorem State.afterHandler_afterHandler (s : State) : s.afterHandler.afterHandler = s.afterHandler := by
  rcases s.afterHandler_cases with h | ⟨-, h⟩
  · rw [h, h]
  · rw [h]
    exact State.afterHandler_of_q_nil rfl

theorem State.Settled.granted {s : State} (h : s.Settled) : (granted s).Settled := ⟨h.running, rfl, h.clkLow⟩

theorem State.Settled.afterHandler {s : State} (h : s.Settled) : s.afterHandler.Settled := by
  rcases s.afterHandler_cases with e | ⟨-, e⟩ <;> rw [e]
  · exact h
  · exact h.granted.setQ []

theorem State.HandlerQueued.afterHandler {s : State} (h : s.HandlerQueued) : s.afterHandler.HandlerQueued := by
  rcases s.afterHandler_cases with e | ⟨-, e⟩ <;> rw [e]
  · exact h
  · exact .inl rfl

theorem dispatch_ioHandler_of_free {s : State} (hs : s.Settled) (h : (s.ctl.gnt || s.ctl.iognt) = false)
    (rest : List Micro) : dispatch .ioHandler (s.setQ rest) = (granted s).setQ rest := by
  have hfree : perform .ioHandler ((s.setQ rest).setClk true) = granted ((s.setQ rest).setClk true) :=
    perform_ioHandler_of_free h
  rw [dispatch, tick_quiet (by rw [hfree]; exact hs.running) (by rw [hfree]; rfl), hfree]
  exact congrArg (State.setQ · rest) hs.granted.setClk_false

/-- A handler in front of the queue meets the grants. -/
theorem leads_handler {s : State} (hs : s.Settled) (hq : s.HandlerQueued) (ms : List Micro) :
    Leads s.q.length (s.setQ (s.q ++ ms)) (s.afterHandler.setQ (ms ++ s.afterHandler.q)) := by
  rcases hq with hq | ⟨hq, -⟩
  · rw [State.afterHandler_of_q_nil hq, hq, List.append_nil, List.nil_append]
    exact Leads.refl _
  · have hstep := leads_dispatch (s := s) (m := .ioHandler) (rest := ms) hs.running nofun nofun nofun
    cases hbusy : s.ctl.gnt || s.ctl.iognt with
    | true =>
      rw [dispatch_append hs (perform_ioHandler_of_busy (by exact hbusy))] at hstep
      rw [State.afterHandler_of_busy hbusy, hq]
      exact hstep
    | false =>
      rw [dispatch_ioHandler_of_free hs hbusy] at hstep
      rw [State.afterHandler_of_free (by simp [hq]) hbusy, hq]
      simpa using hstep

/-! ## The two phases after the fetch -/

/-- The arbiter as the operand phase begins: a handler that was queued has met the grants, a request that only waited
has its handler queued. -/
def State.afterDecode (s : State) : State := if s.q = [] then s.ioCheck else s.afterHandler

theorem tick_append_of_settled {s : State} (h : s.Settled) (ms rest : List Micro) :
    tick (fun t => t.append ms) (s.setQ rest) = s.setQ (rest ++ ms) := by
  have hs := h.setQ (rest ++ ms)
  have e : (((s.setQ rest).setClk true).append ms).setClk false = s.setQ (rest ++ ms) := hs.setClk_false
  exact (tick_of_settled (f := fun t => t.append ms) (e.symm ▸ hs)).trans e

theorem State.afterDecode_settled {s : State} (hr : s.run = .running) (hq : s.HandlerQueued)
    (hclk : s.ctl.clk = false) : s.afterDecode.Settled ∧ s.afterDecode.HandlerQueued := by
  unfold State.afterDecode
  rcases hq with hq | ⟨hq, hack⟩
  · rw [if_pos hq]
    rcases s.ioCheck_cases with ⟨-, -, e⟩ | ⟨h, e⟩ <;> rw [e]
    · exact ⟨⟨hr, by simp, hclk⟩, .inr ⟨by simp [hq], rfl⟩⟩
    · exact ⟨⟨hr, h, hclk⟩, .inl hq⟩
  · rw [if_neg (by simp [hq])]
    have hs : s.Settled := ⟨hr, by simp [hack], hclk⟩
    exact ⟨hs.afterHandler, State.HandlerQueued.afterHandler (.inr ⟨hq, hack⟩)⟩

/-- `Decode`'s clock cycle, and a handler that was queued before it. -/
theorem leads_afterDecode {s : State} (hr : s.run = .running) (hq : s.HandlerQueued) (ms : List Micro) :
    let u := (s.setClk false).afterDecode
    Leads s.q.length (tick (fun t => t.append ms) s) (u.setQ (ms ++ u.q)) := by
  intro u
  rcases hq with hq | ⟨hq, hack⟩
  · have hu : u = (s.setClk false).ioCheck := if_pos hq
    have htick : tick (fun t => t.append ms) s = u.setQ (ms ++ u.q) := by
      rw [tick_running hr, hu]
      rcases (s.setClk false).ioCheck_cases with ⟨h, h', e⟩ | ⟨h, e⟩
      · have h1 : s.ctl.ioreq = true := h
        have h2 : s.ioAck = false := h'
        rw [e]
        simp [State.ioCheck, h1, h2, hq, State.append, State.setQ, State.setClk, State.setIoAck]
      · have h1 : (s.ctl.ioreq && !s.ioAck) = false := h
        rw [e]
        simp only [State.ioCheck, State.append_ctl, State.setClk_ctl, State.append_ioAck, State.setClk_ioAck, h1]
        simp [hq, State.append, State.setQ, State.setClk]
    rw [htick, hq]
    exact Leads.refl _
  · have hu : u = (s.setClk false).afterHandler := if_neg (by simp [hq])
    have hs : (s.setClk false).Settled := ⟨hr, by simp [hack], rfl⟩
    have htick : tick (fun t => t.append ms) s = (s.setClk false).setQ (s.q ++ ms) :=
      tick_append_of_settled hs ms s.q
    rw [htick, hu]
    exact leads_handler hs (.inr ⟨hq, hack⟩) ms

theorem State.HandlerQueued.length_le {s : State} (h : s.HandlerQueued) : s.q.length ≤ 1 := by
  rcases h with hq | ⟨hq, -⟩ <;> simp [hq]

end Sys2Proof.Machine

/-! The net effects of the instructions (40_control_unit.md R98 to R101, 41 to 46): the operand micro-ops and the
Bodies, as the composition of their effects, are the net effects of Safety.lean; with the runs of the control unit
this gives what every instruction answers, whatever the I/O arbiter is doing. -/

namespace Sys2Proof.Machine

/-! ## Every meaning is one call of `runInstr` -/

/-- The operand micro-ops of an instruction (R98, R99). -/
def getOpOf (i : Instr) : List Micro :=
  match i.machineMode with
  | .standard => getOpStd (i.opcode.classIn .standard) i.addrMode
  | .expanded => getOpExp (i.opcode.classIn .expanded) i.addrMode

/-- A meaning is the instruction cycle of its bits, its operand micro-ops and its Body. -/
theorem exec_eq_runInstr (i : Instr) (s : State) :
    exec i s = runInstr i.machineMode i.code (getOpOf i) (bodyOf i.machineMode i.opcode) s := by
  cases i <;> rfl

/-! ## Reads and writes at an address that was just driven -/

/-- A read at the address that a register holds (R83, R84). -/
def readAt (src : AbusSrc) : List Micro := [.abusFrom src, .memOut]

/-- The address driven from a register, and the byte read there (R83, R84, 20_memory.md R40). -/
theorem performAll_readAt (s : State) (src : AbusSrc) :
    performAll (readAt src) s
      = (s.abusFrom src).driveDbus (Memory.read s.mem (s.abusFrom src).abus.toNat) := by
  cases src <;> exact State.memOut_eq _ (fitTo_lt _ _)

theorem abusFrom_abus_lt (s : State) (src : AbusSrc) :
    (s.abusFrom src).abus.toNat < (s.abusFrom src).mode.memSize := by
  cases src <;> exact fitTo_lt _ _

theorem plainFrom_readAt (s : State) (src : AbusSrc) : PlainFrom (readAt src) s :=
  ⟨rfl, by simp [Micro.AccessOk], rfl, fun _ => abusFrom_abus_lt s src, trivial⟩

/-- Micro-ops that access no memory run from every state. -/
theorem plainFrom_of_noAccess {ms : List Micro} (h : ∀ m ∈ ms, m.isPlain = true ∧ m ≠ .memOut ∧ m ≠ .memIn)
    (s : State) : PlainFrom ms s := by
  induction ms generalizing s with
  | nil => trivial
  | cons m ms ih =>
    obtain ⟨hm, hout, hin⟩ := h m (by simp)
    exact ⟨hm, fun e => (e.elim hout hin).elim, ih (fun m' hm' => h m' (by simp [hm'])) _⟩

/-! ## The operand phase (R98, R99) -/

/-- The operand phase of an instruction as a net effect, by its machine mode, class and addressing mode. -/
def operandNet (i : Instr) (s : State) : State :=
  match i.machineMode, i.opcode.classIn i.machineMode with
  | _, .none => operandNone i s
  | .standard, _ => operandStd i i.addrMode (i.operandBytes.headD 0#8) s
  | .expanded, .data =>
    match i.addrMode with
    | .direct => operandExpLit i (i.operandBytes.headD 0#8) s
    | .address => operandExpMem i (expOperand i.operandBytes) s
  | .expanded, .addr => operandExpAddr i i.addrMode (expOperand i.operandBytes) s

/-- A state in which the operand phase of `i` begins: CIR holds the instruction, the clock line is low. -/
structure State.Holds (s : State) (i : Instr) : Prop where
  mode_eq : s.mode = i.machineMode
  cir_eq : s.cir = i.code
  clkLow : s.ctl.clk = false

theorem State.Holds.eq_operandNone {s : State} {i : Instr} (h : s.Holds i) : s = operandNone i s := by
  simp [operandNone, ← h.cir_eq, ← h.clkLow]

theorem Instr.headD_of_standard {i : Instr} (hi : i.machineMode = .standard) :
    cirOpnd i.code = i.operandBytes.headD 0#8 := by
  obtain ⟨n, hn, -⟩ := Instr.exists_stdInstr_eq hi
  simp [Instr.code_of_standard hi hn, cirOpnd, cirWord, hn]

theorem Instr.operand_of_expanded {i : Instr} (hi : i.machineMode = .expanded) :
    cirOperand i.code = expOperand i.operandBytes := by
  simp [Instr.code_of_expanded hi, cirOperand, cirBytes]

@[simp] theorem toNat_setWidth_byte (b : Byte) : (b.setWidth 32).toNat = b.toNat :=
  BitVec.toNat_setWidth_of_le (by decide)

theorem getOpStd_eq_data {cls : OpClass} (hc : cls ≠ .none) (m : AddrMode) : getOpStd cls m = getOpStd .data m := by
  cases cls with
  | none => exact absurd rfl hc
  | data | addr => cases m <;> rfl

theorem getOpStd_data_address :
    getOpStd .data .address
      = ([.busReq, .busGrant, .dbusFrom .opnd, .load .mdr, .marFrom .mdr, .readOn] : List Micro) ++ readAt .mar
        ++ ([.load .mdr, .readOff, .busRelease] : List Micro) := rfl

/-- The bus transaction that an Expanded operand is fetched in, with MAR on its address (R99). -/
def openOperand : List Micro := [.busReq, .busGrant, .marFrom .mdr, .readOn]

theorem getOpExp_data_address :
    getOpExp .data .address
      = [.loadOperand] ++ openOperand ++ readAt .mar ++ ([.load .mdr, .readOff, .busRelease] : List Micro) := rfl

/-- The bus transaction that reads the operand byte of CIR into MDR (R98). -/
theorem performAll_getOpStd_direct {s : State} {i : Instr} (h : s.Holds i) (hi : i.machineMode = .standard)
    {cls : OpClass} (hc : cls ≠ .none) :
    performAll (getOpStd cls .direct) s = operandStd i .direct (i.operandBytes.headD 0#8) s := by
  have hm := h.mode_eq.trans hi
  rw [getOpStd_eq_data hc]
  simp [getOpStd, perform, State.dbusFrom, State.load, State.writeMdr, State.driveDbus, State.setReq, State.setGnt,
    loadTail,
    operandStd, hm, h.cir_eq, h.clkLow, Instr.headD_of_standard hi]

/-- The same, and the byte at that address over DATABUS (R98). -/
theorem performAll_getOpStd_address {s : State} {i : Instr} (h : s.Holds i) (hi : i.machineMode = .standard)
    {cls : OpClass} (hc : cls ≠ .none) :
    performAll (getOpStd cls .address) s = operandStd i .address (i.operandBytes.headD 0#8) s := by
  have hm := h.mode_eq.trans hi
  rw [getOpStd_eq_data hc, getOpStd_data_address, performAll_append, performAll_append, performAll_readAt]
  simp [perform, State.dbusFrom, State.load, State.marFrom, State.abusFrom, State.writeMdr, State.writeMar,
    State.driveAbus, State.driveDbus, State.setReq, State.setGnt, State.setRd, loadTail, operandStd, hm, h.cir_eq,
    h.clkLow, Instr.headD_of_standard hi, -BitVec.toNat_setWidth]

theorem performAll_loadOperand {s : State} {i : Instr} (h : s.Holds i) (hi : i.machineMode = .expanded) :
    performAll [.loadOperand] s = { s with mdr := expOperand i.operandBytes } := by
  simp [perform, State.loadOperand, State.writeMdr, h.mode_eq.trans hi, h.cir_eq, Instr.operand_of_expanded hi]

/-- The byte at the operand replaces the tail of MDR (R99, data class). -/
theorem performAll_getOpExp_data_address {s : State} {i : Instr} (h : s.Holds i) (hi : i.machineMode = .expanded) :
    performAll (getOpExp .data .address) s = operandExpMem i (expOperand i.operandBytes) s := by
  have hm := h.mode_eq.trans hi
  rw [getOpExp_data_address, performAll_append, performAll_append, performAll_append, performAll_loadOperand h hi,
    performAll_readAt]
  simp [openOperand, perform, State.load, State.marFrom, State.abusFrom, State.writeMdr, State.writeMar,
    State.driveAbus,
    State.driveDbus, State.setReq, State.setGnt, State.setRd, loadTail, operandExpMem, hm, h.cir_eq, h.clkLow]

/-- A state up to the components that a pointer read writes. -/
def State.withPointer (s : State) (mdr mar abus : Addr) (dbus : Byte) : State :=
  { s with mdr := mdr, mar := mar, abus := abus, dbus := dbus }

theorem pointerRound_eq : pointerRound = readAt .mar ++ ([.rot .mdr, .load .mdr, .inc .mar] : List Micro) := rfl

/-- A round of the pointer read: the byte at MAR is shifted into MDR, and MAR moves past it (R99, 20_memory.md R43). -/
theorem performAll_pointerRound {s : State} (hm : s.mode = .expanded) (b3 b2 b1 b0 d : Byte) (p x : Addr) :
    performAll pointerRound (s.withPointer (fourBytes b3 b2 b1 b0) p x d)
      = s.withPointer (fourBytes b2 b1 b0 (Memory.read s.mem p.toNat)) (p + 1#32) p (Memory.read s.mem p.toNat) := by
  rw [pointerRound_eq, performAll_append, performAll_readAt]
  simp [perform, State.abusFrom, State.rot, State.load, State.inc, State.driveAbus, State.driveDbus, State.writeMdr,
    State.writeMar, State.withPointer, hm]

/-- The four rounds of a pointer read. -/
def readPointer : List Micro := pointerRound ++ pointerRound ++ pointerRound ++ pointerRound

/-- Four rounds leave the big-endian pointer in MDR. -/
theorem performAll_readPointer {s : State} (hm : s.mode = .expanded) :
    performAll readPointer s
      = s.withPointer (pointerAt s.mar s.mem) (s.mar + 4#32) (s.mar + 3#32)
          (Memory.read s.mem (s.mar + 3#32).toNat) := by
  obtain ⟨b3, b2, b1, b0, hmdr⟩ := exists_fourBytes s.mdr
  have hadd (k l : Addr) : s.mar + k + l = s.mar + (k + l) := BitVec.add_assoc _ _ _
  calc performAll readPointer s
      = performAll readPointer (s.withPointer (fourBytes b3 b2 b1 b0) s.mar s.abus s.dbus) := by
        rw [← hmdr]
        rfl
    _ = s.withPointer (pointerAt s.mar s.mem) (s.mar + 4#32) (s.mar + 3#32)
          (Memory.read s.mem (s.mar + 3#32).toNat) := by
        simp only [readPointer, performAll_append, performAll_pointerRound hm, hadd]
        rfl

theorem getOpExp_addr_address :
    getOpExp .addr .address
      = [.loadOperand] ++ openOperand ++ readPointer ++ ([.readOff, .busRelease] : List Micro) := rfl

theorem plainFrom_readPointer (s : State) : PlainFrom readPointer s := by
  have hround (t : State) : PlainFrom pointerRound t := by
    rw [pointerRound_eq, plainFrom_append]
    exact ⟨plainFrom_readAt t .mar, plainFrom_of_noAccess (by decide) _⟩
  simp only [readPointer, plainFrom_append]
  exact ⟨⟨⟨hround _, hround _⟩, hround _⟩, hround _⟩

/-- The pointer at the operand replaces MDR (R99, address class). -/
theorem performAll_getOpExp_addr_address {s : State} {i : Instr} (h : s.Holds i) (hi : i.machineMode = .expanded) :
    performAll (getOpExp .addr .address) s = operandExpAddr i .address (expOperand i.operandBytes) s := by
  have hm := h.mode_eq.trans hi
  rw [getOpExp_addr_address, performAll_append, performAll_append, performAll_append, performAll_loadOperand h hi,
    performAll_readPointer (by simpa [openOperand, perform, State.marFrom] using hm)]
  simp [openOperand, perform, State.marFrom, State.writeMar, State.setReq, State.setGnt, State.setRd, State.withPointer,
    operandExpAddr, hm, h.cir_eq, h.clkLow]

theorem performAll_getOpExp_direct {s : State} {i : Instr} (h : s.Holds i) (hi : i.machineMode = .expanded) :
    performAll [.loadOperand] s = operandExpAddr i .direct (expOperand i.operandBytes) s := by
  rw [performAll_loadOperand h hi]
  simp [operandExpAddr, ← h.cir_eq, ← h.clkLow]

/-- A data-class literal is one operand byte (30_encoding.md R67). -/
theorem Instr.expOperand_of_literal {i : Instr} (hi : i.machineMode = .expanded)
    (hc : i.opcode.classIn .expanded = .data) (hm : i.addrMode = .direct) :
    expOperand i.operandBytes = (i.operandBytes.headD 0#8).setWidth 32 := by
  cases i with
  | expAddLit | expSubLit | expAndLit | expOrLit | expXorLit | expOutputLit => rfl
  | expAddMem | expSubMem | expAndMem | expOrMem | expXorMem | expOutputMem => cases hm
  | expNot | expRead | expWrite | expGoto | expBranchIfZero | expBranchIfNegative | expBranchIfOverflow
  | expBranchIfCarry | expInput | expEnd => cases hc
  | _ => cases hi

/-- The operand micro-ops have the net effect of R98 and R99. -/
theorem performAll_getOpOf {s : State} {i : Instr} (h : s.Holds i) : performAll (getOpOf i) s = operandNet i s := by
  cases hi : i.machineMode with
  | standard =>
    cases hc : i.opcode.classIn .standard with
    | none =>
      simp only [getOpOf, operandNet, hi, hc, getOpStd]
      exact h.eq_operandNone
    | data | addr =>
      simp only [getOpOf, operandNet, hi, hc]
      cases hm : i.addrMode with
      | direct => exact performAll_getOpStd_direct h hi nofun
      | address => exact performAll_getOpStd_address h hi nofun
  | expanded =>
    cases hc : i.opcode.classIn .expanded with
    | none =>
      simp only [getOpOf, operandNet, hi, hc, getOpExp]
      exact h.eq_operandNone
    | data =>
      simp only [getOpOf, operandNet, hi, hc]
      cases hm : i.addrMode with
      | direct =>
        refine (performAll_getOpExp_direct h hi).trans ?_
        simp only [operandExpAddr, operandExpLit, Instr.expOperand_of_literal hi hc hm]
      | address => exact performAll_getOpExp_data_address h hi
    | addr =>
      simp only [getOpOf, operandNet, hi, hc]
      cases hm : i.addrMode with
      | direct => exact performAll_getOpExp_direct h hi
      | address => exact performAll_getOpExp_addr_address h hi

theorem plainFrom_getOpStd (cls : OpClass) (m : AddrMode) (s : State) : PlainFrom (getOpStd cls m) s := by
  by_cases hc : cls = .none
  · subst hc
    exact plainFrom_of_noAccess (by simp [getOpStd]) s
  · rw [getOpStd_eq_data hc]
    cases m with
    | direct => exact plainFrom_of_noAccess (by decide) s
    | address =>
      rw [getOpStd_data_address, plainFrom_append, plainFrom_append]
      exact ⟨⟨plainFrom_of_noAccess (by decide) _, plainFrom_readAt _ _⟩, plainFrom_of_noAccess (by decide) _⟩

theorem plainFrom_getOpExp (cls : OpClass) (m : AddrMode) (s : State) : PlainFrom (getOpExp cls m) s := by
  cases cls with
  | none => cases m <;> trivial
  | data =>
    cases m with
    | direct => exact plainFrom_of_noAccess (by decide) s
    | address =>
      rw [getOpExp_data_address, plainFrom_append, plainFrom_append]
      exact ⟨⟨plainFrom_of_noAccess (by decide) _, plainFrom_readAt _ _⟩, plainFrom_of_noAccess (by decide) _⟩
  | addr =>
    cases m with
    | direct => exact plainFrom_of_noAccess (by decide) s
    | address =>
      rw [getOpExp_addr_address, plainFrom_append, plainFrom_append]
      exact ⟨⟨plainFrom_of_noAccess (by decide) _, plainFrom_readPointer _⟩, plainFrom_of_noAccess (by decide) _⟩

theorem plainFrom_getOpOf (i : Instr) (s : State) : PlainFrom (getOpOf i) s := by
  cases hi : i.machineMode <;> simp only [getOpOf, hi]
  · exact plainFrom_getOpStd _ _ s
  · exact plainFrom_getOpExp _ _ s

theorem getOpOf_length_lt (i : Instr) : (getOpOf i).length < Config.phaseFuel := by
  cases hi : i.machineMode <;> simp only [getOpOf, hi]
  · cases i.opcode.classIn .standard <;> cases i.addrMode <;> decide
  · cases i.opcode.classIn .expanded <;> cases i.addrMode <;> decide

end Sys2Proof.Machine

/-! The Execute phase of each Body (40_control_unit.md R101) as its net effect, and what every instruction answers. -/

namespace Sys2Proof.Machine

/-! ## The Bodies of plain micro-ops -/

/-- The micro-ops of a Body that ends with `Fetch`, but for that `Fetch`. -/
def bodyMicros (mode : MachineMode) (op : Opcode) : List Micro := (bodyOf mode op).dropLast

theorem State.aluAdd_eq (s : State) (k : AddKind) :
    s.aluAdd k =
      { s with
        res := s.val1 + s.val2
        submark := decide (k = .sub)
        status :=
          { z := decide (s.val1 + s.val2 = 0#8), n := (s.val1 + s.val2).msb, v := add8Overflow s.val1 s.val2,
            c := add8Carry s.val1 s.val2 }
        ctl := { s.ctl with fidx := 1#2, fval := (s.val1 + s.val2).msb } } := by
  rw [State.aluAdd, State.addFlags_eq]
  rfl

theorem State.aluBitwise_eq (s : State) (r : Byte) :
    s.aluBitwise r =
      { s with
        res := r
        status := { s.status with z := decide (r = 0#8), n := r.msb }
        ctl := { s.ctl with fidx := 1#2, fval := r.msb } } := rfl

/-- The operands on their way over DATABUS into the latches, and the result into ACC, in one bus transaction. -/
theorem performAll_addBody (t : State) (mode : MachineMode) :
    (performAll (bodyMicros mode .add) t).setQ [.fetch] = netAdd t := by
  simp [bodyMicros, bodyOf, addBody, perform, State.dbusFrom, State.getVal, State.load, State.writeAcc, State.driveDbus,
    State.writeVal1, State.writeVal2, State.setReq, State.setGnt, State.setQ, State.aluAdd_eq, netAdd, ctlAfterAlu,
    add8Overflow, add8Carry, add8_eq_add]

theorem add8Carry_neg (x y : Byte) : add8Carry (-x) y = decide (x ≠ 0#8 ∧ x.toNat ≤ y.toNat) := by
  rw [add8Carry, decide_eq_decide]
  bv_omega

theorem neg_add_eq_sub (x y : Byte) : -x + y = y - x := by
  rw [BitVec.sub_eq_add_neg, BitVec.add_comm]

theorem sub_eq_zero_iff (x y : Byte) : y - x = 0#8 ↔ y = x := by
  bv_omega

/-- `AluTwos` leaves the negated operand in `val1`; the addition after it writes over the result and the flags. -/
theorem performAll_subBody (t : State) (mode : MachineMode) :
    (performAll (bodyMicros mode .sub) t).setQ [.fetch] = netSub t := by
  simp [bodyMicros, bodyOf, subBody, perform, State.dbusFrom, State.getVal, State.load, State.writeAcc, State.driveDbus,
    State.writeVal1, State.writeVal2, State.writeRes, State.setReq, State.setGnt, State.setQ, State.aluTwos,
    State.addFlags_eq, State.aluAdd_eq, netSub, ctlAfterAlu, twos8_eq_neg, add8Overflow, add8_eq_add, add8Carry_neg,
    neg_add_eq_sub, sub_eq_zero_iff]

/-- The Body that `and`, `or` and `xor` share, for an ALU micro-op with result `op val1 val2`. -/
theorem performAll_logicBody {alu : Micro} {op : Byte → Byte → Byte}
    (halu : ∀ s, perform alu s = s.aluBitwise (op s.val1 s.val2)) (t : State) :
    (performAll (logicBody alu).dropLast t).setQ [.fetch] = netLogic op t := by
  have halu' (s : State) : performAll [alu] s = s.aluBitwise (op s.val1 s.val2) := halu s
  have hlist : (logicBody alu).dropLast = ([.busReq, .busGrant, .dbusFrom .mdr, .getVal .val1, .dbusFrom .acc,
    .getVal .val2] : List Micro) ++ [alu] ++ ([.dbusFrom .res, .load .acc, .busRelease] : List Micro) := rfl
  rw [hlist, performAll_append, performAll_append, halu']
  simp [perform, State.dbusFrom, State.getVal, State.load, State.writeAcc, State.driveDbus,
    State.writeVal1, State.writeVal2, State.setReq, State.setGnt, State.setQ, State.aluBitwise_eq, netLogic,
    ctlAfterAlu]

theorem performAll_notBody (t : State) (mode : MachineMode) :
    (performAll (bodyMicros mode .not) t).setQ [.fetch] = netNot t := by
  have hz : ~~~t.acc = 0#8 ↔ t.acc = 255#8 := by bv_omega
  simp [bodyMicros, bodyOf, notBody, perform, State.dbusFrom, State.getVal, State.load, State.writeAcc, State.driveDbus,
    State.writeVal1, State.setReq, State.setGnt, State.setQ, State.aluBitwise_eq, netNot, ctlAfterAlu, hz,
    BitVec.msb_not]

theorem bodyMicros_read (mode : MachineMode) :
    bodyMicros mode .read = ([.busReq, .busGrant, .readOn] : List Micro) ++ readAt .mdr
      ++ ([.load .acc, .readOff, .busRelease] : List Micro) := rfl

theorem performAll_readBody {t : State} (mode : MachineMode) (hfit : t.mdr.toNat < t.mode.memSize) :
    (performAll (bodyMicros mode .read) t).setQ [.fetch] = netRead t := by
  rw [bodyMicros_read, performAll_append, performAll_append, performAll_readAt]
  simp [perform, State.abusFrom, State.load, State.driveAbus, State.driveDbus, State.writeAcc, State.setReq,
    State.setGnt, State.setRd, State.setQ, netRead, fitTo_of_lt _ _ hfit]

/-- A store of ACC at the address that MDR holds (R83, R85, R86). -/
def storeAcc : List Micro := [.abusFrom .mdr, .dbusFrom .acc, .memIn]

/-- ACC stored at the address that was just driven (R85). -/
theorem performAll_storeAcc (t : State) :
    performAll storeAcc t
      = ((t.abusFrom .mdr).driveDbus t.acc).setMem (Memory.write t.mem (t.abusFrom .mdr).abus.toNat t.acc) :=
  State.memIn_eq _ (fitTo_lt _ _)

theorem bodyMicros_write (mode : MachineMode) :
    bodyMicros mode .write = ([.busReq, .busGrant, .writeOn] : List Micro) ++ storeAcc
      ++ ([.writeOff, .busRelease] : List Micro) := rfl

theorem performAll_writeBody {t : State} (mode : MachineMode) (hfit : t.mdr.toNat < t.mode.memSize) :
    (performAll (bodyMicros mode .write) t).setQ [.fetch] = netWrite t := by
  rw [bodyMicros_write, performAll_append, performAll_append, performAll_storeAcc]
  simp [perform, State.abusFrom, State.driveAbus, State.driveDbus, State.setMem, State.setReq, State.setGnt,
    State.setWr, State.setQ, netWrite, fitTo_of_lt _ _ hfit]

theorem performAll_inputBody (t : State) (mode : MachineMode) :
    (performAll (bodyMicros mode .input) t).setQ [.fetch] = netInput t := rfl

/-- The opcodes whose Body is plain micro-ops and `Fetch`. -/
def hasPlainBody : Opcode → Bool
  | .branchIfZero | .branchIfNegative | .branchIfOverflow | .branchIfCarry | .output | .endRun => false
  | _ => true

/-- The byte that `IoPut` puts on IOBUS (45_io.md R135). -/
def outputByte (t : State) : Byte :=
  match t.mode with
  | .standard => t.acc
  | .expanded => t.mdr.setWidth 8

/-- The Execute phase as a net effect, by opcode. -/
def executeNet (op : Opcode) (t : State) : State :=
  match op with
  | .add => netAdd t
  | .sub => netSub t
  | .and => netLogic (fun dv acc => dv &&& acc) t
  | .or => netLogic (fun dv acc => dv ||| acc) t
  | .xor => netLogic (fun dv acc => dv ^^^ acc) t
  | .not => netNot t
  | .read => netRead t
  | .write => netWrite t
  | .goto => netGoto t
  | .branchIfZero => netBranch t.status.z t
  | .branchIfNegative => netBranch t.status.n t
  | .branchIfOverflow => netBranch t.status.v t
  | .branchIfCarry => netBranch t.status.c t
  | .output => netOutput (outputByte t) t
  | .input => netInput t
  | .endRun => netEnd t

theorem bodyOf_eq_of_hasPlainBody (mode : MachineMode) {op : Opcode} (hop : hasPlainBody op = true) :
    bodyOf mode op = bodyMicros mode op ++ [.fetch] := by
  cases op with
  | goto => cases mode <;> rfl
  | branchIfZero | branchIfNegative | branchIfOverflow | branchIfCarry | output | endRun => cases hop
  | _ => rfl

theorem bodyMicros_goto (mode : MachineMode) : bodyMicros mode .goto = gotoMicros mode := by
  cases mode <;> rfl

theorem performAll_bodyMicros {op : Opcode} (hop : hasPlainBody op = true) {t : State}
    (hfit : op.classIn t.mode = .addr → t.mdr.toNat < t.mode.memSize) :
    (performAll (bodyMicros t.mode op) t).setQ [.fetch] = executeNet op t := by
  cases op with
  | add => exact performAll_addBody t _
  | sub => exact performAll_subBody t _
  | and => exact performAll_logicBody (fun _ => rfl) t
  | or => exact performAll_logicBody (fun _ => rfl) t
  | xor => exact performAll_logicBody (fun _ => rfl) t
  | not => exact performAll_notBody t _
  | read => exact performAll_readBody _ (hfit (by cases t.mode <;> rfl))
  | write => exact performAll_writeBody _ (hfit (by cases t.mode <;> rfl))
  | goto => rw [bodyMicros_goto]; exact performAll_gotoMicros (hfit (by cases t.mode <;> rfl))
  | input => exact performAll_inputBody t _
  | branchIfZero | branchIfNegative | branchIfOverflow | branchIfCarry | output | endRun => cases hop

theorem plainFrom_bodyMicros {op : Opcode} (hop : hasPlainBody op = true) (mode : MachineMode) (t : State) :
    PlainFrom (bodyMicros mode op) t := by
  cases op with
  | read =>
    rw [bodyMicros_read, plainFrom_append, plainFrom_append]
    exact ⟨⟨plainFrom_of_noAccess (by decide) _, plainFrom_readAt _ _⟩, plainFrom_of_noAccess (by decide) _⟩
  | write =>
    have hstore (u : State) : PlainFrom storeAcc u :=
      ⟨rfl, by simp [Micro.AccessOk], rfl, by simp [Micro.AccessOk], rfl, fun _ => abusFrom_abus_lt u .mdr, trivial⟩
    rw [bodyMicros_write, plainFrom_append, plainFrom_append]
    exact ⟨⟨plainFrom_of_noAccess (by decide) _, hstore _⟩, plainFrom_of_noAccess (by decide) _⟩
  | goto => rw [bodyMicros_goto]; exact plainFrom_of_datapathFrom (datapathFrom_gotoMicros t mode)
  | branchIfZero | branchIfNegative | branchIfOverflow | branchIfCarry | output | endRun => cases hop
  | _ => cases mode <;> exact plainFrom_of_noAccess (by decide) t

end Sys2Proof.Machine

namespace Sys2Proof.Machine

/-! ## The Execute phase of every Body -/

/-- What the Execute phase leaves: the net effect, with a handler that is still queued behind its queue; `End`
empties the queue (46_end.md R141). -/
def finish (op : Opcode) (t : State) : State :=
  if op = .endRun then netEnd t else (executeNet op t).setQ ((executeNet op t).q ++ t.q)

@[simp] theorem finish_endRun (t : State) : finish .endRun t = netEnd t := if_pos rfl

theorem finish_of_ne_endRun {op : Opcode} (h : op ≠ .endRun) (t : State) :
    finish op t = (executeNet op t).setQ ((executeNet op t).q ++ t.q) := if_neg h

theorem leads_plainBody {op : Opcode} (hop : hasPlainBody op = true) {t : State} (hs : t.Settled)
    (hfit : op.classIn t.mode = .addr → t.mdr.toNat < t.mode.memSize) :
    Leads (bodyMicros t.mode op).length (t.setQ (bodyOf t.mode op ++ t.q)) (finish op t) := by
  have hnet := performAll_bodyMicros hop hfit
  have hfinish : finish op t = (performAll (bodyMicros t.mode op) t).setQ (.fetch :: t.q) := by
    rw [finish_of_ne_endRun (by rintro rfl; cases hop), ← hnet]
    simp only [State.setQ_setQ, State.setQ_q, List.cons_append, List.nil_append]
  rw [hfinish, bodyOf_eq_of_hasPlainBody _ hop, List.append_assoc]
  exact leads_plain hs (plainFrom_bodyMicros hop _ t) _

/-- A branch: its micro-op, the handler that is queued behind it, and the transfer where the flag is 1 (R126). -/
theorem leads_branchBody {t : State} (hs : t.Settled) (hq : t.HandlerQueued) (hmet : t.afterHandler = t)
    (hfit : t.mdr.toNat < t.mode.memSize) (f : Flag) :
    Leads (1 + t.q.length + if t.status.get f then (gotoMicros t.mode).length else 0) (t.setQ (.branch f :: t.q))
      ((netBranch (t.status.get f) t).setQ (.fetch :: t.q)) := by
  have hbranch (ms : List Micro)
      (hp : ∀ u : State, u.status = t.status → u.mode = t.mode → u.branchOp f = u.append ms) :
      Leads (1 + t.q.length) (t.setQ (.branch f :: t.q)) (t.setQ (ms ++ t.q)) := by
    have hdispatch : dispatch (.branch f) (t.setQ t.q) = t.setQ (t.q ++ ms) := dispatch_append hs (hp _ rfl rfl)
    have hmeet := leads_handler hs hq ms
    rw [hmet, ← hdispatch] at hmeet
    exact (leads_dispatch (m := .branch f) hs.running nofun nofun nofun).trans hmeet
  cases hb : t.status.get f with
  | true =>
    have hgoto := leads_plainBody (op := .goto) rfl hs fun _ => hfit
    rw [bodyMicros_goto] at hgoto
    exact (hbranch (gotoBody t.mode) fun u hu hm => by simp [State.branchOp, hu, hb, hm]).trans hgoto
  | false => exact hbranch [.fetch] fun u hu _ => by simp [State.branchOp, hu, hb]

/-- The output byte on IOBUS under the I/O grant; a byte that was staged is lost (45_io.md R135, R139). -/
def outputDriven (t : State) : State :=
  { t with iobus := outputByte t, ioPending := false, ctl := { t.ctl with iognt := true } }

theorem State.Settled.outputDriven {t : State} (h : t.Settled) : (outputDriven t).Settled :=
  ⟨h.running, h.acknowledged, h.clkLow⟩

theorem performAll_ioOpen_ioPut (t : State) : performAll [.ioOpen, .ioPut] t = outputDriven t := by
  cases hm : t.mode <;> cases hp : t.ioPending <;>
    simp [perform, State.setIoGrant, State.ioPut, State.setIognt, State.driveIobus, State.setIoPending, outputDriven,
      outputByte, hm, hp]

/-- `IoCallback` where the device does not answer. -/
theorem dispatch_ioCallback_none {t : State} (hs : t.Settled) (rest : List Micro)
    (hreply : deviceReply t.device (outputsOf (t.events ++ [.output t.iobus])) = none) :
    dispatch .ioCallback (t.setQ rest) = (t.emit (.output t.iobus)).setQ rest := by
  have hp : perform .ioCallback ((t.setQ rest).setClk true) = ((t.setQ rest).setClk true).emit (.output t.iobus) := by
    simp [perform, State.ioCallback, hreply]
  have hs' : ((t.emit (.output t.iobus)).setQ rest).Settled := ⟨hs.running, hs.acknowledged, hs.clkLow⟩
  have e : (perform .ioCallback ((t.setQ rest).setClk true)).setClk false = (t.emit (.output t.iobus)).setQ rest := by
    rw [hp]
    exact hs'.setClk_false
  rw [dispatch, tick_of_settled (e.symm ▸ hs'), e]

/-- `IoCallback` where the device answers: the request is acknowledged in the same step (R140). -/
theorem dispatch_ioCallback_some {t : State} (hs : t.Settled) (rest : List Micro) {v : Byte}
    (hreply : deviceReply t.device (outputsOf (t.events ++ [.output t.iobus])) = some v) :
    dispatch .ioCallback (t.setQ rest)
      = (((t.emit (.output t.iobus)).receiveInput v).setIoAck true).setQ
          (rest ++ if t.ioAck then [] else [.ioHandler]) := by
  have hp : perform .ioCallback ((t.setQ rest).setClk true)
      = (((t.setQ rest).setClk true).emit (.output t.iobus)).receiveInput v := by
    simp [perform, State.ioCallback, hreply]
  have hrun : (perform .ioCallback ((t.setQ rest).setClk true)).run = .running := by
    rw [hp]
    simpa using hs.running
  rw [dispatch, tick_running hrun, hp]
  cases hack : t.ioAck <;>
    simp [State.ioCheck, State.receiveInput, State.emit, State.setQ, State.setClk, State.setIoAck, State.setIoreq,
      State.setIoPending, State.setIoVal, State.append, hack, hs.clkLow]

theorem leads_outputBody {t : State} (hs : t.Settled) (hq : t.HandlerQueued) :
    Leads 4 (t.setQ (outputBody ++ t.q)) (finish .output t) := by
  have hopen := leads_plain hs (plainFrom_of_noAccess (ms := [.ioOpen, .ioPut]) (by decide) t)
    (.ioCallback :: .ioClose :: .fetch :: t.q)
  rw [performAll_ioOpen_ioPut] at hopen
  have hs1 := hs.outputDriven
  have hcall := hopen.trans (leads_dispatch (m := .ioCallback) (rest := .ioClose :: .fetch :: t.q) hs1.running
    nofun nofun nofun)
  have hclose {u : State} (hu : u.Settled) (rest : List Micro) :
      Leads 1 (u.setQ (.ioClose :: rest)) ((u.setIognt false).setQ rest) := by
    have := leads_plain hu (plainFrom_of_noAccess (ms := [.ioClose]) (by decide) u) rest
    simpa [perform, State.setIoGrant] using this
  cases hreply : deviceReply t.device (outputsOf (t.events ++ [.output (outputByte t)])) with
  | none =>
    rw [dispatch_ioCallback_none hs1 _ hreply] at hcall
    have hs2 : ((outputDriven t).emit (.output (outputByte t))).Settled :=
      ⟨hs1.running, hs1.acknowledged, hs1.clkLow⟩
    have hfinish : finish .output t
        = (((outputDriven t).emit (.output (outputByte t))).setIognt false).setQ (.fetch :: t.q) := by
      simp [finish, executeNet, netOutput, outputEffect, outputDriven, hreply, State.setQ, State.setIognt, State.emit]
    rw [hfinish]
    exact hcall.trans (hclose hs2 _)
  | some v =>
    rw [dispatch_ioCallback_some hs1 _ hreply] at hcall
    have hs2 : ((((outputDriven t).emit (.output (outputByte t))).receiveInput v).setIoAck true).Settled :=
      ⟨hs1.running, by simp, hs1.clkLow⟩
    have hfinish : finish .output t
        = (((((outputDriven t).emit (.output (outputByte t))).receiveInput v).setIoAck true).setIognt false).setQ
            (.fetch :: (t.q ++ if t.ioAck then [] else [.ioHandler])) := by
      cases hack : t.ioAck with
      | false =>
        have hnone : t.q = [] := hq.elim id fun h => absurd h.2 (by simp [hack])
        simp [finish, executeNet, netOutput, outputEffect, outputDriven, hreply, State.setQ, State.setIognt, State.emit,
          State.setIoAck, State.receiveInput, State.setIoVal, State.setIoreq, State.setIoPending, hnone, hack]
      | true =>
        simp [finish, executeNet, netOutput, outputEffect, outputDriven, hreply, State.setQ, State.setIognt, State.emit,
          State.setIoAck, State.receiveInput, State.setIoVal, State.setIoreq, State.setIoPending, hack]
    rw [hfinish]
    exact hcall.trans (hclose hs2 _)

theorem dispatch_endRun {t : State} (rest : List Micro) : dispatch .endRun (t.setQ rest) = netEnd t := by
  rw [dispatch, tick_halted (by simp [perform, State.endRun])]
  simp [perform, State.endRun, netEnd, State.setQ, State.setSavedQ, State.setIoAck, State.setClk, State.setRun,
    State.emit]

/-- The Execute phase of every opcode, from the state in which its Body stands at the head of the queue: its net
effect, after as many dispatches as the tables of 70_reset_and_hazards.md R162 say where no handler is queued. -/
theorem leads_body (op : Opcode) {t : State} (hs : t.Settled) (hq : t.HandlerQueued) (hmet : t.afterHandler = t)
    (hfit : op.classIn t.mode = .addr → t.mdr.toNat < t.mode.memSize) :
    ∃ k, k ≤ 40 ∧ (t.q = [] → k + 1 = executeSteps t.mode t.status op)
      ∧ Leads k (t.setQ (bodyOf t.mode op ++ t.q)) (finish op t) := by
  have hle := hq.length_le
  have hgoto : (gotoMicros t.mode).length + 1 = gotoSteps t.mode ∧ (gotoMicros t.mode).length ≤ 20 := by
    cases t.mode <;> decide
  have hbranch (f : Flag) (hfit : t.mdr.toNat < t.mode.memSize) :
      ∃ k, k ≤ 40 ∧ (t.q = [] → k + 1 = branchSteps t.mode (t.status.get f))
        ∧ Leads k (t.setQ (.branch f :: t.q)) ((netBranch (t.status.get f) t).setQ (.fetch :: t.q)) := by
    refine ⟨_, ?_, fun hq => ?_, leads_branchBody hs hq hmet hfit f⟩
    · split <;> omega
    · rw [hq, List.length_nil, branchSteps]
      split <;> omega
  have haddr (h : op.classIn .standard = .addr ∧ op.classIn .expanded = .addr) : t.mdr.toNat < t.mode.memSize :=
    hfit (by cases t.mode <;> simp only [h])
  have hnet (b : Bool) : (netBranch b t).q = [.fetch] := by cases b <;> rfl
  cases op with
  | branchIfZero =>
    simpa [finish, executeNet, hnet, bodyOf, branchBody, executeSteps, Status.get] using hbranch .z (haddr ⟨rfl, rfl⟩)
  | branchIfNegative =>
    simpa [finish, executeNet, hnet, bodyOf, branchBody, executeSteps, Status.get] using hbranch .n (haddr ⟨rfl, rfl⟩)
  | branchIfOverflow =>
    simpa [finish, executeNet, hnet, bodyOf, branchBody, executeSteps, Status.get] using hbranch .v (haddr ⟨rfl, rfl⟩)
  | branchIfCarry =>
    simpa [finish, executeNet, hnet, bodyOf, branchBody, executeSteps, Status.get] using hbranch .c (haddr ⟨rfl, rfl⟩)
  | output => exact ⟨4, by decide, fun _ => rfl, leads_outputBody hs hq⟩
  | endRun =>
    refine ⟨1, by decide, fun _ => rfl, ?_⟩
    have h := leads_dispatch (s := t) (m := .endRun) (rest := t.q) hs.running nofun nofun nofun
    rwa [dispatch_endRun] at h
  | goto =>
    refine ⟨_, ?_, fun _ => ?_, leads_plainBody rfl hs hfit⟩ <;> rw [bodyMicros_goto]
    · omega
    · exact hgoto.1
  | _ => exact ⟨_, by cases t.mode; all_goals decide, fun _ => by cases t.mode <;> rfl, leads_plainBody rfl hs hfit⟩

/-! ## The operand phase and the arbiter -/

/-- The five shapes of the operand phase. -/
theorem operandNet_shapes (i : Instr) :
    operandNet i = operandNone i ∨ (∃ m n, operandNet i = operandStd i m n) ∨ (∃ n, operandNet i = operandExpLit i n)
      ∨ (∃ a, operandNet i = operandExpMem i a) ∨ ∃ m a, operandNet i = operandExpAddr i m a := by
  cases hi : i.machineMode with
  | standard =>
    cases hc : i.opcode.classIn .standard with
    | none => exact .inl (funext fun s => by simp only [operandNet, hi, hc])
    | data | addr => exact .inr (.inl ⟨_, _, funext fun s => by simp only [operandNet, hi, hc]; rfl⟩)
  | expanded =>
    cases hc : i.opcode.classIn .expanded with
    | none => exact .inl (funext fun s => by simp only [operandNet, hi, hc])
    | addr => exact .inr (.inr (.inr (.inr ⟨_, _, funext fun s => by simp only [operandNet, hi, hc]; rfl⟩)))
    | data =>
      cases hm : i.addrMode with
      | direct => exact .inr (.inr (.inl ⟨_, funext fun s => by simp only [operandNet, hi, hc, hm]; rfl⟩))
      | address => exact .inr (.inr (.inr (.inl ⟨_, funext fun s => by simp only [operandNet, hi, hc, hm]; rfl⟩)))

/-- The operand phase writes CIR, MDR, MAR, ADDRESSBUS, DATABUS and the memory's control lines, and nothing else. -/
theorem operandNet_frame (i : Instr) (s : State) :
    operandNet i s =
      { s with
        cir := i.code
        mdr := (operandNet i s).mdr
        mar := (operandNet i s).mar
        abus := (operandNet i s).abus
        dbus := (operandNet i s).dbus
        ctl := { s.ctl with
          req := (operandNet i s).ctl.req
          gnt := (operandNet i s).ctl.gnt
          rd := (operandNet i s).ctl.rd
          clk := false } } := by
  rcases operandNet_shapes i with e | ⟨m, n, e⟩ | ⟨n, e⟩ | ⟨a, e⟩ | ⟨m, a, e⟩ <;> rw [e]
  · rfl
  · cases m <;> rfl
  · rfl
  · rfl
  · cases m <;> rfl

@[simp] theorem operandNet_mode (i : Instr) (s : State) : (operandNet i s).mode = s.mode := by rw [operandNet_frame]
@[simp] theorem operandNet_run (i : Instr) (s : State) : (operandNet i s).run = s.run := by rw [operandNet_frame]
@[simp] theorem operandNet_q (i : Instr) (s : State) : (operandNet i s).q = s.q := by rw [operandNet_frame]
@[simp] theorem operandNet_acc (i : Instr) (s : State) : (operandNet i s).acc = s.acc := by rw [operandNet_frame]
@[simp] theorem operandNet_status (i : Instr) (s : State) : (operandNet i s).status = s.status := by
  rw [operandNet_frame]
@[simp] theorem operandNet_mem (i : Instr) (s : State) : (operandNet i s).mem = s.mem := by rw [operandNet_frame]
@[simp] theorem operandNet_events (i : Instr) (s : State) : (operandNet i s).events = s.events := by
  rw [operandNet_frame]
@[simp] theorem operandNet_device (i : Instr) (s : State) : (operandNet i s).device = s.device := by
  rw [operandNet_frame]
@[simp] theorem operandNet_iobus (i : Instr) (s : State) : (operandNet i s).iobus = s.iobus := by
  rw [operandNet_frame]
@[simp] theorem operandNet_ioPending (i : Instr) (s : State) : (operandNet i s).ioPending = s.ioPending := by
  rw [operandNet_frame]
@[simp] theorem operandNet_ioVal (i : Instr) (s : State) : (operandNet i s).ioVal = s.ioVal := by
  rw [operandNet_frame]
@[simp] theorem operandNet_ioAck (i : Instr) (s : State) : (operandNet i s).ioAck = s.ioAck := by
  rw [operandNet_frame]
@[simp] theorem operandNet_ioreq (i : Instr) (s : State) : (operandNet i s).ctl.ioreq = s.ctl.ioreq := by
  rw [operandNet_frame]
@[simp] theorem operandNet_iognt (i : Instr) (s : State) : (operandNet i s).ctl.iognt = s.ctl.iognt := by
  rw [operandNet_frame]

/-- An update of the arbiter's components, the queue, CIR or the clock line goes through the operand phase. -/
theorem operandNet_comm {f : State → State} (i : Instr)
    (hnone : ∀ s, operandNone i (f s) = f (operandNone i s))
    (hstd : ∀ m n s, operandStd i m n (f s) = f (operandStd i m n s))
    (hlit : ∀ n s, operandExpLit i n (f s) = f (operandExpLit i n s))
    (hmem : ∀ a s, operandExpMem i a (f s) = f (operandExpMem i a s))
    (haddr : ∀ m a s, operandExpAddr i m a (f s) = f (operandExpAddr i m a s)) (s : State) :
    operandNet i (f s) = f (operandNet i s) := by
  rcases operandNet_shapes i with e | ⟨m, n, e⟩ | ⟨n, e⟩ | ⟨a, e⟩ | ⟨m, a, e⟩ <;> rw [e]
  · exact hnone s
  · exact hstd m n s
  · exact hlit n s
  · exact hmem a s
  · exact haddr m a s

end Sys2Proof.Machine

/-! What every instruction answers (40_control_unit.md R98 to R101), and its run in steps of R73. -/

namespace Sys2Proof.Machine

/-! ## MDR holds an A-bit value where it is used as an address -/

theorem toNat_setWidth_lt_memSize (b : Byte) (mode : MachineMode) : (b.setWidth 32).toNat < mode.memSize := by
  rw [← fitTo_byte mode b]
  exact fitTo_lt _ _

theorem operandNet_mdr_lt {i : Instr} {s : State} (hm : s.mode = i.machineMode)
    (hc : i.opcode.classIn s.mode = .addr) : (operandNet i s).mdr.toNat < s.mode.memSize := by
  cases hs : s.mode with
  | expanded => exact (operandNet i s).mdr.isLt
  | standard =>
    have hi := hm.symm.trans hs
    rw [hs] at hc
    simp only [operandNet, hi, hc]
    cases i.addrMode <;> exact toNat_setWidth_lt_memSize _ .standard

/-! ## The two phases after the fetch, as runs -/

theorem operandNet_settled {i : Instr} {s : State} (hi : s.Holds i) (hs : s.Settled) : (operandNet i s).Settled := by
  rw [← performAll_getOpOf hi]
  exact (plainFrom_getOpOf i s).settled hs

theorem State.HandlerQueued.of_eq {s t : State} (h : s.HandlerQueued) (hq : t.q = s.q) (hack : t.ioAck = s.ioAck) :
    t.HandlerQueued := by
  unfold State.HandlerQueued
  rw [hq, hack]
  exact h

/-- The state in which the Body of `i` begins, with `Decode` popped in `s`: the arbiter has met the operand phase. -/
def bodyState (i : Instr) (s : State) : State := (operandNet i s.afterDecode).afterHandler

/-- Neither CIR nor the clock line that `Decode` finds matters after the operand phase. -/
theorem operandNet_afterDecode (i : Instr) (s : State) (c : Code) (b : Bool) :
    operandNet i ((s.writeCir c).setClk b).afterDecode = operandNet i s.afterDecode := by
  have hdecode : ((s.writeCir c).setClk b).afterDecode = (s.afterDecode.writeCir c).setClk b := by
    by_cases hq : s.q = []
    · rw [show s.afterDecode = s.ioCheck from if_pos hq,
        show ((s.writeCir c).setClk b).afterDecode = ((s.writeCir c).setClk b).ioCheck from if_pos hq]
      exact (apply_ite (fun t : State => (t.writeCir c).setClk b) ((s.ctl.ioreq && !s.ioAck) = true)
        ((s.append [.ioHandler]).setIoAck true) s).symm
    · rw [show s.afterDecode = s.afterHandler from if_neg hq,
        show ((s.writeCir c).setClk b).afterDecode = ((s.writeCir c).setClk b).afterHandler from if_neg hq]
      exact (apply_ite (fun t : State => (t.writeCir c).setClk b) (s.q = [] ∨ (s.ctl.gnt || s.ctl.iognt) = true)
        s ((granted s).setQ [])).symm
  rw [hdecode]
  rcases operandNet_shapes i with e | ⟨m, n, e⟩ | ⟨n, e⟩ | ⟨a, e⟩ | ⟨m, a, e⟩ <;> rw [e]
  · rfl
  · cases m <;> rfl
  · rfl
  · rfl
  · cases m <;> rfl

/-- `Decode`'s dispatch and the operand phase. -/
theorem leads_operand {i : Instr} {s : State} (hr : s.run = .running) (hm : s.mode = i.machineMode)
    (hq : s.HandlerQueued) :
    let w := operandNet i s.afterDecode
    Leads (s.q.length + (getOpOf i).length) (tick (fun t => t.append (getOpOf i ++ [.execute])) (s.writeCir i.code))
        (w.setQ (.execute :: w.q))
      ∧ w.Settled ∧ w.HandlerQueued := by
  intro w
  let s' := s.writeCir i.code
  let u := (s'.setClk false).afterDecode
  obtain ⟨hset, hqueued⟩ : u.Settled ∧ u.HandlerQueued := State.afterDecode_settled (s := s'.setClk false) hr hq rfl
  have hkeep : u.mode = s.mode ∧ u.cir = i.code := by
    simp only [u, State.afterDecode]
    split
    · rcases (s'.setClk false).ioCheck_cases with ⟨-, -, e⟩ | ⟨-, e⟩ <;> rw [e] <;> exact ⟨rfl, rfl⟩
    · rcases (s'.setClk false).afterHandler_cases with e | ⟨-, e⟩ <;> rw [e] <;> exact ⟨rfl, rfl⟩
  have hholds : u.Holds i := ⟨hkeep.1.trans hm, hkeep.2, hset.clkLow⟩
  have hw : operandNet i u = w := operandNet_afterDecode i s i.code false
  have hlead := leads_plain hset (plainFrom_getOpOf i u) (.execute :: u.q)
  rw [performAll_getOpOf hholds, hw] at hlead
  have hwq : w.q = u.q := by rw [← hw, operandNet_q]
  have hdecode := leads_afterDecode (s := s') hr hq (getOpOf i ++ [.execute])
  refine ⟨?_, hw ▸ operandNet_settled hholds hset, hqueued.of_eq hwq (by rw [← hw, operandNet_ioAck])⟩
  rw [hwq]
  refine hdecode.trans ?_
  rw [List.append_assoc]
  exact hlead

/-- `Execute`'s dispatch and the Body. -/
theorem leads_execute {op : Opcode} {w : State} (hs : w.Settled) (hq : w.HandlerQueued)
    (hfit : op.classIn w.mode = .addr → w.mdr.toNat < w.mode.memSize) :
    ∃ k, k ≤ 41 ∧ (w.q = [] → k + 1 = executeSteps w.mode w.status op)
      ∧ Leads k (tick (fun t => t.append (bodyOf w.mode op)) (w.setQ w.q)) (finish op w.afterHandler) := by
  have hkeep : w.afterHandler.mode = w.mode ∧ w.afterHandler.mdr = w.mdr ∧ w.afterHandler.status = w.status := by
    rcases w.afterHandler_cases with e | ⟨-, e⟩ <;> rw [e] <;> exact ⟨rfl, rfl, rfl⟩
  obtain ⟨hmode, hmdr, hstatus⟩ := hkeep
  obtain ⟨k, hk, hsteps, hbody⟩ := leads_body op hs.afterHandler hq.afterHandler w.afterHandler_afterHandler
    (by rw [hmode, hmdr]; exact hfit)
  have hle := hq.length_le
  rw [hmode, hstatus] at hsteps
  rw [hmode] at hbody
  refine ⟨w.q.length + k, by omega, fun hnil => ?_, ?_⟩
  · rw [hnil, List.length_nil, Nat.zero_add, hsteps (by rw [State.afterHandler_of_q_nil hnil, hnil])]
  · rw [tick_append_of_settled hs]
    exact (leads_handler hs hq _).trans hbody

/-- An instruction ends with the next `Fetch` at the head, or halted by `End` (R107). -/
theorem finish_ends (op : Opcode) (t : State) :
    (∃ rest, (finish op t).q = .fetch :: rest) ∨ (finish op t).run = .haltedEnd := by
  by_cases hop : op = .endRun
  · subst hop
    exact .inr (by rw [finish_endRun]; rfl)
  · left
    rw [finish_of_ne_endRun hop, State.setQ_q]
    have hq : ∃ rest, (executeNet op t).q = .fetch :: rest := by
      cases op with
      | branchIfZero | branchIfNegative | branchIfOverflow | branchIfCarry =>
        simp only [executeNet, netBranch]
        split <;> exact ⟨[], rfl⟩
      | output => simp only [executeNet, netOutput]; split <;> exact ⟨_, rfl⟩
      | endRun => exact absurd rfl hop
      | _ => exact ⟨[], rfl⟩
    obtain ⟨rest, hrest⟩ := hq
    exact ⟨rest ++ t.q, by rw [hrest]; rfl⟩

theorem runUntil_finish (op : Opcode) (t : State) (n : Nat) : runUntil atFetch n (finish op t) = finish op t := by
  rcases finish_ends op t with ⟨rest, hq⟩ | hr
  · exact runUntil_stop n hq rfl
  · exact runUntil_halted _ n (by rw [hr]; nofun)

theorem afterDecode_mode (s : State) : s.afterDecode.mode = s.mode := by
  unfold State.afterDecode
  split
  · rcases s.ioCheck_cases with ⟨-, -, e⟩ | ⟨-, e⟩ <;> rw [e]; rfl
  · rcases s.afterHandler_cases with e | ⟨-, e⟩ <;> rw [e]; rfl

/-- What an instruction answers from the state in which `Decode` has just been popped, at most an acknowledged handler
in the queue. -/
theorem exec_eq {i : Instr} {s : State} (hr : s.run = .running) (hm : s.mode = i.machineMode) (hq : s.HandlerQueued) :
    exec i s = .next (finish i.opcode (bodyState i s)) := by
  obtain ⟨hoperand, hset, hqueued⟩ := leads_operand hr hm hq
  let w := operandNet i s.afterDecode
  have hwm : w.mode = i.machineMode := by rw [operandNet_mode, afterDecode_mode, hm]
  obtain ⟨k, hk, -, hbody⟩ := leads_execute (op := i.opcode) hset hqueued fun hc => by
    rw [operandNet_mode] at hc ⊢
    exact operandNet_mdr_lt (by rw [afterDecode_mode, hm]) hc
  have hle := hq.length_le
  have hlen := getOpOf_length_lt i
  have hphase : operandPhase (getOpOf i) (s.writeCir i.code) = w.setQ (.execute :: w.q) :=
    hoperand.runUntil_eq phaseStop_atExecute (by omega) fun n => runUntil_stop n rfl rfl
  have hexecute : executePhase (bodyOf i.machineMode i.opcode) (w.setQ (.execute :: w.q))
      = finish i.opcode w.afterHandler := by
    rw [← hwm]
    exact hbody.runUntil_eq (n := Config.phaseFuel) phaseStop_atFetch (by simp only [Config.phaseFuel]; omega)
      (runUntil_finish _ _)
  rw [exec_eq_runInstr, runInstr_eq hr hm, hphase, hexecute]
  rfl

end Sys2Proof.Machine

/-! The result statements of the instructions (41 to 46): with no I/O request waiting the arbiter does nothing, so
an instruction answers its Execute phase's net effect after its operand phase's; `output` and `input` also with the
arbiter in any state a run can leave it in. -/

namespace Sys2Proof.Machine

/-! ## No request waiting -/

theorem afterDecode_of_quiet {s : State} (hq : s.q = []) (hi : s.ctl.ioreq = false) : s.afterDecode = s := by
  simp [State.afterDecode, State.ioCheck, hq, hi]

theorem bodyState_of_quiet (i : Instr) {s : State} (hq : s.q = []) (hi : s.ctl.ioreq = false) :
    bodyState i s = operandNet i s := by
  rw [bodyState, afterDecode_of_quiet hq hi]
  exact State.afterHandler_of_q_nil (by rw [operandNet_q, hq])

theorem finish_of_q_nil (op : Opcode) {t : State} (hq : t.q = []) : finish op t = executeNet op t := by
  by_cases hop : op = .endRun
  · rw [hop, finish_endRun]
    rfl
  · rw [finish_of_ne_endRun hop, hq, List.append_nil]
    rfl

/-- With no request waiting an instruction answers its two net effects, one after the other. -/
theorem exec_of_ready {i : Instr} {s : State} (h : Ready i.machineMode s) :
    exec i s = .next (executeNet i.opcode (operandNet i s)) := by
  obtain ⟨hr, hm, hq, hi⟩ := h
  rw [exec_eq hr hm (.inl hq), bodyState_of_quiet i hq hi, finish_of_q_nil _ (by rw [operandNet_q, hq])]

/-! ## The Standard instructions -/

/-- Settles O13: the Body of `add` after the operand phase, with no request for the arbiter. -/
theorem standardAddResult : Obligations.StandardAddResult := fun _ _ _ h => exec_of_ready h

/-- Settles O14: as for `add`, with the Body of `sub`, whose complement decides C and V. -/
theorem standardSubResult : Obligations.StandardSubResult := fun _ _ _ h => exec_of_ready h

/-- Settles O15: the Bodies of the three share all but the ALU micro-op. -/
theorem standardLogicResult : Obligations.StandardLogicResult := fun _ _ _ h =>
  ⟨exec_of_ready h, exec_of_ready h, exec_of_ready h⟩

/-- Settles O16: no operand phase but CIR, whatever the ignored fields. -/
theorem standardNotResult : Obligations.StandardNotResult := fun _ _ _ h => exec_of_ready h

/-- Settles O17: the Body of `read` at the address that the operand phase leaves in MDR. -/
theorem standardReadResult : Obligations.StandardReadResult := fun _ _ _ h => exec_of_ready h

/-- The effective address of a Standard instruction stands in MDR (R100). -/
theorem operandStd_mdr (i : Instr) (m : AddrMode) (n : Byte) (s : State) :
    (operandStd i m n s).mdr = (stdValue m n s.mem).setWidth 32 := by
  cases m <;> rfl

@[simp] theorem operandStd_mem (i : Instr) (m : AddrMode) (n : Byte) (s : State) :
    (operandStd i m n s).mem = s.mem := by cases m <;> rfl

@[simp] theorem operandStd_acc (i : Instr) (m : AddrMode) (n : Byte) (s : State) :
    (operandStd i m n s).acc = s.acc := by cases m <;> rfl

@[simp] theorem operandStd_status (i : Instr) (m : AddrMode) (n : Byte) (s : State) :
    (operandStd i m n s).status = s.status := by cases m <;> rfl

/-- What memory reads after a store at the address in MDR. -/
theorem read_netWrite {t : State} (hwf : Memory.wf t.mem) (x : Nat) :
    Memory.read (netWrite t).mem x = if x = t.mdr.toNat then t.acc else Memory.read t.mem x :=
  Memory.read_write _ _ _ _ hwf

/-- Settles O18: the store is at the address that the operand phase leaves in MDR. -/
theorem standardWriteResult : Obligations.StandardWriteResult := by
  refine fun m n s h => ⟨exec_of_ready h, fun hwf a => ?_⟩
  rw [read_netWrite (by simpa using hwf), operandStd_mdr, toNat_setWidth_byte, operandStd_acc, operandStd_mem]

/-- Settles O19: each branch tests the flag that the operand phase has kept. -/
theorem standardTransferResult : Obligations.StandardTransferResult := by
  intro m n s h
  have hbranch (i : Instr) (hi : i.machineMode = .standard) :
      exec i s = .next (executeNet i.opcode (operandNet i s)) := exec_of_ready (hi ▸ h)
  refine ⟨hbranch _ rfl, ?_, ?_, ?_, ?_⟩ <;> rw [hbranch _ rfl, ← operandStd_status _ m n s] <;> rfl

/-- Settles O22: no operand phase but CIR, and `End` empties the queue. -/
theorem standardEndResult : Obligations.StandardEndResult := fun _ _ _ h => exec_of_ready h

/-! ## The Expanded instructions -/

/-- The operand phase of an Expanded data-class address is that of the address its bytes spell. -/
theorem operandNet_expMem {i : Instr} {a : Addr} (hi : i.machineMode = .expanded)
    (hc : i.opcode.classIn .expanded = .data) (hm : i.addrMode = .address) (ha : expOperand i.operandBytes = a)
    (s : State) : operandNet i s = operandExpMem i a s := by
  simp only [operandNet, hi, hc, hm, ha]

theorem operandNet_expAddr {i : Instr} {a : Addr} {m : AddrMode} (hi : i.machineMode = .expanded)
    (hc : i.opcode.classIn .expanded = .addr) (hm : i.addrMode = m) (ha : expOperand i.operandBytes = a)
    (s : State) : operandNet i s = operandExpAddr i m a s := by
  simp only [operandNet, hi, hc, hm, ha]

/-- With no request waiting, an Expanded data-class instruction with an address. -/
theorem exec_expMem {i : Instr} {a : Addr} {s : State} (h : Ready .expanded s) (hi : i.machineMode = .expanded)
    (hc : i.opcode.classIn .expanded = .data) (hm : i.addrMode = .address) (ha : expOperand i.operandBytes = a) :
    exec i s = .next (executeNet i.opcode (operandExpMem i a s)) := by
  rw [exec_of_ready (hi ▸ h), operandNet_expMem hi hc hm ha]

/-- With no request waiting, an Expanded address-class instruction. -/
theorem exec_expAddr {i : Instr} {a : Addr} {m : AddrMode} {s : State} (h : Ready .expanded s)
    (hi : i.machineMode = .expanded) (hc : i.opcode.classIn .expanded = .addr) (hm : i.addrMode = m)
    (ha : expOperand i.operandBytes = a) :
    exec i s = .next (executeNet i.opcode (operandExpAddr i m a s)) := by
  rw [exec_of_ready (hi ▸ h), operandNet_expAddr hi hc hm ha]

/-- Settles O23: the operand value stands in MDR[7:0] for both forms. -/
theorem expandedAddResult : Obligations.ExpandedAddResult := fun _ a _ h =>
  ⟨exec_of_ready h, exec_expMem h rfl rfl rfl (address_bytes a)⟩

/-- Settles O24: as for `add`, with the Body of `sub`. -/
theorem expandedSubResult : Obligations.ExpandedSubResult := fun _ a _ h =>
  ⟨exec_of_ready h, exec_expMem h rfl rfl rfl (address_bytes a)⟩

/-- Settles O25: each of the three in both forms. -/
theorem expandedLogicResult : Obligations.ExpandedLogicResult := fun _ a _ h =>
  ⟨exec_of_ready h, exec_expMem h rfl rfl rfl (address_bytes a), exec_of_ready h,
    exec_expMem h rfl rfl rfl (address_bytes a), exec_of_ready h, exec_expMem h rfl rfl rfl (address_bytes a)⟩

/-- Settles O26: no operand phase but CIR, whatever the mode bit. -/
theorem expandedNotResult : Obligations.ExpandedNotResult := fun _ _ h => exec_of_ready h

/-- Settles O27: the big-endian pointer, or the operand itself, stands in MDR. -/
theorem expandedReadResult : Obligations.ExpandedReadResult := fun _ a _ h =>
  exec_expAddr h rfl rfl rfl (address_bytes a)

/-- The effective address of an Expanded instruction stands in MDR (R100). -/
theorem operandExpAddr_mdr (i : Instr) (m : AddrMode) (a : Addr) (s : State) :
    (operandExpAddr i m a s).mdr = expTarget m a s.mem := by
  cases m <;> rfl

@[simp] theorem operandExpAddr_mem (i : Instr) (m : AddrMode) (a : Addr) (s : State) :
    (operandExpAddr i m a s).mem = s.mem := by cases m <;> rfl

@[simp] theorem operandExpAddr_acc (i : Instr) (m : AddrMode) (a : Addr) (s : State) :
    (operandExpAddr i m a s).acc = s.acc := by cases m <;> rfl

@[simp] theorem operandExpAddr_status (i : Instr) (m : AddrMode) (a : Addr) (s : State) :
    (operandExpAddr i m a s).status = s.status := by cases m <;> rfl

/-- Settles O28: the store is at the address that the operand phase leaves in MDR. -/
theorem expandedWriteResult : Obligations.ExpandedWriteResult := by
  refine fun m a s h => ⟨exec_expAddr h rfl rfl rfl (address_bytes a), fun hwf x => ?_⟩
  rw [read_netWrite (by simpa using hwf), operandExpAddr_mdr, operandExpAddr_acc, operandExpAddr_mem]

/-- Settles O29: each branch tests the flag that the operand phase has kept. -/
theorem expandedTransferResult : Obligations.ExpandedTransferResult := by
  intro m a s h
  have hexec (i : Instr) := exec_expAddr (i := i) (a := a) (m := m) h
  refine ⟨hexec (.expGoto m a) rfl rfl rfl (address_bytes a),
    (hexec (.expBranchIfZero m a) rfl rfl rfl (address_bytes a)).trans ?_,
    (hexec (.expBranchIfNegative m a) rfl rfl rfl (address_bytes a)).trans ?_,
    (hexec (.expBranchIfOverflow m a) rfl rfl rfl (address_bytes a)).trans ?_,
    (hexec (.expBranchIfCarry m a) rfl rfl rfl (address_bytes a)).trans ?_⟩ <;>
    rw [← operandExpAddr_status _ m a s] <;> rfl

/-- Settles O32: no operand phase but CIR, and `End` empties the queue. -/
theorem expandedEndResult : Obligations.ExpandedEndResult := fun _ _ h => exec_of_ready h

/-! ## The arbiter in any state a run can leave it in -/

theorem operandNet_setQ (i : Instr) (ms : List Micro) (s : State) :
    operandNet i (s.setQ ms) = (operandNet i s).setQ ms :=
  operandNet_comm (f := (·.setQ ms)) i (fun _ => rfl) (fun m _ _ => by cases m <;> rfl) (fun _ _ => rfl)
    (fun _ _ => rfl) (fun m _ _ => by cases m <;> rfl) s

theorem operandNet_setIoAck (i : Instr) (b : Bool) (s : State) :
    operandNet i (s.setIoAck b) = (operandNet i s).setIoAck b :=
  operandNet_comm (f := (·.setIoAck b)) i (fun _ => rfl) (fun m _ _ => by cases m <;> rfl) (fun _ _ => rfl)
    (fun _ _ => rfl) (fun m _ _ => by cases m <;> rfl) s

theorem operandNet_granted (i : Instr) (s : State) : operandNet i (granted s) = granted (operandNet i s) :=
  operandNet_comm (f := granted) i (fun _ => rfl) (fun m _ _ => by cases m <;> rfl) (fun _ _ => rfl)
    (fun _ _ => rfl) (fun m _ _ => by cases m <;> rfl) s

/-- The operand phase takes no bus that it does not release. -/
theorem operandNet_gnt (i : Instr) {s : State} (h : s.ctl.gnt = false) : (operandNet i s).ctl.gnt = false := by
  rcases operandNet_shapes i with e | ⟨m, n, e⟩ | ⟨n, e⟩ | ⟨a, e⟩ | ⟨m, a, e⟩ <;> rw [e]
  · exact h
  · cases m <;> rfl
  · exact h
  · rfl
  · cases m
    · exact h
    · rfl

theorem readyIo_handlerQueued {mode : MachineMode} {s : State} (h : ReadyIo mode s) : s.HandlerQueued := by
  obtain ⟨-, -, hq⟩ := h
  cases hack : s.ioAck
  · exact .inl (hq.trans (if_neg (by simp [hack])))
  · exact .inr ⟨hq.trans (if_pos hack), hack⟩

/-- The queue holds the handlers that `io_ack` announces. -/
def State.queueHandlers (s : State) : State := s.setQ s.handlers

/-- Where the queue of `s` holds what `io_ack` announces, the arbiter has done by the Body what `arbitrated` says: a
handler that met a held memory bus in front of the operand phase meets the released one in front of the Body. -/
theorem bodyState_eq_arbitrated (i : Instr) {s : State} (hq : OnlyHandler s) :
    bodyState i s = (arbitrated (operandNet i s)).queueHandlers := by
  have hself : (operandNet i s).setQ s.q = operandNet i s := by
    rw [← operandNet_setQ]
    rfl
  cases hack : s.ioAck with
  | false =>
    have hnil : s.q = [] := hq.trans (if_neg (by simp [hack]))
    cases hreq : s.ctl.ioreq with
    | false =>
      have hnone : arbitrated (operandNet i s) = operandNet i s := if_neg (by simp [hack, hreq])
      rw [bodyState_of_quiet i hnil hreq, hnone, State.queueHandlers, State.handlers, operandNet_ioAck, ← hq, hself]
    | true =>
      have hdecode : s.afterDecode = (s.setQ [.ioHandler]).setIoAck true := by
        simp [State.afterDecode, State.ioCheck, State.append, State.setQ, hnil, hack, hreq]
      rw [bodyState, hdecode, operandNet_setIoAck, operandNet_setQ]
      cases hbusy : (operandNet i s).ctl.gnt || (operandNet i s).ctl.iognt with
      | true =>
        rw [State.afterHandler_of_busy (s := ((operandNet i s).setQ [.ioHandler]).setIoAck true) hbusy]
        simp only [arbitrated, operandNet_ioreq, hreq, Bool.or_true, if_true, hbusy]
        rfl
      | false =>
        rw [State.afterHandler_of_free (s := ((operandNet i s).setQ [.ioHandler]).setIoAck true) (by simp) hbusy]
        simp only [arbitrated, operandNet_ioreq, hreq, Bool.or_true, if_true, hbusy, Bool.false_eq_true, if_false]
        rfl
  | true =>
    have hone : s.q = [.ioHandler] := hq.trans (if_pos hack)
    have hdecode : s.afterDecode = s.afterHandler := if_neg (by simp [hone])
    rw [bodyState, hdecode]
    cases hbusy : s.ctl.gnt || s.ctl.iognt with
    | true =>
      rw [State.afterHandler_of_busy hbusy]
      cases hbusy' : (operandNet i s).ctl.gnt || (operandNet i s).ctl.iognt with
      | true =>
        rw [State.afterHandler_of_busy hbusy']
        simp only [arbitrated, operandNet_ioAck, hack, Bool.true_or, if_true, hbusy']
        rw [hone] at hself
        exact hself.symm.trans (by simp [State.queueHandlers, State.handlers, State.setQ, hack])
      | false =>
        rw [State.afterHandler_of_free (by rw [operandNet_q, hone]; simp) hbusy']
        simp only [arbitrated, operandNet_ioAck, hack, Bool.true_or, if_true, hbusy', Bool.false_eq_true, if_false]
        rfl
    | false =>
      obtain ⟨hgnt, hiognt⟩ := Bool.or_eq_false_iff.mp hbusy
      have hbusy' : ((operandNet i s).ctl.gnt || (operandNet i s).ctl.iognt) = false := by
        rw [operandNet_gnt i hgnt, operandNet_iognt, hiognt]
        rfl
      rw [State.afterHandler_of_free (by simp [hone]) hbusy, operandNet_setQ, operandNet_granted,
        State.afterHandler_of_q_nil rfl]
      simp only [arbitrated, operandNet_ioAck, hack, Bool.true_or, if_true, hbusy', Bool.false_eq_true, if_false]
      rfl

/-- An instruction from a state with the arbiter in any state a run can leave it in. -/
theorem exec_of_readyIo {i : Instr} {s : State} (h : ReadyIo i.machineMode s) :
    exec i s = .next (finish i.opcode (arbitrated (operandNet i s)).queueHandlers) := by
  have hqueued := readyIo_handlerQueued h
  obtain ⟨hr, hm, hq⟩ := h
  rw [exec_eq hr hm hqueued, bodyState_eq_arbitrated i hq]

/-- `output` with the handlers queued that `io_ack` announces: an answer that is acknowledged already queues no second
handler. -/
theorem finish_output_queueHandlers (a : State) :
    finish .output a.queueHandlers = handlerBehind (outputEffect (outputByte a) a) := by
  have hnet : executeNet .output a.queueHandlers = netOutput (outputByte a) a.queueHandlers := rfl
  rw [finish_of_ne_endRun (by decide), hnet]
  cases hreply : deviceReply a.device (outputsOf (a.events ++ [.output (outputByte a)])) <;> cases hack : a.ioAck <;>
    simp [netOutput, outputEffect, State.queueHandlers, State.handlers, State.setQ,
      handlerBehind, hreply, hack]

theorem finish_input_queueHandlers (a : State) : finish .input a.queueHandlers = handlerBehind (netInput a) := by
  rw [finish_of_ne_endRun (by decide)]
  rfl

/-! ## `output` and `input` -/

@[simp] theorem arbitrated_mode (s : State) : (arbitrated s).mode = s.mode := by
  unfold arbitrated
  split
  · split <;> rfl
  · rfl

@[simp] theorem arbitrated_acc (s : State) : (arbitrated s).acc = s.acc := by
  unfold arbitrated
  split
  · split <;> rfl
  · rfl

@[simp] theorem arbitrated_mdr (s : State) : (arbitrated s).mdr = s.mdr := by
  unfold arbitrated
  split
  · split <;> rfl
  · rfl

/-- The arbiter changes nothing that `IoPut` reads. -/
@[simp] theorem outputByte_arbitrated (s : State) : outputByte (arbitrated s) = outputByte s := by
  simp [outputByte]

theorem exec_output_of_readyIo {i : Instr} {s : State} (hop : i.opcode = .output) (h : ReadyIo i.machineMode s) :
    exec i s
      = .next (handlerBehind (outputEffect (outputByte (operandNet i s)) (arbitrated (operandNet i s)))) := by
  rw [exec_of_readyIo h, hop, finish_output_queueHandlers, outputByte_arbitrated]

theorem exec_input_of_readyIo {i : Instr} {s : State} (hop : i.opcode = .input) (h : ReadyIo i.machineMode s) :
    exec i s = .next (handlerBehind (netInput (arbitrated (operandNet i s)))) := by
  rw [exec_of_readyIo h, hop, finish_input_queueHandlers]

theorem outputByte_of_standard {t : State} (hm : t.mode = .standard) : outputByte t = t.acc := by
  simp [outputByte, hm]

theorem outputByte_of_expanded {t : State} (hm : t.mode = .expanded) : outputByte t = t.mdr.setWidth 8 := by
  simp [outputByte, hm]

/-- Settles O20: the output byte is ACC, which neither the operand phase nor the arbiter writes. -/
theorem standardOutputResult : Obligations.StandardOutputResult := by
  intro m n s
  have hbyte (hm : s.mode = .standard) : outputByte (operandNet (.stdOutput m n) s) = s.acc := by
    rw [outputByte_of_standard (by simpa using hm), operandNet_acc]
  refine ⟨fun h => (exec_of_ready (i := .stdOutput m n) h).trans ?_, fun h => ?_⟩
  · rw [← hbyte h.2.1]
    rfl
  · rw [exec_output_of_readyIo rfl h, hbyte h.2.1]
    rfl

/-- Settles O21: the Body reads IOBUS as the arbiter has left it. -/
theorem standardInputResult : Obligations.StandardInputResult := fun _ _ _ =>
  ⟨fun h => exec_of_ready h, fun h => exec_input_of_readyIo rfl h⟩

/-- Settles O30: the output byte is the tail of MDR, where the operand phase leaves the operand value. -/
theorem expandedOutputResult : Obligations.ExpandedOutputResult := by
  intro n a s
  have hmem : operandNet (.expOutputMem a) s = operandExpMem (.expOutputMem a) a s :=
    operandNet_expMem (i := .expOutputMem a) rfl rfl rfl (address_bytes a) s
  have hlit (hm : s.mode = .expanded) : outputByte (operandNet (.expOutputLit n) s) = n := by
    rw [outputByte_of_expanded (by simpa using hm)]
    exact BitVec.setWidth_setWidth_of_le n (by decide)
  have hbyte (hm : s.mode = .expanded) :
      outputByte (operandNet (.expOutputMem a) s) = Memory.read s.mem a.toNat := by
    rw [outputByte_of_expanded (by simpa using hm), hmem]
    exact BitVec.setWidth_append_eq_right
  refine ⟨fun h => ⟨(exec_of_ready (i := .expOutputLit n) h).trans ?_,
    (exec_of_ready (i := .expOutputMem a) h).trans ?_⟩, fun h => ⟨?_, ?_⟩⟩
  · exact congrArg (fun b => Host.Outcome.next (netOutput b (operandNet (.expOutputLit n) s))) (hlit h.2.1)
  · rw [← hmem, ← hbyte h.2.1]
    rfl
  · rw [exec_output_of_readyIo rfl h, hlit h.2.1]
    rfl
  · rw [exec_output_of_readyIo rfl h, hbyte h.2.1, hmem]

/-- Settles O31: the Body reads IOBUS as the arbiter has left it, whatever the mode bit. -/
theorem expandedInputResult : Obligations.ExpandedInputResult := fun _ _ =>
  ⟨fun h => exec_of_ready h, fun h => exec_input_of_readyIo rfl h⟩

end Sys2Proof.Machine

/-! The instruction cycle from an instruction boundary (40_control_unit.md R77, R93 to R95, R107): the fetch of
either mode, the decoded instruction or the decode fault after it, and the same cycle in steps of R73
(70_reset_and_hazards.md R162). -/

namespace Sys2Proof.Machine

/-! ## The fetch with no I/O request waiting -/

theorem settled_setClk_of_atFetch {mode : MachineMode} {s : State} (h : AtFetch mode s) : (s.setClk false).Settled := by
  obtain ⟨hr, -, -, hi⟩ := h
  exact ⟨hr, by simp [hi], rfl⟩

theorem dispatch_fetch_of_atFetch {mode : MachineMode} {s : State} (h : AtFetch mode s) :
    dispatch .fetch (s.setQ []) = (s.setClk false).setQ (fetchOf mode) := by
  obtain ⟨hr, rfl, -, hi⟩ := h
  rw [dispatch_fetch (by simpa) (by simpa)]
  rfl

/-- The dispatches of a fetch between `Fetch` and `Decode` (R162). -/
def fetchLength (s : State) : Nat :=
  match s.mode with
  | .standard => 16
  | .expanded => 12 + 6 * (lengthAt s).toNat

theorem leads_fetchStd {s : State} (h : AtFetch .standard s) :
    Leads 16 (dispatch .fetch (s.setQ [])) ((fetched s).setQ [.decode]) := by
  have hwords := leads_plain (settled_setClk_of_atFetch h)
    (plainFrom_of_datapathFrom (datapathFrom_fetchStdWords (s.setClk false))) [.decode]
  rw [performAll_fetchStdWords h.2.1] at hwords
  rw [dispatch_fetch_of_atFetch h]
  exact hwords

/-- The Expanded fetch up to `FetchRest`, which stands at the head of the queue alone (R94). -/
theorem leads_firstByte {s : State} (h : AtFetch .expanded s) :
    Leads 9 (dispatch .fetch (s.setQ [])) ((bytesRead 0 (s.setClk false)).setQ [.fetchRest]) := by
  have hfirst := leads_plain (settled_setClk_of_atFetch h)
    (plainFrom_of_datapathFrom (datapathFrom_openFetch_readByte (s.setClk false))) [.fetchRest]
  rw [performAll_openFetch_readByte (by simpa using h.2.1)] at hfirst
  rw [dispatch_fetch_of_atFetch h]
  exact hfirst

theorem bytesRead_settled {s : State} (h : s.Settled) (last : Nat) : (bytesRead last s).Settled :=
  ⟨h.running, h.acknowledged, h.clkLow⟩

/-- The length field that `FetchRest` reads (R95). -/
theorem bytesRead_length (s : State) : (cirHead (bytesRead 0 s).cir).extractLsb' 0 3 = lengthAt s := by
  rw [cirHead_bytesRead]
  rfl

theorem fetchExpRest_length {n : BitVec 3} (hn : legalLength n = true) :
    (fetchExpRest n).length = 2 + 6 * n.toNat := by
  rcases (legalLength_iff n).mp hn with rfl | rfl | rfl <;> decide

theorem leads_fetchExp {s : State} (h : AtFetch .expanded s) (hn : legalLength (lengthAt s) = true) :
    Leads (12 + 6 * (lengthAt s).toNat) (dispatch .fetch (s.setQ [])) ((fetched s).setQ [.decode]) := by
  have hsettled := bytesRead_settled (settled_setClk_of_atFetch h) 0
  have hrest := leads_dispatch (s := bytesRead 0 (s.setClk false)) (m := .fetchRest) (rest := []) hsettled.running
    nofun nofun nofun
  rw [dispatch_fetchRest_of_legal hsettled (bytesRead_length _) hn] at hrest
  have hbytes := leads_plain hsettled (plainFrom_of_datapathFrom (datapathFrom_fetchExpRest hn _)) [.decode]
  rw [performAll_fetchExpRest h.2.1 hn] at hbytes
  have hall := ((leads_firstByte h).trans hrest).trans hbytes
  rw [fetchExpRest_length hn, ← Nat.add_assoc] at hall
  exact hall

theorem leads_fetch {mode : MachineMode} {s : State} (h : AtFetch mode s)
    (hn : mode = .expanded → legalLength (lengthAt s) = true) :
    Leads (fetchLength s) (dispatch .fetch (s.setQ [])) ((fetched s).setQ [.decode]) := by
  have hm := h.2.1
  cases mode with
  | standard => simpa [fetchLength, hm] using leads_fetchStd h
  | expanded => simpa [fetchLength, hm] using leads_fetchExp h (hn rfl)

theorem fetchPhase_of_atFetch {mode : MachineMode} {s : State} (h : AtFetch mode s)
    (hn : mode = .expanded → legalLength (lengthAt s) = true) : fetchPhase s = (fetched s).setQ [.decode] := by
  have hle : fetchLength s ≤ Config.phaseFuel := by
    have hlt := (lengthAt s).isLt
    unfold fetchLength
    split <;> simp only [Config.phaseFuel] <;> omega
  rw [fetchPhase_of_fetch h.2.2.1]
  exact (leads_fetch h hn).runUntil_eq phaseStop_atDecodeOrFetch hle fun n => runUntil_stop n rfl rfl

/-- The halt of a length that is not legal: the first byte is in CIR, and the bus is still held (R95). -/
theorem fetchPhase_of_atFetch_of_not_legalLength {s : State} (h : AtFetch .expanded s)
    (hn : legalLength (lengthAt s) = false) :
    fetchPhase s = (bytesRead 0 (s.setClk false)).raise (.decode (.badLength (lengthAt s))) := by
  have hsettled := bytesRead_settled (settled_setClk_of_atFetch h) 0
  have hrest := leads_dispatch (s := bytesRead 0 (s.setClk false)) (m := .fetchRest) (rest := []) hsettled.running
    nofun nofun nofun
  have hraise : dispatch .fetchRest ((bytesRead 0 (s.setClk false)).setQ [])
      = (bytesRead 0 (s.setClk false)).raise (.decode (.badLength (lengthAt s))) := by
    have hlen : lengthAt (s.setClk false) = lengthAt s := rfl
    rw [← hlen, ← bytesRead_length] at hn ⊢
    exact dispatch_raise rfl (if_neg (by simp [hn]))
  rw [hraise] at hrest
  rw [fetchPhase_of_fetch h.2.2.1]
  exact ((leads_firstByte h).trans hrest).runUntil_eq phaseStop_atDecodeOrFetch (by decide)
    fun n => runUntil_halted _ n (by simp)

/-- Settles O35: the list by computation, the fetch by its two reads of CIR, the halt by `FetchRest`. -/
theorem expandedFetchNetEffect : Obligations.ExpandedFetchNetEffect := by
  refine ⟨rfl, fun s h hn => fetchPhase_of_atFetch h fun _ => hn, fun s h hn => ?_⟩
  simp only [fetchPhase_of_atFetch_of_not_legalLength h hn]
  refine ⟨rfl, ?_, ?_, rfl, rfl, rfl⟩
  · simp [bytesRead, bytesAt, headAt]
  · simp [bytesRead, fetchedTo, h.2.1, fetchAddr]

/-! ## The decoded instruction -/

theorem legalLength_of_instrAt {s : State} {i : Instr} (hm : s.mode = .expanded) (hi : instrAt s = some i) :
    legalLength (lengthAt s) = true := by
  by_contra hn
  rw [instrAt, hm, codeAt_expanded hm] at hi
  simp only [decodeCode, decodeExp] at hi
  rw [if_neg (show ¬ legalLength ((headAt s).extractLsb' 0 3) = true from hn)] at hi
  split at hi <;> cases hi

theorem code_of_instrAt {s : State} {i : Instr} (hi : instrAt s = some i) :
    i.machineMode = s.mode ∧ i.code = codeAt s := code_of_decodeCode hi

@[simp] theorem fetched_mode (s : State) : (fetched s).mode = s.mode := by
  cases hm : s.mode <;> simp [fetched, fetchedTo, hm]
@[simp] theorem fetched_run (s : State) : (fetched s).run = s.run := by
  cases hm : s.mode <;> simp [fetched, fetchedTo, hm]
@[simp] theorem fetched_q (s : State) : (fetched s).q = [] := by
  cases hm : s.mode <;> simp [fetched, fetchedTo, hm]
@[simp] theorem fetched_cir (s : State) : (fetched s).cir = codeAt s := by
  cases hm : s.mode <;> simp [fetched, fetchedTo, hm]
@[simp] theorem fetched_status (s : State) : (fetched s).status = s.status := by
  cases hm : s.mode <;> simp [fetched, fetchedTo, hm]
@[simp] theorem fetched_ioreq (s : State) : (fetched s).ctl.ioreq = s.ctl.ioreq := by
  cases hm : s.mode <;> simp [fetched, fetchedTo, hm]
@[simp] theorem fetched_iobus (s : State) : (fetched s).iobus = s.iobus := by
  cases hm : s.mode <;> simp [fetched, fetchedTo, hm]
@[simp] theorem fetched_ioPending (s : State) : (fetched s).ioPending = s.ioPending := by
  cases hm : s.mode <;> simp [fetched, fetchedTo, hm]
@[simp] theorem fetched_iognt (s : State) : (fetched s).ctl.iognt = s.ctl.iognt := by
  cases hm : s.mode <;> simp [fetched, fetchedTo, hm]

/-- The end of a cycle whose fetch is complete and whose bits spell an instruction. -/
theorem finishCycle_of_decodeCode_some {X : State} {i : Instr} (hr : X.run = .running)
    (hi : decodeCode X.mode X.cir = some i) : finishCycle (X.setQ (.decode :: X.q)) = exec i X := by
  simp only [finishCycle, State.setQ_run, hr, State.setQ_q, State.setQ_mode, State.setQ_cir, hi]
  rfl

theorem step_of_atFetch {mode : MachineMode} {s : State} {i : Instr} (h : AtFetch mode s) (hi : instrAt s = some i) :
    step s = exec i (fetched s) := by
  have hn : mode = .expanded → legalLength (lengthAt s) = true := fun hmode =>
    legalLength_of_instrAt (h.2.1.trans hmode) hi
  rw [step_eq h.1 (by simp [h.2.2.1]), fetchPhase_of_atFetch h hn, ← fetched_q s]
  exact finishCycle_of_decodeCode_some (by simpa using h.1) (by simpa [instrAt] using hi)

/-- The fetch phase with the arbiter in any state, where the bytes at PC spell an instruction. -/
theorem fetchPhase_of_instrAt {mode : MachineMode} {s : State} {i : Instr} (h : AtFetchIo mode s)
    (hi : instrAt s = some i) : fetchPhase s = (fetchedIo s).setQ (.decode :: (fetchedIo s).q) := by
  cases mode with
  | standard => exact fetchPhase_standard h
  | expanded => exact fetchPhase_of_legalLength h (legalLength_of_instrAt h.2.1 hi)

theorem step_of_atFetchIo {mode : MachineMode} {s : State} {i : Instr} (h : AtFetchIo mode s)
    (hi : instrAt s = some i) : step s = exec i (fetchedIo s) := by
  rw [step_eq h.1 (by simp [h.2.2]), fetchPhase_of_instrAt h hi]
  exact finishCycle_of_decodeCode_some (by simpa using h.1) (by simpa [instrAt] using hi)

/-- The queue holds what `io_ack` announces once the fetch is over. -/
theorem readyIo_fetchedIo {mode : MachineMode} {s : State} (h : AtFetchIo mode s) : ReadyIo mode (fetchedIo s) := by
  refine ⟨by simpa using h.1, by simpa using h.2.1, ?_⟩
  rw [OnlyHandler, fetchedIo_eq]
  rfl

/-- Settles O36: the fetch leaves the bits of the instruction in CIR, and the end of the cycle runs what they decode
to. -/
theorem stepRunsTheDecodedInstruction : Obligations.StepRunsTheDecodedInstruction := by
  intro mode i s hi
  obtain ⟨hmode, hcode⟩ := code_of_instrAt hi
  have hwf (hm : s.mode = mode) : i.wellFormed mode = true := by simp [Instr.wellFormed, hmode, hm]
  exact ⟨fun h => ⟨step_of_atFetch h hi, hwf h.2.1, by rw [fetched_cir, hcode]⟩,
    fun h => ⟨step_of_atFetchIo h hi, hwf h.2.1, by rw [fetchedIo_cir, hcode], readyIo_fetchedIo h⟩⟩

/-! ## The decode faults -/

/-- Operand bytes of the number that class and mode require make a row (30_encoding.md R67). -/
theorem expInstr_ne_none_of_length_eq {op : Opcode} {m : AddrMode} {operand : List Byte}
    (h : operand.length = ((op.classIn .expanded).legalLen m).toNat) : expInstr op m operand ≠ none := by
  match operand with
  | [] =>
    cases op with
    | not | input | endRun => nofun
    | _ => cases m <;> cases h
  | [_] =>
    cases op with
    | add | sub | and | or | xor | output =>
      cases m with
      | direct => nofun
      | address => cases h
    | _ => cases m <;> cases h
  | [_, _, _, _] =>
    cases op with
    | add | sub | and | or | xor | output =>
      cases m with
      | direct => cases h
      | address => nofun
    | not | input | endRun => cases m <;> cases h
    | _ => nofun
  | [_, _] | [_, _, _] | _ :: _ :: _ :: _ :: _ :: _ => cases op <;> cases m <;> cases h

theorem reservedMode_of_instrAt_none {s : State} (hm : s.mode = .standard) (hi : instrAt s = none) :
    (wordAt s).extractLsb' 8 2 = 2#2 ∨ (wordAt s).extractLsb' 8 2 = 3#2 := by
  by_contra hmode
  simp only [instrAt, codeAt, hm, decodeCode, decodeStd, if_neg hmode] at hi
  cases hi

theorem badForm_of_instrAt_none {s : State} (hm : s.mode = .expanded) (hn : legalLength (lengthAt s) = true)
    (hi : instrAt s = none) :
    lengthAt s ≠ ((Opcode.ofBits ((headAt s).extractLsb' 4 4)).classIn .expanded).legalLen
      (AddrMode.ofBit ((headAt s).extractLsb' 3 1)) := by
  intro hlen
  have hbytes : (bytesAt s ((lengthAt s).toNat + 1)).tail.length = (lengthAt s).toNat := by simp
  obtain ⟨j, hj⟩ := Option.ne_none_iff_exists'.mp (expInstr_ne_none_of_length_eq (hbytes.trans (by rw [hlen])))
  have hn' : legalLength ((headAt s).extractLsb' 0 3) = true := hn
  have hlen' : (bytesAt s ((lengthAt s).toNat + 1)).tail.length = ((headAt s).extractLsb' 0 3).toNat := hbytes
  rw [instrAt, hm, codeAt_expanded hm] at hi
  simp only [decodeCode, if_pos hlen', decodeExp, if_pos hn', hj] at hi
  cases hi

/-- The reason of the decode fault at PC, where the bytes there spell no instruction (R95 to R97). -/
def faultAt (s : State) : DecodeReason :=
  match s.mode with
  | .standard => .badMode ((wordAt s).extractLsb' 8 2)
  | .expanded =>
    if legalLength (lengthAt s) then
      .badForm ((headAt s).extractLsb' 4 4) ((headAt s).extractLsb' 3 1) (lengthAt s)
    else .badLength (lengthAt s)

/-- The state in which that fault is taken: after the fetch, or after its first byte. -/
def faultState (s : State) : State :=
  match s.mode with
  | .standard => fetchedIo s
  | .expanded => if legalLength (lengthAt s) then fetchedIo s else firstByteRead s

/-- A step where the bytes at PC spell no instruction, by the model's step and by steps of R73. -/
theorem step_of_instrAt_none {mode : MachineMode} {s : State} (h : AtFetchIo mode s) (hi : instrAt s = none) :
    ∃ k, step s = .next ((faultState s).raise (.decode (faultAt s)))
      ∧ microRun k s = (faultState s).raise (.decode (faultAt s)) := by
  cases mode with
  | standard =>
    have hm := h.2.1
    have hmode := reservedMode_of_instrAt_none hm hi
    simp only [faultState, faultAt, hm]
    exact step_of_decode_fault h (fetchPhase_standard h) hi fun t => State.decodeOp_of_reservedMode hm hmode
  | expanded =>
    have ⟨hr, hm, hq⟩ := h
    cases hn : legalLength (lengthAt s) with
    | true =>
      have hform := badForm_of_instrAt_none hm hn hi
      simp only [faultState, faultAt, hm, hn, if_true]
      exact step_of_decode_fault h (fetchPhase_of_legalLength h hn) hi fun t ht hcir =>
        (State.decodeOp_expanded (ht.trans hm) (hcir.trans (codeAt_expanded hm))).trans (if_neg hform)
    | false =>
      have hphase := fetchPhase_of_not_legalLength h hn
      obtain ⟨k, hk⟩ := exists_microRun_eq_fetchPhase hr hq
      simp only [faultState, faultAt, hm, hn, Bool.false_eq_true, if_false]
      refine ⟨k, ?_, hk.trans hphase⟩
      rw [step_eq hr (by simp [hq]), finishCycle_of_not_running (by simp [hphase]), hphase]

/-! ## The next instruction boundary -/

/-- An Execute phase keeps the machine mode, and but for `end` the run state; but for an `output` and `end` it keeps
`io_ack`, and but for an `output` it queues `Fetch` alone. -/
theorem executeNet_frame {op : Opcode} (hout : op ≠ .output) (hend : op ≠ .endRun) (t : State) :
    (executeNet op t).run = t.run ∧ (executeNet op t).mode = t.mode ∧ (executeNet op t).ioAck = t.ioAck
      ∧ (executeNet op t).q = [.fetch] := by
  cases op with
  | output => exact absurd rfl hout
  | endRun => exact absurd rfl hend
  | branchIfZero | branchIfNegative | branchIfOverflow | branchIfCarry =>
    simp only [executeNet, netBranch]
    split <;> exact ⟨rfl, rfl, rfl, rfl⟩
  | _ => exact ⟨rfl, rfl, rfl, rfl⟩

/-- Everything an `output` writes: IOBUS, its event, the arbiter's components and the queue. -/
theorem outputEffect_frame (b : Byte) (t : State) :
    outputEffect b t =
      { t with
        iobus := b
        ioPending := (outputEffect b t).ioPending
        ioVal := (outputEffect b t).ioVal
        ioAck := (outputEffect b t).ioAck
        events := t.events ++ [.output b]
        ctl := { t.ctl with ioreq := (outputEffect b t).ctl.ioreq, iognt := false }
        q := [.fetch] } := by
  cases hreply : deviceReply t.device (outputsOf (t.events ++ [.output b])) <;> simp [outputEffect, hreply]

@[simp] theorem outputEffect_run (b : Byte) (t : State) : (outputEffect b t).run = t.run := by rw [outputEffect_frame]
@[simp] theorem outputEffect_mode (b : Byte) (t : State) : (outputEffect b t).mode = t.mode := by
  rw [outputEffect_frame]
@[simp] theorem outputEffect_q (b : Byte) (t : State) : (outputEffect b t).q = [.fetch] := by rw [outputEffect_frame]
@[simp] theorem outputEffect_status (b : Byte) (t : State) : (outputEffect b t).status = t.status := by
  rw [outputEffect_frame]
@[simp] theorem outputEffect_mem (b : Byte) (t : State) : (outputEffect b t).mem = t.mem := by rw [outputEffect_frame]
@[simp] theorem outputEffect_events (b : Byte) (t : State) :
    (outputEffect b t).events = t.events ++ [.output b] := by rw [outputEffect_frame]
@[simp] theorem outputEffect_iobus (b : Byte) (t : State) : (outputEffect b t).iobus = b := by rw [outputEffect_frame]
@[simp] theorem outputEffect_device (b : Byte) (t : State) : (outputEffect b t).device = t.device := by
  rw [outputEffect_frame]
@[simp] theorem outputEffect_iognt (b : Byte) (t : State) : (outputEffect b t).ctl.iognt = false := by
  rw [outputEffect_frame]
@[simp] theorem outputEffect_gnt (b : Byte) (t : State) : (outputEffect b t).ctl.gnt = t.ctl.gnt := by
  rw [outputEffect_frame]

/-- Every instruction but `end` ends at an instruction boundary. -/
theorem atFetchIo_finish {op : Opcode} (hend : op ≠ .endRun) {a : State} (hr : a.run = .running) :
    AtFetchIo a.mode (finish op a.queueHandlers) := by
  by_cases hout : op = .output
  · subst hout
    rw [finish_output_queueHandlers]
    refine ⟨by simpa [handlerBehind] using hr, by simp [handlerBehind], ?_⟩
    simp only [handlerBehind, outputEffect_q]
    rfl
  · obtain ⟨hrun, hmode, hack, hq⟩ := executeNet_frame hout hend a.queueHandlers
    rw [finish_of_ne_endRun hend]
    refine ⟨hrun.trans hr, hmode, ?_⟩
    rw [State.setQ_q, State.setQ_ioAck, hack, hq]
    rfl

@[simp] theorem arbitrated_run (s : State) : (arbitrated s).run = s.run := by
  unfold arbitrated
  split
  · split <;> rfl
  · rfl

/-- Settles O38: where the bytes at PC spell an instruction its Execute phase ends with `Fetch` or with `End`, and
else the step takes the decode fault. -/
theorem stepEndsAtTheNextBoundaryOrHalts : Obligations.StepEndsAtTheNextBoundaryOrHalts := by
  intro mode s h
  cases hi : instrAt s with
  | none =>
    obtain ⟨k, hstep, -⟩ := step_of_instrAt_none h hi
    exact ⟨_, hstep, .inr (.inr ⟨_, rfl⟩)⟩
  | some i =>
    have hready := readyIo_fetchedIo h
    have hmode := (code_of_instrAt hi).1.trans h.2.1
    have hexec := exec_of_readyIo (i := i) (hmode.symm ▸ hready)
    refine ⟨_, (step_of_atFetchIo h hi).trans hexec, ?_⟩
    by_cases hend : i.opcode = .endRun
    · exact .inr (.inl (by rw [hend, finish_endRun]; rfl))
    · have hnext := atFetchIo_finish hend (a := arbitrated (operandNet i (fetchedIo s))) (by simpa using h.1)
      rw [arbitrated_mode, operandNet_mode, fetchedIo_mode, h.2.1] at hnext
      exact .inl hnext

end Sys2Proof.Machine

/-! An instruction in steps of R73 (70_reset_and_hazards.md R162). -/

namespace Sys2Proof.Machine

/-! ## `Decode` and `Execute` of the instruction in CIR -/

/-- The length field of an Expanded instruction is the one its class and mode require (30_encoding.md R67). -/
theorem Instr.operandBytes_length_eq_legalLen {i : Instr} (hi : i.machineMode = .expanded) :
    BitVec.ofNat 3 i.operandBytes.length = (i.opcode.classIn .expanded).legalLen i.addrMode := by
  have hlen : 1 + i.operandBytes.length = 1 + ((i.opcode.classIn .expanded).legalLen i.addrMode).toNat := by
    rw [← encode_length_of_expanded hi, encode, Instr.code_of_expanded hi, Code.bytes, List.length_cons, Nat.add_comm]
  rw [Nat.add_left_cancel hlen, BitVec.ofNat_toNat, BitVec.setWidth_eq]

/-- `Decode` appends the operand micro-ops of the instruction in CIR (40_control_unit.md R96, R97). -/
theorem State.decodeOp_of_code {s : State} {i : Instr} (hm : s.mode = i.machineMode) (hcir : s.cir = i.code) :
    s.decodeOp = s.append (getOpOf i ++ [.execute]) := by
  cases hi : i.machineMode with
  | standard =>
    obtain ⟨n, hn, -⟩ := Instr.exists_stdInstr_eq hi
    have hword : cirWord s.cir = stdCode i.opcode i.addrMode n := by rw [hcir, Instr.code_of_standard hi hn]; rfl
    simp only [State.decodeOp, hm, hi, State.decodeStdOp, cirOpcode, hword, stdCode_mode, stdCode_modeBit,
      stdCode_opcode, if_neg (not_reserved_of_bit _), Opcode.ofBits_bits, AddrMode.ofBit_bit, getOpOf]
  | expanded =>
    rw [State.decodeOp_expanded (hm.trans hi) (hcir.trans (Instr.code_of_expanded hi))]
    simp only [expHead_length, expHead_opcode, expHead_modeBit, Opcode.ofBits_bits, AddrMode.ofBit_bit,
      Instr.operandBytes_length_eq_legalLen hi, if_true, getOpOf, hi]

/-- `Execute` appends the Body of the instruction in CIR (R101). -/
theorem State.executeOp_of_code {s : State} {i : Instr} (hm : s.mode = i.machineMode) (hcir : s.cir = i.code) :
    s.executeOp = s.append (bodyOf s.mode i.opcode) := by
  have hop : Opcode.ofBits (cirOpcode s.mode s.cir) = i.opcode := by
    cases hi : i.machineMode with
    | standard =>
      obtain ⟨n, hn, -⟩ := Instr.exists_stdInstr_eq hi
      simp [hm, hi, hcir, Instr.code_of_standard hi hn, cirOpcode, cirWord]
    | expanded => simp [hm, hi, hcir, Instr.code_of_expanded hi, cirOpcode, cirHead, cirBytes]
  rw [State.executeOp, hop]

theorem dispatch_eq_tick_append {m : Micro} {s : State} {ms : List Micro}
    (h : perform m (s.setClk true) = (s.setClk true).append ms) : dispatch m s = tick (fun t => t.append ms) s := by
  simp only [dispatch, tick, h]

/-! ## The instruction in CIR, by steps of R73 -/

/-- From `Decode` at the head the steps of R73 lead where the meaning does; with no request waiting there are as
many of them as the tables say. -/
theorem exists_microRun_eq_finish {i : Instr} {s : State} (hr : s.run = .running) (hm : s.mode = i.machineMode)
    (hcir : s.cir = i.code) (hq : s.HandlerQueued) :
    ∃ k, microRun k (s.setQ (.decode :: s.q)) = finish i.opcode (bodyState i s)
      ∧ (s.q = [] → s.ctl.ioreq = false →
        k = 1 + (getOpOf i).length + executeSteps i.machineMode s.status i.opcode) := by
  obtain ⟨hoperand, hset, hqueued⟩ := leads_operand hr hm hq
  let w := operandNet i s.afterDecode
  have hwm : w.mode = i.machineMode := by rw [operandNet_mode, afterDecode_mode, hm]
  have hwcir : w.cir = i.code := by rw [show w = _ from operandNet_frame i s.afterDecode]
  obtain ⟨k, -, hsteps, hbody⟩ := leads_execute (op := i.opcode) hset hqueued fun hc => by
    rw [operandNet_mode] at hc ⊢
    exact operandNet_mdr_lt (by rw [afterDecode_mode, hm]) hc
  have hdecode : dispatch .decode s = tick (fun t => t.append (getOpOf i ++ [.execute])) (s.writeCir i.code) := by
    rw [← hcir, dispatch_eq_tick_append (m := .decode) (s := s) (State.decodeOp_of_code (s := s.setClk true) hm hcir)]
    rfl
  have hexecute : dispatch .execute (w.setQ w.q) = tick (fun t => t.append (bodyOf w.mode i.opcode)) (w.setQ w.q) :=
    dispatch_eq_tick_append (m := .execute) (s := w.setQ w.q)
      (State.executeOp_of_code (s := (w.setQ w.q).setClk true) hwm hwcir)
  refine ⟨s.q.length + (getOpOf i).length + 1 + (k + 1), ?_, fun hnil hreq => ?_⟩
  · rw [microRun_add, microRun_cons (s := s.setQ (.decode :: s.q)) (m := .decode) (rest := s.q) hr rfl]
    change microRun _ (microRun _ (dispatch .decode s)) = _
    rw [hdecode, hoperand.microRun_eq,
      microRun_cons (s := w.setQ (.execute :: w.q)) (m := .execute) (rest := w.q) hset.running rfl]
    change microRun k (dispatch .execute (w.setQ w.q)) = _
    rw [hexecute, hbody.microRun_eq]
    rfl
  · have hdone : s.afterDecode = s := afterDecode_of_quiet hnil hreq
    rw [hdone, operandNet_q, operandNet_mode, operandNet_status] at hsteps
    rw [← hm, ← hsteps hnil, hnil, List.length_nil]
    omega

/-- Settles O40: a decode fault is reached by steps of R73, and so is the meaning of the instruction that the fetch
leaves in CIR. -/
theorem stepIsARunOfMicroSteps : Obligations.StepIsARunOfMicroSteps := by
  intro mode s t h ht
  cases hi : instrAt s with
  | none =>
    obtain ⟨k, hstep, hrun⟩ := step_of_instrAt_none h hi
    cases Host.Outcome.next.inj (hstep.symm.trans ht)
    exact ⟨k, hrun⟩
  | some i =>
    obtain ⟨hmode, hcode⟩ := code_of_instrAt hi
    have hready := readyIo_fetchedIo h
    have hm : (fetchedIo s).mode = i.machineMode := by rw [fetchedIo_mode, hmode]
    rw [step_of_atFetchIo h hi, exec_eq hready.1 hm (readyIo_handlerQueued hready)] at ht
    cases Host.Outcome.next.inj ht
    obtain ⟨j, hj⟩ := exists_microRun_eq_fetchPhase h.1 h.2.2
    obtain ⟨k, hk, -⟩ := exists_microRun_eq_finish hready.1 hm (by rw [fetchedIo_cir, hcode])
      (readyIo_handlerQueued hready)
    exact ⟨j + k, by rw [microRun_add, hj, fetchPhase_of_instrAt h hi, hk]⟩

/-! ## The tables of R162 -/

theorem operandSteps_eq (i : Instr) : operandSteps i = (getOpOf i).length := by
  unfold operandSteps getOpOf
  cases i.machineMode with
  | standard => cases i.opcode.classIn .standard <;> cases i.addrMode <;> rfl
  | expanded => cases i.opcode.classIn .expanded <;> cases i.addrMode <;> rfl

theorem fetchSteps_eq {s : State} {i : Instr} (hi : instrAt s = some i) : fetchSteps i = fetchLength s + 2 := by
  obtain ⟨hmode, hcode⟩ := code_of_instrAt hi
  cases hm : s.mode with
  | standard => simp [fetchSteps, fetchLength, hmode, hm]
  | expanded =>
    have hexp := hmode.trans hm
    have hbytes : i.operandBytes.length = (lengthAt s).toNat := by
      have hlen := congrArg (fun c => (cirBytes c).length) hcode
      simpa [Instr.code_of_expanded hexp, codeAt, hm, cirBytes] using hlen
    simp only [fetchSteps, fetchLength, hmode, hm, hbytes]
    omega

/-- Settles O39: the dispatches of the fetch, of the operand phase and of the Execute phase, each counted by its
table. -/
theorem instructionTakesTheTabledSteps : Obligations.InstructionTakesTheTabledSteps := by
  intro mode i s t h hi ht
  obtain ⟨hmode, hcode⟩ := code_of_instrAt hi
  have hn : mode = .expanded → legalLength (lengthAt s) = true := fun hexp =>
    legalLength_of_instrAt (h.2.1.trans hexp) hi
  have hr : (fetched s).run = .running := by simpa using h.1
  have hm : (fetched s).mode = i.machineMode := by rw [fetched_mode, hmode]
  have hq : (fetched s).HandlerQueued := .inl (fetched_q s)
  rw [step_of_atFetch h hi, exec_eq hr hm hq] at ht
  cases Host.Outcome.next.inj ht
  obtain ⟨k, hk, hsteps⟩ := exists_microRun_eq_finish hr hm (by rw [fetched_cir, hcode]) hq
  rw [fetched_q] at hk
  have hcount : stepCount i s.status = fetchLength s + 1 + k := by
    rw [stepCount, fetchSteps_eq hi, operandSteps_eq, hsteps (fetched_q s) (by simpa using h.2.2.2), fetched_status]
    omega
  rw [hcount, microRun_add, microRun_cons h.1 h.2.2.1, (leads_fetch h hn).microRun_eq, hk]

end Sys2Proof.Machine

/-! What every micro-op, every step of R73, every step of the model and every action of the host keeps: the
parameters and the history (10_state.md R30, R32), the acknowledged handler (40_control_unit.md R76), and the form
of the machine record (10_state.md R14). -/

namespace Sys2Proof.Machine

/-! ## Micro-ops other than `IoHandler` and `End` -/

/-- What a micro-op other than `IoHandler` and `End` can do to the control components: it appends micro-ops other than
`IoHandler` to the queue and events to the history, or it takes a fault. -/
structure State.Extends (s t : State) : Prop where
  mode : t.mode = s.mode
  device : t.device = s.device
  hz : t.hz = s.hz
  savedQ : t.savedQ = s.savedQ
  ioAck : t.ioAck = s.ioAck
  events : s.events <+: t.events
  run_q : (t.run = s.run ∧ ∃ ms, .ioHandler ∉ ms ∧ t.q = s.q ++ ms) ∨ ∃ r, t.run = .haltedFault r ∧ t.q = []

theorem State.extends_raise (s : State) (r : FaultReason) : s.Extends (s.raise r) :=
  ⟨rfl, rfl, rfl, rfl, rfl, List.prefix_append _ _, .inr ⟨r, rfl, rfl⟩⟩

theorem State.extends_append (s : State) {ms : List Micro} (h : .ioHandler ∉ ms) : s.Extends (s.append ms) :=
  ⟨rfl, rfl, rfl, rfl, rfl, List.prefix_rfl, .inl ⟨rfl, ms, h, rfl⟩⟩

/-- A micro-op that keeps the control components. -/
theorem State.extends_of_eq {s t : State} (hmode : t.mode = s.mode) (hdevice : t.device = s.device) (hhz : t.hz = s.hz)
    (hsaved : t.savedQ = s.savedQ) (hack : t.ioAck = s.ioAck) (hevents : t.events = s.events) (hrun : t.run = s.run)
    (hq : t.q = s.q) : s.Extends t :=
  ⟨hmode, hdevice, hhz, hsaved, hack, hevents ▸ List.prefix_rfl,
    .inl ⟨hrun, [], List.not_mem_nil, hq.trans (List.append_nil _).symm⟩⟩

theorem State.Extends.of_emit {s t : State} {e : Event} (h : (s.emit e).Extends t) : s.Extends t :=
  ⟨h.mode, h.device, h.hz, h.savedQ, h.ioAck, (List.prefix_append _ _).trans h.events, h.run_q⟩

theorem ioHandler_not_mem_fetchOf (mode : MachineMode) : .ioHandler ∉ fetchOf mode := by cases mode <;> decide

theorem ioHandler_not_mem_fetchOperand (n : BitVec 3) : .ioHandler ∉ fetchOperand n := by
  unfold fetchOperand
  split
  · decide
  · split <;> decide

theorem ioHandler_not_mem_bodyOf (mode : MachineMode) (op : Opcode) : .ioHandler ∉ bodyOf mode op := by
  cases mode <;> cases op <;> decide

theorem State.extends_setIoGrant (s : State) (b : Bool) : s.Extends (s.setIoGrant b) := by
  rcases s.setIoGrant_cases b with ⟨-, -, e⟩ | ⟨-, e⟩ <;> rw [e] <;> exact extends_of_eq rfl rfl rfl rfl rfl rfl rfl rfl

theorem State.extends_aluBitwise (s : State) (r : Byte) : s.Extends (s.aluBitwise r) := by
  rw [State.aluBitwise_eq]
  exact extends_of_eq rfl rfl rfl rfl rfl rfl rfl rfl

theorem perform_extends {m : Micro} (hhandler : m ≠ .ioHandler) (hend : m ≠ .endRun) (s : State) :
    s.Extends (perform m s) := by
  cases m with
  | ioHandler => exact absurd rfl hhandler
  | endRun => exact absurd rfl hend
  | fetch => exact s.extends_append (ioHandler_not_mem_fetchOf s.mode)
  | fetchRest =>
    rcases s.fetchRest_cases with ⟨-, e⟩ | ⟨-, e⟩ <;> rw [perform, e]
    · exact s.extends_append (by simp [ioHandler_not_mem_fetchOperand])
    · exact s.extends_raise _
  | decode =>
    rcases s.decodeOp_cases with ⟨cls, m, e⟩ | ⟨r, e⟩ <;> rw [perform, e]
    · exact s.extends_append (by cases s.mode <;> cases cls <;> cases m <;> decide)
    · exact s.extends_raise _
  | execute => exact s.extends_append (ioHandler_not_mem_bodyOf _ _)
  | branch f =>
    rcases s.branchOp_cases f with ⟨-, e⟩ | ⟨-, e⟩ <;> rw [perform, e]
    · exact s.extends_append (ioHandler_not_mem_bodyOf s.mode .goto)
    · exact s.extends_append (by decide)
  | memOut =>
    rcases s.memOut_cases with ⟨-, e⟩ | ⟨-, e⟩ <;> rw [perform, e]
    · exact State.extends_of_eq rfl rfl rfl rfl rfl rfl rfl rfl
    · exact s.extends_raise _
  | memIn =>
    rcases s.memIn_cases with ⟨-, e⟩ | ⟨-, e⟩ <;> rw [perform, e]
    · exact State.extends_of_eq rfl rfl rfl rfl rfl rfl rfl rfl
    · exact s.extends_raise _
  | cirStd part =>
    cases hm : s.mode <;> cases part <;> simp only [perform, State.cirStd, hm] <;>
      exact State.extends_of_eq rfl rfl rfl rfl rfl rfl rfl rfl
  | cirExp k =>
    cases hm : s.mode <;> simp only [perform, State.cirExp, hm] <;>
      exact State.extends_of_eq rfl rfl rfl rfl rfl rfl rfl rfl
  | ioPut =>
    cases hm : s.mode <;> simp only [perform, State.ioPut, hm] <;>
      exact State.extends_of_eq rfl rfl rfl rfl rfl rfl rfl rfl
  | ioCallback =>
    rcases s.ioCallback_cases with ⟨-, e⟩ | ⟨v, -, e⟩ <;> rw [perform, e] <;>
      exact .of_emit (State.extends_of_eq rfl rfl rfl rfl rfl rfl rfl rfl)
  | ioOpen | ioClose | ioRelease => exact s.extends_setIoGrant _
  | aluAdd kind =>
    rw [perform, State.aluAdd_eq]
    exact State.extends_of_eq rfl rfl rfl rfl rfl rfl rfl rfl
  | aluTwos =>
    simp only [perform, State.aluTwos, State.addFlags_eq]
    exact State.extends_of_eq rfl rfl rfl rfl rfl rfl rfl rfl
  | aluAnd | aluOr | aluXor | aluNot => exact s.extends_aluBitwise _
  | marFrom src | abusFrom src | dbusFrom src => cases src <;> exact State.extends_of_eq rfl rfl rfl rfl rfl rfl rfl rfl
  | load reg | rot reg | inc reg | getVal reg => cases reg <;> exact State.extends_of_eq rfl rfl rfl rfl rfl rfl rfl rfl
  | busReq | busGrant | busRelease | readOn | readOff | writeOn | writeOff | loadOperand | inLoad =>
    exact State.extends_of_eq rfl rfl rfl rfl rfl rfl rfl rfl

/-! ## Dispatches -/

/-- Everything the end of a clock cycle can do: lower the clock line, and queue the handler of a request (R73, R76). -/
theorem tick_cases (f : State → State) (s : State) :
    tick f s = (f (s.setClk true)).setClk false
      ∨ ((f (s.setClk true)).run = .running ∧ (f (s.setClk true)).ioAck = false
        ∧ tick f s = (((f (s.setClk true)).append [.ioHandler]).setIoAck true).setClk false) := by
  rcases State.afterMicro_cases (f (s.setClk true)) with ⟨hr, h⟩ | ⟨-, h⟩
  · rcases State.ioCheck_cases (f (s.setClk true)) with ⟨-, hack, e⟩ | ⟨-, e⟩
    · exact .inr ⟨hr, hack, by rw [tick, h, e]⟩
    · exact .inl (by rw [tick, h, e])
  · exact .inl (by rw [tick, h])

/-- `IoHandler` keeps the run state. -/
theorem perform_ioHandler_run (s : State) : (perform .ioHandler s).run = s.run := by
  cases h : s.ctl.gnt || s.ctl.iognt with
  | true => rw [perform_ioHandler_of_busy h, State.append_run]
  | false => rw [perform_ioHandler_of_free h]; rfl

/-- A micro-op that stops the machine empties the queue. -/
theorem perform_q_of_not_running {m : Micro} {s : State} (hr : s.run = .running)
    (hstop : (perform m s).run ≠ .running) : (perform m s).q = [] := by
  by_cases hend : m = .endRun
  · rw [hend]; rfl
  · by_cases hhandler : m = .ioHandler
    · rw [hhandler, perform_ioHandler_run] at hstop
      exact absurd hr hstop
    · rcases (perform_extends hhandler hend s).run_q with ⟨hkeep, -⟩ | ⟨-, -, hq⟩
      · exact absurd (hkeep.trans hr) hstop
      · exact hq

/-- Only a machine that still runs has micro-ops queued after a dispatch. -/
theorem dispatch_running_or_empty {m : Micro} {s : State} (hr : s.run = .running) :
    (dispatch m s).run = .running ∨ (dispatch m s).q = [] := by
  by_cases hstop : (perform m (s.setClk true)).run = .running
  · refine .inl ?_
    rcases tick_cases (perform m) s with e | ⟨-, -, e⟩ <;> rw [dispatch, e] <;> exact hstop
  · exact .inr (by rw [dispatch, tick_halted hstop]; exact perform_q_of_not_running hr hstop)

/-- Induction along a step of the model: what every dispatch of a popped micro-op keeps, and what the dispatch of
`Execute` with a Body keeps, a step keeps. -/
theorem step_keeps {P : State → Prop}
    (hdispatch : ∀ s m rest, P s → s.run = .running → s.q = m :: rest → P (dispatch m (s.setQ rest)))
    (hbody : ∀ s mode op rest, P s → s.run = .running → s.q = .execute :: rest →
      P (tick (fun t => t.append (bodyOf mode op)) (s.setQ rest)))
    {s t : State} (h : P s) (ht : step s = .next t) : P t := by
  have hkeep (s : State) (m : Micro) (rest : List Micro) (hs : P s ∧ (s.run = .running ∨ s.q = []))
      (hr : s.run = .running) (hq : s.q = m :: rest) :
      P (dispatch m (s.setQ rest)) ∧ ((dispatch m (s.setQ rest)).run = .running ∨ (dispatch m (s.setQ rest)).q = []) :=
    ⟨hdispatch s m rest hs.1 hr hq, dispatch_running_or_empty hr⟩
  have hphase (stop : Micro → Bool) (s : State) (hs : P s ∧ (s.run = .running ∨ s.q = [])) :
      P (runUntil stop Config.phaseFuel s)
        ∧ ((runUntil stop Config.phaseFuel s).run = .running ∨ (runUntil stop Config.phaseFuel s).q = []) :=
    runUntil_induct (fun s => P s ∧ (s.run = .running ∨ s.q = [])) stop
      (fun s m rest hs hr hq _ => hkeep s m rest hs hr hq) _ s hs
  obtain ⟨hr, -, hfinish⟩ := step_next ht
  have hfetched : P (fetchPhase s) := by
    unfold fetchPhase
    split
    · exact h
    · rename_i m rest hq
      split
      · exact h
      · exact (hphase _ _ (hkeep s m rest ⟨h, .inl hr⟩ hr hq)).1
  rcases finishCycle_cases (fetchPhase s) with ⟨rest, i, hr', hq, hi, e⟩ | ⟨rest, hr', hq, -, e⟩ | e
  · rw [e, exec_eq_runInstr] at hfinish
    obtain ⟨-, -, rfl⟩ := runInstr_next hfinish
    obtain ⟨hm, hcode⟩ := code_of_decodeCode hi
    have hdecode := hkeep _ _ _ ⟨hfetched, .inl hr'⟩ hr' hq
    rw [dispatch_eq_tick_append (m := .decode) (s := (fetchPhase s).setQ rest)
      (State.decodeOp_of_code (s := ((fetchPhase s).setQ rest).setClk true) hm.symm hcode.symm)] at hdecode
    have hoperand := hphase atExecute _ hdecode
    rw [hcode]
    change P (executePhase _ (runUntil atExecute Config.phaseFuel _))
    unfold executePhase
    split
    · rename_i rest' hq'
      have hrun := hoperand.2.resolve_right fun hnil => List.cons_ne_nil _ _ (hq'.symm.trans hnil)
      exact runUntil_induct P _ (fun s m rest hP hr hq _ => hdispatch s m rest hP hr hq) _ _
        (hbody _ _ _ _ hoperand.1 hrun hq')
    · exact hoperand.1
  · cases Host.Outcome.next.inj (e.symm.trans hfinish)
    exact hdispatch _ _ _ hfetched hr' hq
  · cases Host.Outcome.next.inj (e.symm.trans hfinish)
    exact hfetched

end Sys2Proof.Machine

/-! The invariants of the machine (10_state.md R14, R30, R32; 40_control_unit.md R76): each is kept by every
dispatch, so by every step of R73 and of the model, and by every action of the host. -/

namespace Sys2Proof.Machine

/-! ## What a fault and `End` write (R141, R144) -/

/-- Settles O10: no I/O check follows, since the machine no longer runs. -/
theorem faultAndEndStopTheClock : Obligations.FaultAndEndStopTheClock := by
  refine fun s => ⟨fun r => ?_, ?_⟩
  · rw [tick_halted (by simp)]
    simp [State.raise, State.setQ, State.setRun, State.emit, State.setClk]
  · exact (dispatch_endRun (t := s) s.q).trans (by simp [netEnd])

/-! ## Parameters and history (R3, R30, R32) -/

/-- A run from `s` to `t` keeps the parameters, appends events, and keeps the saved queue unless it has ended. -/
structure State.Continues (s t : State) : Prop where
  mode : t.mode = s.mode
  device : t.device = s.device
  hz : t.hz = s.hz
  events : s.events <+: t.events
  savedQ : t.savedQ = s.savedQ ∨ t.run = .haltedEnd ∧ t.savedQ = []

theorem State.Continues.refl (s : State) : s.Continues s := ⟨rfl, rfl, rfl, List.prefix_rfl, .inl rfl⟩

theorem State.Continues.trans {s t u : State} (h : s.Continues t) (hr : t.run = .running) (h' : t.Continues u) :
    s.Continues u where
  mode := h'.mode.trans h.mode
  device := h'.device.trans h.device
  hz := h'.hz.trans h.hz
  events := h.events.trans h'.events
  savedQ := h'.savedQ.imp_left fun e => e.trans (h.savedQ.resolve_right (by simp [hr]))

theorem perform_continues (m : Micro) (s : State) : s.Continues (perform m s) := by
  by_cases hend : m = .endRun
  · rw [hend]
    simp only [perform, State.endRun]
    exact ⟨by simp, by simp, by simp, by simp, by simp⟩
  · by_cases hhandler : m = .ioHandler
    · rw [hhandler]
      cases h : s.ctl.gnt || s.ctl.iognt with
      | true => rw [perform_ioHandler_of_busy h]; exact ⟨rfl, rfl, rfl, List.prefix_rfl, .inl rfl⟩
      | false => rw [perform_ioHandler_of_free h]; exact ⟨rfl, rfl, rfl, List.prefix_rfl, .inl rfl⟩
    · have h := perform_extends hhandler hend s
      exact ⟨h.mode, h.device, h.hz, h.events, .inl h.savedQ⟩

theorem tick_continues {f : State → State} {s : State} (h : s.Continues (f (s.setClk true))) :
    s.Continues (tick f s) := by
  rcases tick_cases f s with e | ⟨-, -, e⟩ <;> rw [e] <;>
    exact ⟨h.mode, h.device, h.hz, h.events, h.savedQ⟩

theorem dispatch_continues (m : Micro) (s : State) : s.Continues (dispatch m s) :=
  have h := perform_continues m (s.setClk true)
  tick_continues ⟨h.mode, h.device, h.hz, h.events, h.savedQ⟩

theorem State.Continues.setQ {s t : State} {ms : List Micro} (h : (s.setQ ms).Continues t) : s.Continues t :=
  ⟨h.mode, h.device, h.hz, h.events, h.savedQ⟩

/-- Settles O48: every dispatch continues the run, and so does the whole step. -/
theorem stepsKeepParametersAndHistory : Obligations.StepsKeepParametersAndHistory := by
  intro s t ht
  have h : s.Continues t :=
    step_keeps (fun u m rest hu hr _ => hu.trans hr (dispatch_continues m (u.setQ rest)).setQ)
      (fun u mode op rest hu hr _ => hu.trans hr (tick_continues (s := u.setQ rest)
        ⟨rfl, rfl, rfl, List.prefix_rfl, .inl rfl⟩).setQ) (.refl s) ht
  exact ⟨h.mode, h.device, h.hz, h.events, h.savedQ⟩

/-! ## The acknowledged handler (R76) -/

theorem ackOk_of_running {s : State} (hr : s.run = .running) (hsaved : s.savedQ = [])
    (hcount : s.q.count .ioHandler = handlersAcknowledged s) : AckOk s := by
  simp [AckOk, hr, hsaved, hcount]

theorem ackOk_of_haltedFault {s : State} {r : FaultReason} (hr : s.run = .haltedFault r) : AckOk s := by
  simp [AckOk, hr]

/-- The I/O check queues a handler and acknowledges it. -/
theorem ackOk_tick {f : State → State} {s : State} (h : AckOk (f (s.setClk true))) : AckOk (tick f s) := by
  rcases tick_cases f s with e | ⟨hr, hack, e⟩ <;> rw [e]
  · exact h
  · obtain ⟨hsaved, hcount⟩ := h.2.1 hr
    refine ackOk_of_running hr hsaved ?_
    simp [handlersAcknowledged, hcount, hack]

theorem ackOk_perform {m : Micro} {s : State} (hr : s.run = .running) (hsaved : s.savedQ = [])
    (hcount : (m :: s.q).count .ioHandler = handlersAcknowledged s) : AckOk (perform m s) := by
  by_cases hend : m = .endRun
  · subst hend
    simp [AckOk, perform, State.endRun]
  · by_cases hhandler : m = .ioHandler
    · subst hhandler
      rw [List.count_cons_self] at hcount
      cases h : s.ctl.gnt || s.ctl.iognt with
      | true =>
        rw [perform_ioHandler_of_busy h]
        refine ackOk_of_running hr hsaved ?_
        rw [State.append_q, List.count_append]
        exact hcount
      | false =>
        have hle : handlersAcknowledged s ≤ 1 := by unfold handlersAcknowledged; split <;> omega
        rw [perform_ioHandler_of_free h]
        exact ackOk_of_running hr hsaved (show s.q.count .ioHandler = 0 by omega)
    · have hext := perform_extends hhandler hend s
      rw [List.count_cons_of_ne hhandler] at hcount
      rcases hext.run_q with ⟨hrun, ms, hms, hq⟩ | ⟨r, hrun, -⟩
      · refine ackOk_of_running (hrun.trans hr) (hext.savedQ.trans hsaved) ?_
        rw [hq, List.count_append, List.count_eq_zero_of_not_mem hms, hcount, handlersAcknowledged,
          handlersAcknowledged, hext.ioAck, Nat.add_zero]
      · exact ackOk_of_haltedFault hrun

theorem ackOk_dispatch {s : State} {m : Micro} {rest : List Micro} (h : AckOk s) (hr : s.run = .running)
    (hq : s.q = m :: rest) : AckOk (dispatch m (s.setQ rest)) := by
  obtain ⟨hsaved, hcount⟩ := h.2.1 hr
  rw [hq] at hcount
  exact ackOk_tick (ackOk_perform hr hsaved hcount)

theorem ackOk_step {s t : State} (h : AckOk s) (ht : step s = .next t) : AckOk t := by
  refine step_keeps (fun s m rest h hr hq => ackOk_dispatch h hr hq)
    (fun s mode op rest h hr hq => ackOk_tick ?_) h ht
  obtain ⟨hsaved, hcount⟩ := h.2.1 hr
  rw [hq, List.count_cons_of_ne (by decide)] at hcount
  refine ackOk_of_running hr hsaved ?_
  change (rest ++ bodyOf mode op).count .ioHandler = _
  rw [List.count_append, List.count_eq_zero_of_not_mem (ioHandler_not_mem_bodyOf mode op), hcount]
  rfl

theorem ackOk_resetIn (mode : MachineMode) (device : Device) : AckOk (State.resetIn mode device) := by
  simp [AckOk, State.resetIn]

/-! ## The host's actions by what they answer -/

/-- What each host action answers where it is admitted (70_reset_and_hazards.md R155). -/
inductive HostNext (s : State) : HostAct → State → Prop
  | load (image : List (List Char)) (bytes : List Byte) (hr : s.run = .idle) :
    HostNext s (.loadProgram image) (s.setMem (storeBytes s.mode s.mem 0#32 bytes))
  | start (hz : Nat) (hr : s.run = .idle) : HostNext s (.start hz) (({ s with hz := hz }.setQ [.fetch]).setRun .running)
  | pauseUnlimited (hr : s.run = .running) (hhz : s.hz = 0) :
    HostNext s .pause (((s.setSavedQ s.q).setQ []).setRun .paused)
  | pauseTimed (hr : s.run = .running) (hhz : s.hz ≠ 0) : HostNext s .pause (s.setRun .paused)
  | resumeUnlimited (hr : s.run = .paused) (hhz : s.hz = 0) :
    HostNext s .resume (((s.setQ s.savedQ).setSavedQ []).setRun .running)
  | resumeTimed (hr : s.run = .paused) (hhz : s.hz ≠ 0) : HostNext s .resume (s.setRun .running)
  | look (act : HostAct) (hact : act ≠ .reset) : HostNext s act s
  | outside (act : HostAct) (r : FaultReason) (hact : act ≠ .reset) : HostNext s act (s.raise r)
  | store (a : Int) (v : Byte) (ha : hostInRange s.mode a = true) :
    HostNext s (.memWrite a v) (s.setMem (Memory.write s.mem a.toNat v))
  | receive (v : Byte) : HostNext s (.receiveInput v) (s.receiveInput v)
  | reset : HostNext s .reset (State.resetIn s.mode s.device)

theorem hostNext_of_hostAct {act : HostAct} {s t : State} (h : hostAct act s = .next t) : HostNext s act t := by
  cases act with
  | loadProgram image =>
    simp only [hostAct, hostLoad] at h
    split at h
    case isFalse => cases h
    case isTrue hr =>
      split at h
      · cases h
      · split at h <;> cases h
        exact .load image _ hr
  | start hz =>
    simp only [hostAct, hostStart] at h
    split at h <;> cases h
    exact .start hz ‹_›
  | pause =>
    simp only [hostAct, hostPause] at h
    split at h
    case isFalse => cases h
    case isTrue hr =>
      split at h <;> cases h
      · exact .pauseUnlimited hr ‹_›
      · exact .pauseTimed hr ‹_›
  | resume =>
    simp only [hostAct, hostResume] at h
    split at h
    case isFalse => cases h
    case isTrue hr =>
      split at h <;> cases h
      · exact .resumeUnlimited hr ‹_›
      · exact .resumeTimed hr ‹_›
  | snapshot | readEvents =>
    cases h
    exact .look _ nofun
  | memRead a =>
    simp only [hostAct, hostRead] at h
    split at h <;> cases h
    · exact .look _ nofun
    · exact .outside _ _ nofun
  | memWrite a v =>
    simp only [hostAct, hostWrite] at h
    split at h <;> cases h
    · exact .store a v ‹_›
    · exact .outside _ _ nofun
  | receiveInput v =>
    cases h
    exact .receive v
  | reset =>
    cases h
    exact .reset

/-- Settles O45: a dispatch queues, grants or keeps the handler together with its acknowledgement, and a pause moves
both queues' roles without touching `io_ack`. -/
theorem acknowledgeMeansOneHandlerQueued : Obligations.AcknowledgeMeansOneHandlerQueued := by
  refine ⟨fun s t h ht => ?_, fun s t h ht => ackOk_step h ht, fun act s t h ht => ?_⟩
  · obtain ⟨hr, m, rest, hq, rfl⟩ := microStep_next ht
    exact ackOk_dispatch h hr hq
  · have ⟨hidle, hrunning, hunlimited, htimed⟩ := h
    cases hostNext_of_hostAct ht with
    | load | look | receive => exact h
    | outside => exact ackOk_of_haltedFault rfl
    | store => exact h
    | reset => exact ackOk_resetIn _ _
    | start hz hr =>
      obtain ⟨-, hsaved, hack⟩ := hidle (.inl hr)
      exact ackOk_of_running rfl hsaved (by simp [handlersAcknowledged, hack])
    | pauseUnlimited hr hhz =>
      obtain ⟨-, hcount⟩ := hrunning hr
      exact ⟨nofun, nofun, fun _ _ => ⟨rfl, hcount⟩, fun _ hne => absurd hhz hne⟩
    | pauseTimed hr hhz => exact ⟨nofun, nofun, fun _ heq => absurd heq hhz, fun _ _ => hrunning hr⟩
    | resumeUnlimited hr hhz => exact ackOk_of_running rfl rfl (hunlimited hr hhz).2
    | resumeTimed hr hhz =>
      obtain ⟨hsaved, hcount⟩ := htimed hr hhz
      exact ackOk_of_running rfl hsaved hcount

/-! ## The form of the machine record (R14, R20, R38) -/

theorem inv_resetIn (mode : MachineMode) (device : Device) : Inv (State.resetIn mode device) := by
  cases mode <;> simp [Inv, WidthsOk, State.resetIn, resetCir, cirOk, MachineMode.memSize, Memory.wf, Memory.inRange]

/-- Settles O42: memory, queues and registers are empty or 0, and CIR is the zero word of its mode. -/
theorem resetSatisfiesTheInvariants : Obligations.ResetSatisfiesTheInvariants :=
  ⟨fun mode device => ⟨inv_resetIn mode device, ackOk_resetIn mode device⟩, inv_resetIn _ _, ackOk_resetIn _ _⟩

theorem inv_setIoGrant {s : State} (h : Inv s) (b : Bool) : Inv (s.setIoGrant b) := by
  rcases s.setIoGrant_cases b with ⟨-, -, e⟩ | ⟨-, e⟩ <;> rw [e] <;> exact h

theorem inv_receiveInput {s : State} (h : Inv s) (v : Byte) : Inv (s.receiveInput v) := by
  have hstaged : Inv (s.setIoPending true) := h
  have hval : Inv ((s.setIoPending true).setIoVal v) := hstaged
  exact hval

theorem inv_aluBitwise {s : State} (h : Inv s) (r : Byte) : Inv (s.aluBitwise r) := by
  rw [State.aluBitwise_eq]
  exact h

theorem inv_writeCir {s : State} (h : Inv s) {c : Code} (hc : cirOk s.mode c = true) : Inv (s.writeCir c) :=
  ⟨h.1, hc, h.2.2⟩

/-- What a datapath micro-op writes to an A-bit component is cut to A bits, and a store is to an address of the
machine. -/
theorem inv_perform_of_isDatapath {m : Micro} (hm : m.isDatapath = true) {s : State} (h : Inv s) :
    Inv (perform m s) := by
  have ⟨⟨hpc, hmar, hmdr, habus⟩, hcir, hwf, hrange⟩ := h
  cases m with
  | marFrom src => cases src <;> exact ⟨⟨hpc, fitTo_lt _ _, hmdr, habus⟩, hcir, hwf, hrange⟩
  | abusFrom src => cases src <;> exact ⟨⟨hpc, hmar, hmdr, fitTo_lt _ _⟩, hcir, hwf, hrange⟩
  | load dst =>
    cases dst with
    | acc => exact h
    | mdr => exact ⟨⟨hpc, hmar, fitTo_lt _ _, habus⟩, hcir, hwf, hrange⟩
    | pc => exact ⟨⟨fitTo_lt _ _, hmar, hmdr, habus⟩, hcir, hwf, hrange⟩
  | rot reg =>
    cases reg with
    | mdr => exact ⟨⟨hpc, hmar, fitTo_lt _ _, habus⟩, hcir, hwf, hrange⟩
    | pc => exact ⟨⟨fitTo_lt _ _, hmar, hmdr, habus⟩, hcir, hwf, hrange⟩
  | inc reg =>
    cases reg with
    | pc => exact ⟨⟨fitTo_lt _ _, hmar, hmdr, habus⟩, hcir, hwf, hrange⟩
    | mar => exact ⟨⟨hpc, fitTo_lt _ _, hmdr, habus⟩, hcir, hwf, hrange⟩
  | loadOperand => exact ⟨⟨hpc, hmar, fitTo_lt _ _, habus⟩, hcir, hwf, hrange⟩
  | memOut => rcases s.memOut_cases with ⟨-, e⟩ | ⟨-, e⟩ <;> rw [perform, e] <;> exact h
  | memIn =>
    rcases s.memIn_cases with ⟨ha, e⟩ | ⟨-, e⟩ <;> rw [perform, e]
    · exact ⟨⟨hpc, hmar, hmdr, habus⟩, hcir, Memory.wf_write _ _ _ hwf, Memory.inRange_write _ _ _ _ ha hrange⟩
    · exact h
  | cirStd part =>
    cases hmode : s.mode with
    | standard =>
      rw [perform, State.cirStd_eq_put hmode]
      exact inv_writeCir h (by rw [hmode]; rfl)
    | expanded =>
      have hsame : s.cirStd part = s := by simp only [State.cirStd, hmode]
      rwa [perform, hsame]
  | cirExp k =>
    cases hmode : s.mode with
    | standard =>
      have hsame : s.cirExp k = s := by simp only [State.cirExp, hmode]
      rwa [perform, hsame]
    | expanded =>
      have hk := k.isLt
      have hput : s.cirExp k = s.writeCir (.exp ((cirBytes s.cir).take k ++ [s.mdr.setWidth 8])) := by
        simp only [State.cirExp, hmode]
      rw [perform, hput]
      refine inv_writeCir h ?_
      simp only [hmode, cirOk, List.length_append, List.length_take, List.length_singleton, decide_eq_true_eq]
      omega
  | dbusFrom src => cases src <;> exact h
  | busReq | busGrant | busRelease | readOn | readOff | writeOn | writeOff => exact h
  | _ => cases hm

theorem inv_endRun {s : State} (h : Inv s) : Inv s.endRun := by
  have hstopped : Inv (((s.setQ []).setSavedQ []).setIoAck false) := h
  have hlow : Inv ((((s.setQ []).setSavedQ []).setIoAck false).setClk false) := hstopped
  exact hlow

theorem inv_ioHandler {s : State} (h : Inv s) : Inv (perform .ioHandler s) := by
  cases hbusy : s.ctl.gnt || s.ctl.iognt with
  | true => rw [perform_ioHandler_of_busy hbusy]; exact h
  | false => rw [perform_ioHandler_of_free hbusy]; exact h

/-- Every micro-op keeps the machine record in form. -/
theorem inv_perform (m : Micro) {s : State} (h : Inv s) : Inv (perform m s) := by
  cases m with
  | fetchRest => rcases s.fetchRest_cases with ⟨-, e⟩ | ⟨-, e⟩ <;> rw [perform, e] <;> exact h
  | decode => rcases s.decodeOp_cases with ⟨cls, m, e⟩ | ⟨r, e⟩ <;> rw [perform, e] <;> exact h
  | branch f => rcases s.branchOp_cases f with ⟨-, e⟩ | ⟨-, e⟩ <;> rw [perform, e] <;> exact h
  | getVal latch => cases latch <;> exact h
  | aluAdd kind => rw [perform, State.aluAdd_eq]; exact h
  | aluTwos => simp only [perform, State.aluTwos, State.addFlags_eq]; exact h
  | aluAnd | aluOr | aluXor | aluNot => exact inv_aluBitwise h _
  | ioOpen | ioClose | ioRelease => exact inv_setIoGrant h _
  | ioPut => cases hm : s.mode <;> simp only [perform, State.ioPut, hm] <;> exact h
  | ioCallback =>
    have hemit : Inv (s.emit (.output s.iobus)) := h
    rcases s.ioCallback_cases with ⟨-, e⟩ | ⟨v, -, e⟩ <;> rw [perform, e]
    · exact hemit
    · exact inv_receiveInput hemit v
  | ioHandler => exact inv_ioHandler h
  | endRun => exact inv_endRun h
  | fetch | execute | inLoad => exact h
  | _ => exact inv_perform_of_isDatapath rfl h

theorem inv_tick {f : State → State} {s : State} (h : Inv (f (s.setClk true))) : Inv (tick f s) := by
  rcases tick_cases f s with e | ⟨-, -, e⟩ <;> rw [e] <;> exact h

theorem inv_dispatch {m : Micro} {s : State} (h : Inv s) (rest : List Micro) : Inv (dispatch m (s.setQ rest)) :=
  inv_tick (inv_perform m h)

/-- Settles O43: every dispatch keeps the record in form. -/
theorem everyStepKeepsTheRecordInForm : Obligations.EveryStepKeepsTheRecordInForm := fun _ _ h ht =>
  step_keeps (P := Inv) (fun _ _ rest h _ _ => inv_dispatch h rest) (fun _ _ _ _ h _ _ => inv_tick h) h ht

/-- Settles O44: of the host's actions only loading, the memory port and the reset write what the form speaks of. -/
theorem microStepsAndHostActionsKeepTheRecordInForm : Obligations.MicroStepsAndHostActionsKeepTheRecordInForm := by
  refine ⟨fun s t h ht => ?_, fun act s t h ht => ?_⟩
  · obtain ⟨-, m, rest, -, rfl⟩ := microStep_next ht
    exact inv_dispatch h rest
  · have ⟨hwidths, hcir, hwf, hrange⟩ := h
    cases hostNext_of_hostAct ht with
    | load image bytes =>
      exact ⟨hwidths, hcir, storeBytes_wf _ _ _ _ hwf, storeBytes_inRange _ _ _ _ hrange⟩
    | store a v ha =>
      have ha' : a.toNat < s.mode.memSize := by
        have := of_decide_eq_true ha
        omega
      exact ⟨hwidths, hcir, Memory.wf_write _ _ _ hwf, Memory.inRange_write _ _ _ _ ha' hrange⟩
    | receive v => exact inv_receiveInput h v
    | reset => exact inv_resetIn _ _
    | _ => exact h

/-! ## Halts (R154) -/

/-- Settles O53: of the host's actions that a halted machine admits, all but `Reset` keep the run state or take a
fault. -/
theorem onlyResetLeavesAHalt : Obligations.OnlyResetLeavesAHalt := by
  refine ⟨fun s => rfl, fun s hs => ⟨fun t => ⟨fun ht => ?_, fun ht => ?_⟩, fun act t hact ht => ?_⟩⟩
  · rw [(microStep_next ht).1] at hs
    cases hs
  · rw [(step_next ht).1] at hs
    cases hs
  · cases hostNext_of_hostAct ht with
    | load _ _ hr | start _ hr | pauseUnlimited hr | pauseTimed hr | resumeUnlimited hr | resumeTimed hr =>
      rw [hr] at hs
      cases hs
    | look | store | receive => exact hs
    | outside => rfl
    | reset => exact absurd rfl hact

end Sys2Proof.Machine

/-! The step of R73 and run control (40_control_unit.md R73, R104, R105), the catalogue of the datapath micro-ops
(R82 to R92), the I/O handler (45_io.md R133) and the host's memory port (20_memory.md R56). -/

namespace Sys2Proof.Machine

/-! ## The step of R73 -/

theorem State.afterMicro_eq_ite (s : State) : s.afterMicro = if s.run = .running then s.ioCheck else s := by
  rcases s.afterMicro_cases with ⟨hr, e⟩ | ⟨hr, e⟩
  · rw [e, if_pos hr]
  · rw [e, if_neg hr]

/-- A machine that is not Running has no step of R73. -/
theorem microStep_of_not_running {s : State} (hr : s.run ≠ .running) : microStep s = .fault (.notRunning s.run) := by
  unfold microStep
  split
  · exact absurd ‹_› hr
  · rfl

theorem step_of_not_running {s : State} (hr : s.run ≠ .running) : step s = .fault (.notRunning s.run) := by
  unfold step
  split
  · exact absurd ‹_› hr
  · rfl

theorem exec_of_not_running {s : State} (hr : s.run ≠ .running) (i : Instr) :
    exec i s = .fault (.notRunning s.run) := by
  rw [exec_eq_runInstr]
  unfold runInstr
  split
  · exact absurd ‹_› hr
  · rfl

/-- Settles O54: the step pops the head and is its dispatch. -/
theorem onlyARunningMachineHasAStep : Obligations.OnlyARunningMachineHasAStep := by
  refine ⟨fun s m rest hr hq => ⟨_, rfl, ?_⟩, fun s i hr =>
    ⟨microStep_of_not_running hr, step_of_not_running hr, exec_of_not_running hr i⟩⟩
  have hstep : microStep s = .next (dispatch m (s.setQ rest)) := by simp only [microStep, hr, hq]
  rw [← State.afterMicro_eq_ite]
  exact hstep

/-! ## Pause, Resume and the yield (R104, R105) -/

theorem hostResume_hostPause {s : State} (hr : s.run = .running) (hsaved : s.hz = 0 → s.savedQ = []) :
    ∃ p, hostPause s = .next p ∧ p.run = .paused ∧ (s.hz = 0 → p.q = [] ∧ p.savedQ = s.q) ∧ (s.hz ≠ 0 → p.q = s.q)
      ∧ hostResume p = .next s := by
  by_cases hhz : s.hz = 0
  · refine ⟨((s.setSavedQ s.q).setQ []).setRun .paused, by rw [hostPause, if_pos hr, if_pos hhz], rfl,
      fun _ => ⟨rfl, rfl⟩, fun hne => absurd hhz hne, ?_⟩
    rw [hostResume, if_pos (by rfl), if_pos (by exact hhz)]
    simp [State.setQ, State.setSavedQ, State.setRun, ← hr, ← hsaved hhz]
  · refine ⟨s.setRun .paused, by rw [hostPause, if_pos hr, if_neg hhz], rfl, fun heq => absurd heq hhz,
      fun _ => rfl, ?_⟩
    rw [hostResume, if_pos (by rfl), if_neg (by exact hhz)]
    simp [State.setRun, ← hr]

/-- Settles O55: Resume writes back what Pause moved. -/
theorem pauseThenResumeIsTheIdentity : Obligations.PauseThenResumeIsTheIdentity := by
  intro s hr hsaved
  obtain ⟨p, hpause, hpaused, hunlimited, htimed, hresume⟩ := hostResume_hostPause hr hsaved
  refine ⟨p, hpause, hpaused, hunlimited, htimed, ?_, hresume⟩
  rw [microStep_of_not_running (by rw [hpaused]; decide), hpaused]

/-- Steps of R73 keep the frequency and, with nothing saved, the saved queue. -/
theorem microRun_savedQ_hz (n : Nat) {s : State} (hsaved : s.savedQ = []) :
    (microRun n s).savedQ = [] ∧ (microRun n s).hz = s.hz := by
  rw [microRun_eq_runUntil]
  refine runUntil_induct (fun t => t.savedQ = [] ∧ t.hz = s.hz) _ (fun t m rest ht _ _ _ => ?_) n s ⟨hsaved, rfl⟩
  have h := dispatch_continues m (t.setQ rest)
  refine ⟨?_, h.hz.trans ht.2⟩
  rcases h.savedQ with e | ⟨-, e⟩
  · exact e.trans ht.1
  · exact e

/-- Settles O56: where the machine still runs, the yield is a Pause and its Resume. -/
theorem yieldChangesNothing : Obligations.YieldChangesNothing := by
  intro s hhz hsaved
  obtain ⟨hsaved', hhz'⟩ := microRun_savedQ_hz Config.yieldOps hsaved
  have hbatch : clockBatch s = microRun Config.yieldOps s := by
    by_cases hr : (microRun Config.yieldOps s).run = .running
    · obtain ⟨p, hpause, -, -, -, hresume⟩ := hostResume_hostPause hr fun _ => hsaved'
      simp only [clockBatch, hpause, hresume]
    · simp only [clockBatch, hostPause, if_neg hr]
  rw [hbatch]
  exact ⟨rfl, hsaved', hhz'.trans hhz⟩

/-! ## `IoHandler` (R133) -/

/-- Settles O49: it requeues itself behind a held grant and is granted else. -/
theorem ioHandlerGrantsOrRequeues : Obligations.IoHandlerGrantsOrRequeues := by
  refine fun s => ⟨fun hbusy => perform_ioHandler_of_busy (by simpa using hbusy), fun hgnt hiognt => ?_⟩
  rw [perform_ioHandler_of_free (by simp [hgnt, hiognt])]
  simp [granted]

/-! ## The catalogue (R82 to R92) -/

theorem fitTo_mod (mode : MachineMode) (v : Addr) : fitTo mode v = BitVec.ofNat 32 (v.toNat % mode.memSize) := by
  apply BitVec.eq_of_toNat_eq
  cases mode
  · simp only [fitTo, BitVec.toNat_setWidth, BitVec.toNat_ofNat, MachineMode.memSize]
  · simp only [fitTo, BitVec.toNat_ofNat, MachineMode.memSize]
    omega

/-- An increment is modulo the size of the memory (R89). -/
theorem fitTo_add (mode : MachineMode) (v : Addr) (c : Nat) :
    fitTo mode (v + BitVec.ofNat 32 c) = BitVec.ofNat 32 ((v.toNat + c) % mode.memSize) := by
  rw [fitTo_mod, BitVec.toNat_add, BitVec.toNat_ofNat, Nat.add_mod_mod]
  cases mode <;> simp only [MachineMode.memSize] <;> congr 1 <;> omega

theorem rotA_expanded (v : Addr) : rotA .expanded v = v <<< 8 ||| v >>> 24 := BitVec.rotateLeft_def

theorem rotA_standard (v : Addr) : rotA .standard v = v := rfl

theorem setWidth_byte_eq_append (b : Byte) : b.setWidth 32 = 0#24 ++ b := by
  have hb := b.isLt
  apply BitVec.eq_of_toNat_eq
  simp only [BitVec.toNat_setWidth, BitVec.toNat_append, BitVec.toNat_ofNat, Nat.zero_mod, Nat.zero_shiftLeft,
    Nat.zero_or]
  omega

theorem fitTo_zero_append (mode : MachineMode) (b : Byte) : fitTo mode (0#24 ++ b) = 0#24 ++ b := by
  rw [← setWidth_byte_eq_append, fitTo_byte]

theorem perform_loadOperand (s : State) :
    perform .loadOperand s = { s with mdr := fitTo s.mode (expOperand (cirBytes s.cir).tail) } := rfl

/-- Settles O8: each micro-op by its definition, an A-bit value being kept as it is. -/
theorem datapathMicroOpsFollowTheCatalogue : Obligations.DatapathMicroOpsFollowTheCatalogue := by
  rintro s ⟨hpc, hmar, hmdr, habus⟩
  have hkeep {v : Addr} (h : v.toNat < s.mode.memSize) : fitTo s.mode v = v := fitTo_of_lt s.mode v h
  refine ⟨⟨?_, ?_⟩, ⟨?_, ?_⟩, ⟨rfl, ?_, rfl, ?_⟩, ⟨rfl, ?_, ?_⟩, ⟨?_, ?_⟩, ?_, ?_, ?_, ?_, ?_⟩
  · simp [perform, State.marFrom, State.writeMar, hkeep hpc]
  · simp [perform, State.marFrom, State.writeMar, hkeep hmdr]
  · simp [perform, State.abusFrom, State.driveAbus, hkeep hmar]
  · simp [perform, State.abusFrom, State.driveAbus, hkeep hmdr]
  · simp [perform, State.dbusFrom, State.driveDbus, ← BitVec.setWidth_eq_extractLsb']
  · intro w hw
    simp [perform, State.dbusFrom, State.driveDbus, cirOpnd, cirWord, hw]
  · intro hm
    simp [perform, State.load, State.writeMdr, State.writePc, hm, loadTail, setWidth_byte_eq_append, fitTo_zero_append]
  · intro hm
    simp [perform, State.load, State.writeMdr, State.writePc, hm, loadTail]
  · intro hm
    rw [hm] at hkeep hmdr hpc
    simp only [perform, State.rot, State.writeMdr, State.writePc, hm, rotA_standard, hkeep hmdr, hkeep hpc]
    exact ⟨by rw [← hm], by rw [← hm]⟩
  · intro hm
    simp [perform, State.rot, State.writeMdr, State.writePc, hm, rotA_expanded]
  · rintro c rfl
    rw [← fitTo_add]
    cases hm : s.mode <;> simp [perform, State.inc, State.writePc, pcIncrement, hm]
  · simp [perform, State.inc, State.writeMar, ← fitTo_add]
  · intro w hm hw
    simp [perform, State.cirStd, hm, hw, State.writeCir, cirWord, ← BitVec.setWidth_eq_extractLsb']
  · intro bs hm hbs
    refine ⟨?_, fun k hk => ?_⟩
    · simp [perform, State.cirExp, hm, hbs, State.writeCir, cirBytes, ← BitVec.setWidth_eq_extractLsb']
    · simp [perform, State.cirExp, hm, hbs, State.writeCir, cirBytes, ← BitVec.setWidth_eq_extractLsb', ← hk]
  · intro b0
    refine ⟨fun h => ?_, fun b1 hm h => ?_, fun b1 b2 b3 b4 hm h => ?_⟩ <;> rw [perform_loadOperand, h]
    · cases s.mode <;> rfl
    · rw [hm, fitTo_expanded, ← setWidth_byte_eq_append]; rfl
    · rw [hm]; rfl

/-! ## The host's memory port (R56) -/

theorem hostReadValue_of_inRange {s : State} {a : Int} (h : 0 ≤ a ∧ a < s.mode.memSize) :
    hostReadValue s a = some (Memory.read s.mem a.toNat) := if_pos (decide_eq_true h)

/-- Settles O11: the laws of memory at the address of the host, and the fault outside. -/
theorem hostPortReadsWhatItWrites : Obligations.HostPortReadsWhatItWrites := by
  refine fun s a v hwf => ⟨fun ha => ?_, fun ha => ?_⟩
  · have hin : hostInRange s.mode a = true := decide_eq_true ha
    refine ⟨if_pos hin, s.setMem (Memory.write s.mem a.toNat v), if_pos hin, rfl, ?_, fun b hb => ?_, fun x => ?_⟩
    · rw [hostReadValue_of_inRange (s := s.setMem (Memory.write s.mem a.toNat v)) ha, State.setMem_mem,
        Memory.read_write _ _ _ _ hwf, if_pos rfl]
    · by_cases hb' : 0 ≤ b ∧ b < s.mode.memSize
      · rw [hostReadValue_of_inRange hb',
          hostReadValue_of_inRange (s := s.setMem (Memory.write s.mem a.toNat v)) hb', State.setMem_mem,
          Memory.read_write _ _ _ _ hwf, if_neg (by omega)]
      · have hout : hostInRange s.mode b = false := decide_eq_false hb'
        simp [hostReadValue, hout]
    · exact Memory.materialized_iff _ x (Memory.wf_write _ _ _ hwf)
  · have hout : ¬ hostInRange s.mode a = true := fun h => ha (of_decide_eq_true h)
    exact ⟨if_neg hout, if_neg hout, if_neg hout⟩

end Sys2Proof.Machine

/-! The loader (70_reset_and_hazards.md R152, R153): the bytes of an image's strings, where they are stored, and
what is refused. -/

namespace Sys2Proof.Machine

/-! ## Storing bytes at consecutive addresses (20_memory.md R47) -/

theorem toNat_fitTo_ofNat {mode : MachineMode} {a : Nat} (h : a < mode.memSize) :
    (fitTo mode (BitVec.ofNat 32 a)).toNat = a := by
  rw [fitTo_mod, BitVec.toNat_ofNat, BitVec.toNat_ofNat]
  cases mode <;> simp only [MachineMode.memSize] at h ⊢ <;> omega

/-- Bytes that fit lie one after the other, and the rest of the memory keeps its bytes. -/
theorem read_storeBytes {mode : MachineMode} (bs : List Byte) {m : Memory} (hwf : Memory.wf m) {a : Nat}
    (hfit : a + bs.length ≤ mode.memSize) (x : Nat) :
    Memory.read (storeBytes mode m (BitVec.ofNat 32 a) bs) x
      = if a ≤ x then bs[x - a]?.getD (Memory.read m x) else Memory.read m x := by
  induction bs generalizing m a with
  | nil => simp [storeBytes]
  | cons b bs ih =>
    rw [List.length_cons] at hfit
    rw [storeBytes, toNat_fitTo_ofNat (by omega), show (1#32) = BitVec.ofNat 32 1 from rfl, ← BitVec.ofNat_add,
      ih (Memory.wf_write _ _ _ hwf) (by omega), Memory.read_write _ _ _ _ hwf]
    rcases Nat.lt_trichotomy x a with hlt | heq | hgt
    · rw [if_neg (show ¬ a + 1 ≤ x by omega), if_neg (show ¬ a ≤ x by omega), if_neg (Nat.ne_of_lt hlt)]
    · subst heq
      simp
    · rw [if_pos (show a + 1 ≤ x by omega), if_pos (Nat.le_of_lt hgt), if_neg (Nat.ne_of_gt hgt),
        show x - a = x - (a + 1) + 1 by omega, List.getElem?_cons_succ]

theorem read_storeBytes_zero {mode : MachineMode} {bs : List Byte} {m : Memory} (hwf : Memory.wf m)
    (hfit : bs.length ≤ mode.memSize) (x : Nat) :
    Memory.read (storeBytes mode m 0#32 bs) x = bs[x]?.getD (Memory.read m x) := by
  simpa using read_storeBytes bs hwf (a := 0) (by omega) x

/-! ## What the loader answers -/

theorem hostLoad_of_imageBytes {s : State} {image : List (List Char)} {bytes : List Byte} (hr : s.run = .idle)
    (hb : imageBytes s.mode image = some bytes) :
    hostLoad image s = if bytes.length ≤ s.mode.memSize then .next (s.setMem (storeBytes s.mode s.mem 0#32 bytes))
      else .refused .badImage := by
  rw [hostLoad, if_pos hr, hb]

theorem hostLoad_of_imageBytes_none {s : State} {image : List (List Char)} (hr : s.run = .idle)
    (hb : imageBytes s.mode image = none) : hostLoad image s = .refused .badImage := by
  rw [hostLoad, if_pos hr, hb]

/-- An image that fits lies from address 0 on, and nothing else changes. -/
theorem hostLoad_places {s : State} {image : List (List Char)} {bytes : List Byte} (hr : s.run = .idle)
    (hwf : Memory.wf s.mem) (hb : imageBytes s.mode image = some bytes) (hfit : bytes.length ≤ s.mode.memSize) :
    ∃ t, hostLoad image s = .next t ∧ t = { s with mem := t.mem }
      ∧ ∀ x, Memory.read t.mem x = bytes[x]?.getD (Memory.read s.mem x) :=
  ⟨_, by rw [hostLoad_of_imageBytes hr hb, if_pos hfit], rfl, fun x => read_storeBytes_zero hwf hfit x⟩

/-! ## The bits of a string -/

theorem bitString_append (cs ds : List Char) (v : Nat) :
    bitString (cs ++ ds) v = (bitString cs v).bind (bitString ds) := by
  induction cs generalizing v with
  | nil => rfl
  | cons c cs ih =>
    simp only [List.cons_append, bitString]
    split
    · exact ih _
    · split
      · exact ih _
      · rfl

theorem bitString_eq_none {cs : List Char} {c : Char} (hc : c ∈ cs) (h0 : c ≠ '0') (h1 : c ≠ '1') (v : Nat) :
    bitString cs v = none := by
  obtain ⟨ds, es, rfl⟩ := List.append_of_mem hc
  rw [bitString_append]
  cases bitString ds v with
  | none => rfl
  | some w => simp [bitString, h0, h1]

theorem bitChars_length {n : Nat} (w : BitVec n) : (bitChars w).length = n := by simp [bitChars]

theorem bitChars_cons {n : Nat} (b : Bool) (w : BitVec n) :
    bitChars (w.cons b) = (if b then '1' else '0') :: bitChars w := by
  simp [bitChars, List.range_succ_eq_map]

/-- The string of a bit vector reads as its value, behind any bits (R152: most significant bit first). -/
theorem bitString_bitChars {n : Nat} (w : BitVec n) (v : Nat) :
    bitString (bitChars w) v = some (v * 2 ^ n + w.toNat) := by
  induction n generalizing v with
  | zero => simp [bitChars, bitString, BitVec.toNat_of_zero_length]
  | succ n ih =>
    obtain ⟨b, u, rfl⟩ : ∃ (b : Bool) (u : BitVec n), w = u.cons b := ⟨_, _, (BitVec.cons_msb_setWidth w).symm⟩
    have hstep : bitString (bitChars (u.cons b)) v = bitString (bitChars u) (2 * v + b.toNat) := by
      rw [bitChars_cons]
      cases b <;> rfl
    rw [hstep, ih, BitVec.toNat_cons', Nat.shiftLeft_eq]
    congr 1
    ring

/-! ## The bytes of a string -/

/-- The value of bytes behind a value, first byte most significant. -/
def bytesValue (v : Nat) (bs : List Byte) : Nat := bs.foldl (fun v b => v * 2 ^ 8 + b.toNat) v

theorem bytesValue_cons (v : Nat) (b : Byte) (bs : List Byte) :
    bytesValue v (b :: bs) = bytesValue (v * 2 ^ 8 + b.toNat) bs := rfl

theorem bitString_flatMap (bs : List Byte) (v : Nat) : bitString (bs.flatMap bitChars) v = some (bytesValue v bs) := by
  induction bs generalizing v with
  | nil => rfl
  | cons b bs ih => rw [List.flatMap_cons, bitString_append, bitString_bitChars, Option.bind_some, ih, bytesValue_cons]

theorem bytesValue_div (bs : List Byte) (v : Nat) : bytesValue v bs / 2 ^ (8 * bs.length) = v := by
  induction bs generalizing v with
  | nil => simp [bytesValue]
  | cons b bs ih =>
    have hb := b.isLt
    rw [List.length_cons, Nat.mul_succ, Nat.pow_add, ← Nat.div_div_eq_div_mul, bytesValue_cons, ih]
    omega

/-- Splitting the value of bytes gives the bytes. -/
theorem bigEndianBytes_bytesValue (bs : List Byte) (v : Nat) : bigEndianBytes bs.length (bytesValue v bs) = bs := by
  induction bs generalizing v with
  | nil => rfl
  | cons b bs ih =>
    have hfirst : BitVec.ofNat 8 (v * 2 ^ 8 + b.toNat) = b := by
      apply BitVec.eq_of_toNat_eq
      have hb := b.isLt
      rw [BitVec.toNat_ofNat]
      omega
    rw [List.length_cons, bigEndianBytes, bytesValue_cons, bytesValue_div, ih, hfirst]

theorem length_flatMap_bitChars (bs : List Byte) : (bs.flatMap bitChars).length = 8 * bs.length := by
  induction bs with
  | nil => rfl
  | cons b bs ih => rw [List.flatMap_cons, List.length_append, bitChars_length, ih, List.length_cons]; omega

theorem stringBytes_bitChars (w : BitVec 14) : stringBytes .standard (bitChars w) = some (stdBytes w) := by
  simp [stringBytes, bitString_bitChars, bitChars_length]

theorem stringBytes_flatMap {bs : List Byte} (h : bs.length = 1 ∨ bs.length = 2 ∨ bs.length = 5) :
    stringBytes .expanded (bs.flatMap bitChars) = some bs := by
  have hlen : 8 * bs.length = 8 ∨ 8 * bs.length = 16 ∨ 8 * bs.length = 40 := by omega
  simp only [stringBytes, bitString_flatMap, length_flatMap_bitChars, if_pos hlen,
    Nat.mul_div_cancel_left _ (show 0 < 8 by decide), bigEndianBytes_bytesValue]

/-- A string of another length or with another character has no bytes. -/
theorem stringBytes_eq_none {mode : MachineMode} {str : List Char}
    (h : ¬ stringLengthOk mode str.length ∨ ∃ c ∈ str, c ≠ '0' ∧ c ≠ '1') : stringBytes mode str = none := by
  rcases h with hlen | ⟨c, hc, h0, h1⟩
  · unfold stringBytes
    split
    · rfl
    · cases mode <;> exact if_neg hlen
  · rw [stringBytes, bitString_eq_none hc h0 h1]

/-! ## The bytes of an image -/

theorem imageBytes_map {α : Type} {mode : MachineMode} {f : α → List Char} {g : α → List Byte} {l : List α}
    (h : ∀ a ∈ l, stringBytes mode (f a) = some (g a)) : imageBytes mode (l.map f) = some (l.flatMap g) := by
  induction l with
  | nil => rfl
  | cons a l ih =>
    rw [List.map_cons, imageBytes, h a List.mem_cons_self, ih fun b hb => h b (List.mem_cons_of_mem _ hb),
      List.flatMap_cons]

theorem imageBytes_eq_none {mode : MachineMode} {image : List (List Char)} {str : List Char} (hmem : str ∈ image)
    (h : stringBytes mode str = none) : imageBytes mode image = none := by
  induction image with
  | nil => cases hmem
  | cons s image ih =>
    rw [imageBytes]
    rcases List.mem_cons.mp hmem with rfl | hmem
    · rw [h]
    · rw [ih hmem]
      cases stringBytes mode s <;> rfl

theorem length_flatMap_stdBytes (words : List (BitVec 14)) : (words.flatMap stdBytes).length = 2 * words.length := by
  induction words with
  | nil => rfl
  | cons w words ih => rw [List.flatMap_cons, List.length_append, ih, List.length_cons, stdBytes]; simp; omega

/-- The two bytes of word k of a Standard image (20_memory.md R44). -/
theorem getElem?_flatMap_stdBytes {words : List (BitVec 14)} {k : Nat} {w : BitVec 14} (h : words[k]? = some w) :
    (words.flatMap stdBytes)[2 * k]? = some (w.extractLsb' 6 8)
      ∧ (words.flatMap stdBytes)[2 * k + 1]? = some (0#2 ++ w.extractLsb' 0 6) := by
  induction words generalizing k with
  | nil => cases h
  | cons u words ih =>
    cases k with
    | zero =>
      cases h
      exact ⟨rfl, rfl⟩
    | succ k => exact ih h

/-- Settles O57: the bytes of the strings, stored from address 0 on where they fit. -/
theorem loaderPlacesTheImage : Obligations.LoaderPlacesTheImage := by
  refine ⟨fun s hr hwf => ⟨fun hm words => ?_, fun hm codes hcodes => ?_, fun image str hstr hbad => ?_⟩,
    fun image s hr => if_neg hr⟩
  · have hbytes : imageBytes s.mode (words.map bitChars) = some (words.flatMap stdBytes) := by
      rw [hm]
      exact imageBytes_map fun w _ => stringBytes_bitChars w
    have hsize : s.mode.memSize = 256 := by rw [hm]; rfl
    have hlen := length_flatMap_stdBytes words
    refine ⟨fun hle => ?_, fun hlt => ?_⟩
    · obtain ⟨t, ht, hframe, hread⟩ := hostLoad_places hr hwf hbytes (by omega)
      refine ⟨t, ht, hframe, fun k w hk => ?_, fun x hx => ?_⟩
      · obtain ⟨hfirst, hsecond⟩ := getElem?_flatMap_stdBytes hk
        rw [hread, hread, hfirst, hsecond]
        exact ⟨rfl, rfl⟩
      · rw [hread, List.getElem?_eq_none (by omega)]
        rfl
    · rw [hostLoad_of_imageBytes hr hbytes, if_neg (by omega)]
  · have hbytes : imageBytes s.mode (codes.map fun c => c.flatMap bitChars) = some codes.flatten := by
      rw [hm, ← List.flatMap_id]
      exact imageBytes_map fun c hc => stringBytes_flatMap (hcodes c hc)
    have hsize : s.mode.memSize = 4294967296 := by rw [hm]; rfl
    refine ⟨fun hle => ?_, fun hlt => ?_⟩
    · obtain ⟨t, ht, hframe, hread⟩ := hostLoad_places hr hwf hbytes (by omega)
      refine ⟨t, ht, hframe, fun k b hk => ?_, fun x hx => ?_⟩
      · rw [hread, hk]
        rfl
      · rw [hread, List.getElem?_eq_none hx]
        rfl
    · rw [hostLoad_of_imageBytes hr hbytes, if_neg (by omega)]
  · exact hostLoad_of_imageBytes_none hr (imageBytes_eq_none hstr (stringBytes_eq_none hbad))

/-! ## Load and Start (R153, 40_control_unit.md R103) -/

/-- Settles O58: the empty memory of initialisation shows the image and zeros, and `Start` queues `Fetch`. -/
theorem bootRunsTheImageFromAddressZero : Obligations.BootRunsTheImageFromAddressZero := by
  intro mode device image bytes hz hbytes hfit
  obtain ⟨t, ht, hframe, hread⟩ := hostLoad_places (s := State.resetIn mode device) rfl ⟨.nil, nofun⟩ hbytes hfit
  have hstart : hostStart hz t = .next (({ t with hz := hz }.setQ [.fetch]).setRun .running) :=
    if_pos (by rw [hframe]; rfl)
  refine ⟨t, _, ht, hstart, ⟨rfl, by rw [hframe]; rfl, rfl, by rw [hframe]; rfl⟩, by rw [hframe]; rfl, rfl,
    fun k hk => ?_, fun k hk => ?_⟩
  · change some (Memory.read t.mem k) = _
    rw [hread, List.getElem?_eq_getElem hk]
    rfl
  · change Memory.read t.mem k = _
    rw [hread, List.getElem?_eq_none hk]
    rfl

end Sys2Proof.Machine

/-! What instructions leave unchanged whatever the I/O arbiter is doing (10_state.md R22, 43_memory_access.md), the
byte a store hands to the next fetch (20_memory.md R54), and the I/O protocol and its hazard (45_io.md R139, R140). -/

namespace Sys2Proof.Machine

/-! ## What the arbiter leaves alone -/

/-- The arbiter writes IOBUS and its own components, and nothing else. -/
theorem arbitrated_frame (s : State) :
    arbitrated s =
      { s with
        iobus := (arbitrated s).iobus
        ioPending := (arbitrated s).ioPending
        ioAck := (arbitrated s).ioAck
        ctl := { s.ctl with ioreq := (arbitrated s).ctl.ioreq, iognt := (arbitrated s).ctl.iognt } } := by
  unfold arbitrated
  split
  · split <;> rfl
  · rfl

@[simp] theorem arbitrated_status (s : State) : (arbitrated s).status = s.status := by rw [arbitrated_frame]
@[simp] theorem arbitrated_mem (s : State) : (arbitrated s).mem = s.mem := by rw [arbitrated_frame]

/-! ## Flags (R22) -/

/-- The Execute phase of an opcode that is no ALU instruction's keeps STATUS. -/
theorem executeNet_status {op : Opcode} (hop : op ∉ ([.add, .sub, .and, .or, .xor, .not] : List Opcode)) (t : State) :
    (executeNet op t).status = t.status := by
  cases op with
  | add | sub | and | or | xor | not => exact absurd (by decide) hop
  | branchIfZero | branchIfNegative | branchIfOverflow | branchIfCarry =>
    simp only [executeNet, netBranch]
    split <;> rfl
  | output => exact outputEffect_status _ t
  | read | write | goto | input | endRun => rfl

/-- The Execute phase of a logic instruction keeps C and V (42_logic.md). -/
theorem executeNet_status_logic {op : Opcode} (hop : op ∈ ([.and, .or, .xor, .not] : List Opcode)) (t : State) :
    (executeNet op t).status.c = t.status.c ∧ (executeNet op t).status.v = t.status.v := by
  cases op with
  | and | or | xor | not => exact ⟨rfl, rfl⟩
  | _ => exact absurd hop (by decide)

theorem finish_status (op : Opcode) (t : State) : (finish op t).status = (executeNet op t).status := by
  by_cases hop : op = .endRun
  · rw [hop]; rfl
  · rw [finish_of_ne_endRun hop, State.setQ_status]

/-- Settles O46: neither the operand phase nor the arbiter writes a flag. -/
theorem onlyAluInstructionsChangeFlags : Obligations.OnlyAluInstructionsChangeFlags := by
  intro i s t h ht
  rw [exec_of_readyIo h] at ht
  cases Host.Outcome.next.inj ht
  have hstatus : (arbitrated (operandNet i s)).queueHandlers.status = s.status := by
    simp [State.queueHandlers]
  rw [finish_status]
  refine ⟨fun hop => by rw [executeNet_status hop, hstatus], fun hop => ?_⟩
  rw [← hstatus]
  exact executeNet_status_logic hop _

/-! ## Memory (43_memory_access.md) -/

theorem finish_mem (op : Opcode) (t : State) : (finish op t).mem = (executeNet op t).mem := by
  by_cases hop : op = .endRun
  · rw [hop]; rfl
  · rw [finish_of_ne_endRun hop, State.setQ_mem]

theorem executeNet_mem {op : Opcode} (hop : op ≠ .write) (t : State) : (executeNet op t).mem = t.mem := by
  cases op with
  | write => exact absurd rfl hop
  | branchIfZero | branchIfNegative | branchIfOverflow | branchIfCarry =>
    simp only [executeNet, netBranch]
    split <;> rfl
  | output => exact outputEffect_mem _ t
  | _ => rfl

/-- What memory reads after a `write`, by the address that its operand phase leaves in MDR. -/
theorem read_exec_write {i : Instr} {s t : State} (hop : i.opcode = .write) (h : ReadyIo i.machineMode s)
    (hwf : Memory.wf s.mem) (ht : exec i s = .next t) (x : Nat) :
    Memory.read t.mem x = if x = (operandNet i s).mdr.toNat then s.acc else Memory.read s.mem x := by
  rw [exec_of_readyIo h, hop] at ht
  cases Host.Outcome.next.inj ht
  have hmem : (arbitrated (operandNet i s)).queueHandlers.mem = s.mem := by simp [State.queueHandlers]
  have hmdr : (arbitrated (operandNet i s)).queueHandlers.mdr = (operandNet i s).mdr := by simp [State.queueHandlers]
  have hacc : (arbitrated (operandNet i s)).queueHandlers.acc = s.acc := by simp [State.queueHandlers]
  rw [finish_mem, ← hmdr, ← hacc, ← hmem]
  exact read_netWrite (hmem ▸ hwf) x

theorem operandNet_stdWrite_mdr (m : AddrMode) (n : Byte) (s : State) :
    (operandNet (.stdWrite m n) s).mdr = (stdValue m n s.mem).setWidth 32 :=
  operandStd_mdr (.stdWrite m n) m n s

theorem operandNet_expWrite_mdr (m : AddrMode) (a : Addr) (s : State) :
    (operandNet (.expWrite m a) s).mdr = expTarget m a s.mem := by
  rw [operandNet_expAddr (i := .expWrite m a) (m := m) rfl rfl rfl (address_bytes a), operandExpAddr_mdr]

/-- Settles O47: the store is at the address in MDR, which the arbiter leaves alone. -/
theorem onlyWriteChangesMemory : Obligations.OnlyWriteChangesMemory := by
  refine ⟨fun i s t h ht hop => ?_, fun m n s t h hwf ht x => ?_, fun m a s t h hwf ht x => ?_⟩
  · rw [exec_of_readyIo h] at ht
    cases Host.Outcome.next.inj ht
    rw [finish_mem, executeNet_mem hop]
    simp [State.queueHandlers]
  · rw [read_exec_write (i := .stdWrite m n) rfl h hwf ht, operandNet_stdWrite_mdr, toNat_setWidth_byte]
  · rw [read_exec_write (i := .expWrite m a) rfl h hwf ht, operandNet_expWrite_mdr]

/-! ## Self-modifying code (R54) -/

theorem toNat_fetchAddr (mode : MachineMode) (p : Addr) (k : Nat) :
    (fetchAddr mode p k).toNat = (p.toNat + k) % mode.memSize := by
  rw [fetchAddr, fitTo_add, BitVec.toNat_ofNat]
  cases mode <;> simp only [MachineMode.memSize] <;> omega

/-- The bytes of an instruction have different addresses. -/
theorem fetchAddr_inj {mode : MachineMode} {p : Addr} {j k : Nat} (hj : j ≤ 4) (hk : k ≤ 4)
    (h : (fetchAddr mode p j).toNat = (fetchAddr mode p k).toNat) : j = k := by
  rw [toNat_fetchAddr, toNat_fetchAddr] at h
  cases mode <;> simp only [MachineMode.memSize] at h <;> omega

/-- A `write` with no request waiting ends at an instruction boundary at the same PC, where memory reads ACC at the
address that the operand phase left in MDR. -/
theorem exec_write_of_ready {i : Instr} {s : State} (hop : i.opcode = .write) (h : Ready i.machineMode s)
    (hwf : Memory.wf s.mem) :
    ∃ t, exec i s = .next t ∧ AtFetch i.machineMode t ∧ t.pc = s.pc
      ∧ ∀ x, Memory.read t.mem x = if x = (operandNet i s).mdr.toNat then s.acc else Memory.read s.mem x := by
  have hexec := exec_of_ready h
  rw [hop] at hexec
  obtain ⟨hr, hm, -, hreq⟩ := h
  refine ⟨_, hexec, ⟨?_, ?_, rfl, ?_⟩, ?_, fun x => ?_⟩
  · exact (operandNet_run i s).trans hr
  · exact (operandNet_mode i s).trans hm
  · exact (operandNet_ioreq i s).trans hreq
  · change (operandNet i s).pc = s.pc
    rw [operandNet_frame]
  · rw [← operandNet_acc i s, ← operandNet_mem i s]
    exact read_netWrite (by rwa [operandNet_mem]) x

/-- Byte k of the instruction at PC. -/
def byteAt (s : State) (k : Nat) : Byte := Memory.read s.mem (fetchAddr s.mode s.pc k).toNat

theorem wordAt_eq (s : State) : wordAt s = stdWord (byteAt s 0) (byteAt s 1) := rfl

theorem bytesAt_eq (s : State) (n : Nat) : bytesAt s n = (List.range n).map (byteAt s) := rfl

/-- A `write` with no request waiting that stores to byte k of the next instruction: the next fetch begins, and it
finds the written byte there and the old bytes at the other addresses. -/
theorem exec_write_to_next {i : Instr} {s : State} (hop : i.opcode = .write) (h : Ready i.machineMode s)
    (hwf : Memory.wf s.mem) :
    ∃ t, exec i s = .next t ∧ AtFetch i.machineMode t
      ∧ ∀ k, k ≤ 4 → (operandNet i s).mdr = fetchAddr i.machineMode s.pc k →
        ∀ j, j ≤ 4 → byteAt t j = if j = k then s.acc else byteAt s j := by
  obtain ⟨t, ht, hfetch, hpc, hread⟩ := exec_write_of_ready hop h hwf
  refine ⟨t, ht, hfetch, fun k hk htarget j hj => ?_⟩
  rw [byteAt, byteAt, hread, htarget, hpc, hfetch.2.1, h.2.1]
  by_cases hjk : j = k
  · rw [if_pos (by rw [hjk]), if_pos hjk]
  · rw [if_neg fun h => hjk (fetchAddr_inj hj hk h), if_neg hjk]

theorem cir_fetchPhase_standard {t : State} (h : AtFetch .standard t) :
    (fetchPhase t).cir = .std (stdWord (byteAt t 0) (byteAt t 1)) := by
  rw [fetchPhase_of_atFetch h nofun, State.setQ_cir, fetched_cir, codeAt, h.2.1, wordAt_eq]

/-- The length field of the first byte decides how many bytes are fetched (R95). -/
theorem cir_fetchPhase_expanded {t : State} (h : AtFetch .expanded t) {n : BitVec 3}
    (hn : (byteAt t 0).extractLsb' 0 3 = n) :
    (fetchPhase t).cir = .exp (if legalLength n then (List.range (n.toNat + 1)).map (byteAt t) else [byteAt t 0]) := by
  have hlen : lengthAt t = n := hn
  by_cases hlegal : legalLength n = true
  · rw [fetchPhase_of_atFetch h fun _ => hlen ▸ hlegal, State.setQ_cir, fetched_cir, if_pos hlegal, ← bytesAt_eq,
      ← hlen, codeAt, h.2.1]
  · rw [fetchPhase_of_atFetch_of_not_legalLength h (by rw [hlen]; simpa using hlegal), if_neg hlegal]
    rfl

/-- Settles O12: the bytes that the next fetch reads are those of the memory that the store leaves. -/
theorem writeIsSeenByTheNextFetch : Obligations.WriteIsSeenByTheNextFetch := by
  refine ⟨fun m n s h hwidths hwf => ?_, fun m a s h hwf => ?_⟩
  · obtain ⟨t, ht, hfetch, hbyte⟩ := exec_write_to_next (i := .stdWrite m n) rfl h hwf
    rw [operandNet_stdWrite_mdr] at hbyte
    have hfirst : fetchAddr .standard s.pc 0 = s.pc := by
      rw [fetchAddr, BitVec.add_zero]
      exact fitTo_of_lt _ _ (h.2.1 ▸ hwidths.1)
    have hold0 : byteAt s 0 = Memory.read s.mem s.pc.toNat := by rw [byteAt, h.2.1, hfirst]
    have hold1 : byteAt s 1 = Memory.read s.mem (fetchAddr .standard s.pc 1).toNat := by rw [byteAt, h.2.1]
    refine ⟨t, ht, fun heq => ?_, fun heq => ?_⟩
    · have hnew := hbyte 0 (by decide) (heq.trans hfirst.symm)
      rw [cir_fetchPhase_standard hfetch, hnew 0 (by decide), hnew 1 (by decide), hold1]
      rfl
    · have hnew := hbyte 1 (by decide) heq
      rw [cir_fetchPhase_standard hfetch, hnew 0 (by decide), hnew 1 (by decide), hold0]
      rfl
  · obtain ⟨t, ht, hfetch, hbyte⟩ := exec_write_to_next (i := .expWrite m a) rfl h hwf
    rw [operandNet_expWrite_mdr] at hbyte
    refine ⟨t, ht, fun k hk htarget => ?_⟩
    have hnew (j : Nat) (hj : j ≤ 4) :
        byteAt t j = if j = k then s.acc else Memory.read s.mem (fetchAddr .expanded s.pc j).toNat := by
      rw [hbyte k hk htarget j hj, byteAt, h.2.1]
    intro b n
    have hfirst : byteAt t 0 = b 0 := hnew 0 (by decide)
    rw [cir_fetchPhase_expanded hfetch (n := n) (by rw [hfirst]), hfirst]
    by_cases hlegal : legalLength n = true
    · have hlt : n.toNat ≤ 4 := by rcases (legalLength_iff n).mp hlegal with e | e | e <;> rw [e] <;> decide
      have hbytes : (List.range (n.toNat + 1)).map (byteAt t) = (List.range (n.toNat + 1)).map b :=
        List.map_congr_left fun j hj => hnew j (by have := List.mem_range.mp hj; omega)
      rw [hbytes]
    · rw [if_neg hlegal, if_neg hlegal]

/-! ## The I/O protocol and its hazard (45_io.md R139, R140) -/

@[simp] theorem granted_mode (s : State) : (granted s).mode = s.mode := rfl
@[simp] theorem granted_run (s : State) : (granted s).run = s.run := rfl
@[simp] theorem granted_ioAck (s : State) : (granted s).ioAck = false := rfl
@[simp] theorem granted_ioreq (s : State) : (granted s).ctl.ioreq = false := rfl

@[simp] theorem fetched_mem (s : State) : (fetched s).mem = s.mem := by
  cases hm : s.mode <;> simp [fetched, fetchedTo, hm]
@[simp] theorem fetched_ioAck (s : State) : (fetched s).ioAck = s.ioAck := by
  cases hm : s.mode <;> simp [fetched, fetchedTo, hm]

theorem handlerBehind_eq_setQ (t : State) : handlerBehind t = t.setQ (t.q ++ t.handlers) := rfl

theorem handlerBehind_of_not_ioAck {t : State} (h : t.ioAck = false) : handlerBehind t = t := by
  have hnone : t.handlers = [] := by simp [State.handlers, h]
  rw [handlerBehind_eq_setQ, hnone, List.append_nil]
  rfl

/-- The fetch from a boundary whose handler finds both grants free begins with the grant. -/
theorem fetchedIo_of_granted {s : State} (hack : s.ioAck = true) (hgnt : s.ctl.gnt = false)
    (hiognt : s.ctl.iognt = false) :
    fetchedIo s = fetched (granted s) := by
  have harb : arbitratedInFetch s = granted s := by simp [arbitratedInFetch, hack, hgnt, hiognt]
  rw [fetchedIo, harb, handlerBehind_of_not_ioAck (by simp)]

/-- From such a boundary the instruction runs with no request waiting, the pending byte on IOBUS. -/
theorem step_of_granted {mode : MachineMode} {s : State} {i : Instr} (h : AtFetchIo mode s) (hack : s.ioAck = true)
    (hgnt : s.ctl.gnt = false) (hiognt : s.ctl.iognt = false) (hi : instrAt s = some i) :
    step s = .next (executeNet i.opcode (operandNet i (fetched (granted s)))) := by
  have hm : (fetched (granted s)).mode = i.machineMode := by
    rw [fetched_mode, granted_mode, (code_of_instrAt hi).1]
  rw [step_of_atFetchIo h hi, fetchedIo_of_granted hack hgnt hiognt]
  exact exec_of_ready ⟨by simpa using h.1, hm, fetched_q _, by simp⟩

/-- Settles O50: the handler behind `Fetch` grants, so IOBUS holds the staged byte when the Body loads it. -/
theorem inputReadsTheStagedByte : Obligations.InputReadsTheStagedByte := by
  intro mode i s hr hm hq hack hpending hgnt hiognt hi hop
  refine ⟨_, step_of_granted ⟨hr, hm, by rw [hq, hack]; rfl⟩ hack hgnt hiognt hi, ?_⟩
  rw [hop]
  simp [executeNet, netInput, granted, hpending]

/-- `IoOpen` where a request waits that is not acknowledged yet: the check after it acknowledges the request, as if
that had been done before. -/
theorem dispatch_ioOpen_of_request {s : State} (hr : s.run = .running) (hreq : s.ctl.ioreq = true)
    (hack : s.ioAck = false) (rest : List Micro) :
    dispatch .ioOpen (s.setQ rest)
      = dispatch .ioOpen (((s.setClk false).setIoAck true).setQ (rest ++ [.ioHandler])) := by
  have hrun (u : State) (hu : u.run = .running) : (perform .ioOpen (u.setClk true)).run = .running :=
    (Micro.transparent_of_isPlain (m := .ioOpen) rfl (by simp [Micro.AccessOk])).run_eq.trans hu
  have hacked : (((s.setClk false).setIoAck true).setQ (rest ++ [.ioHandler])).run = .running := hr
  rw [dispatch, dispatch, tick_running (hrun (s.setQ rest) hr), tick_running (hrun _ hacked)]
  cases hp : s.ioPending <;>
    simp [perform, State.setIoGrant, State.ioCheck, State.setIognt, State.driveIobus, State.setIoPending, State.setClk,
      State.setQ, State.setIoAck, State.append, hp, hreq, hack]

/-- An `output` that the device does not answer, from a Body state whose request is acknowledged: it ends at a
boundary with the handler still queued, nothing pending and both grants free (R139). -/
theorem output_swallows {a : State} (hr : a.run = .running) (hack : a.ioAck = true) (hgnt : a.ctl.gnt = false)
    (hreply : deviceReply a.device (outputsOf (a.events ++ [.output (outputByte a)])) = none) :
    AtFetchIo a.mode (finish .output a.queueHandlers) ∧ (finish .output a.queueHandlers).ioAck = true
      ∧ (finish .output a.queueHandlers).ioPending = false ∧ (finish .output a.queueHandlers).ctl.iognt = false
      ∧ (finish .output a.queueHandlers).ctl.gnt = false ∧ (finish .output a.queueHandlers).iobus = outputByte a
      ∧ (finish .output a.queueHandlers).events = a.events ++ [.output (outputByte a)] := by
  refine ⟨atFetchIo_finish (by decide) hr, ?_⟩
  rw [finish_output_queueHandlers]
  simp [handlerBehind, outputEffect, hreply, hack, hgnt]

/-- A request that waits for a held I/O grant when an `output` begins. -/
theorem exec_output_of_held_grant {i : Instr} {s t : State} (hop : i.opcode = .output) (h : ReadyIo i.machineMode s)
    (hreq : s.ctl.ioreq = true) (hiognt : s.ctl.iognt = true) (hgnt : s.ctl.gnt = false) (ht : exec i s = .next t)
    (hreply : deviceReply t.device (outputsOf t.events) = none) :
    AtFetchIo i.machineMode t ∧ t.ioAck = true ∧ t.ioPending = false ∧ t.ctl.iognt = false ∧ t.ctl.gnt = false
      ∧ t.events = s.events ++ [.output t.iobus] := by
  have hheld : arbitrated (operandNet i s) = (operandNet i s).setIoAck true := by
    simp [arbitrated, hreq, hiognt, State.setIoAck]
  have hexec := exec_of_readyIo h
  rw [hop, hheld] at hexec
  cases Host.Outcome.next.inj (hexec.symm.trans ht)
  have hdevice : deviceReply s.device (outputsOf (s.events ++ [.output (outputByte ((operandNet i s).setIoAck true))]))
      = none := by
    rw [finish_output_queueHandlers] at hreply
    simpa [handlerBehind] using hreply
  obtain ⟨hfetch, hack, hpending, hio, hg, hbus, hevents⟩ := output_swallows (a := (operandNet i s).setIoAck true)
    (by simpa using h.1) rfl (operandNet_gnt i hgnt) (by simpa using hdevice)
  rw [State.setIoAck_mode, operandNet_mode, h.2.1] at hfetch
  refine ⟨hfetch, hack, hpending, hio, hg, ?_⟩
  rw [hbus, hevents, State.setIoAck_events, operandNet_events]

/-- The four steps of an `output` Body where a request waits that is not acknowledged yet: the check after `IoOpen`
acknowledges it. -/
theorem microRun_outputBody_of_request {s : State} (hr : s.run = .running) (hq : s.q = outputBody)
    (hreq : s.ctl.ioreq = true) (hack : s.ioAck = false) :
    microRun 4 s = finish .output ((s.setClk false).setIoAck true).queueHandlers := by
  have hopen : dispatch .ioOpen (s.setQ [.ioPut, .ioCallback, .ioClose, .fetch])
      = dispatch .ioOpen (((s.setClk false).setIoAck true).setQ
          [.ioPut, .ioCallback, .ioClose, .fetch, .ioHandler]) := dispatch_ioOpen_of_request hr hreq hack _
  have hsettled : (((s.setClk false).setIoAck true).queueHandlers).Settled := ⟨hr, by simp [State.queueHandlers], rfl⟩
  have hfour := (leads_outputBody hsettled (.inr ⟨rfl, rfl⟩)).microRun_eq
  have hstart := microRun_cons (s := ((s.setClk false).setIoAck true).setQ (outputBody ++ [.ioHandler])) (m := .ioOpen)
    hr rfl 3
  rw [microRun_cons hr hq, hopen, ← hfour]
  exact hstart.symm

/-- Settles O51: in the first two clauses the Body acknowledges the request and clears its byte; in the third the
handler that is left finds nothing pending, so IOBUS keeps its byte. -/
theorem outputSwallowsAStagedInput : Obligations.OutputSwallowsAStagedInput := by
  refine ⟨fun i s t hop h hreq _ hiognt hgnt ht hreply => exec_output_of_held_grant hop h hreq hiognt hgnt ht hreply,
    ?_, fun mode i s h hack hpending hgnt hiognt hi hop => ?_⟩
  · intro s v hr hq hack hgnt src hreply
    have hsrc : outputByte (((s.receiveInput v).setClk false).setIoAck true) = src := by
      cases hm : s.mode <;> simp [outputByte, src, hm, ← BitVec.setWidth_eq_extractLsb']
    have h := output_swallows (a := ((s.receiveInput v).setClk false).setIoAck true) (by simpa using hr) (by simp)
      (by simpa using hgnt) (by rw [hsrc]; simpa using hreply)
    rw [hsrc, State.setIoAck_mode, State.setClk_mode, State.receiveInput_mode, State.setIoAck_events,
      State.setClk_events, State.receiveInput_events] at h
    rw [microRun_outputBody_of_request (by simpa using hr) (by simpa using hq) (by simp) (by simpa using hack)]
    exact h
  · refine ⟨_, step_of_granted h hack hgnt hiognt hi, ?_⟩
    rw [hop]
    simp [executeNet, netInput, granted, hpending]

end Sys2Proof.Machine

/-! An I/O request never disturbs an instruction (40_control_unit.md R107): every phase of the instruction cycle
goes through `withoutIo`, the part of the state that no `IoHandler` reaches. -/

namespace Sys2Proof.Machine

/-! ## The part of the state that no handler reaches -/

theorem withoutIo_withoutIo (s : State) : withoutIo (withoutIo s) = withoutIo s := by
  simp [withoutIo]

/-- Handlers in the queue do not show. -/
theorem withoutIo_setQ_handlers (s t : State) : withoutIo (s.setQ t.handlers) = withoutIo (s.setQ []) := by
  cases h : t.ioAck <;> simp [withoutIo, State.handlers, State.setQ, h]

theorem withoutIo_handlerBehind (s : State) : withoutIo (handlerBehind s) = withoutIo s := by
  cases h : s.ioAck <;> simp [withoutIo, handlerBehind, h]

theorem withoutIo_arbitrated (s : State) : withoutIo (arbitrated s) = withoutIo s := by
  rw [arbitrated_frame]
  rfl

theorem withoutIo_arbitratedInFetch (s : State) : withoutIo (arbitratedInFetch s) = withoutIo s := by
  rw [arbitratedInFetch_eq]
  rfl

theorem withoutIo_operandNet (i : Instr) (s : State) : withoutIo (operandNet i s) = operandNet i (withoutIo s) :=
  (operandNet_comm (f := withoutIo) i (fun _ => rfl) (fun m _ _ => by cases m <;> rfl) (fun _ _ => rfl)
    (fun _ _ => rfl) (fun m _ _ => by cases m <;> rfl) s).symm

theorem withoutIo_raise (s : State) (r : FaultReason) : withoutIo (s.raise r) = (withoutIo s).raise r := rfl

/-! ## The Execute phase -/

theorem withoutIo_outputEffect (b : Byte) (s : State) :
    withoutIo (outputEffect b s) = withoutIo { s with events := s.events ++ [.output b], q := [.fetch] } := by
  rw [outputEffect_frame]
  rfl

theorem withoutIo_netOutput (b : Byte) (s : State) :
    withoutIo (netOutput b s) = withoutIo { s with events := s.events ++ [.output b], q := [.fetch] } := by
  rw [← withoutIo_outputEffect, netOutput]
  split <;> simp [withoutIo]

theorem withoutIo_netBranch (b : Bool) (t : State) :
    withoutIo (netBranch b t) = withoutIo (netBranch b (withoutIo t)) := by
  cases b <;> rfl

/-- An Execute phase but that of `input` does not read what the handler writes. -/
theorem withoutIo_executeNet {op : Opcode} (hop : op ≠ .input) (t : State) :
    withoutIo (executeNet op t) = withoutIo (executeNet op (withoutIo t)) := by
  cases op with
  | input => exact absurd rfl hop
  | output =>
    simp only [executeNet, withoutIo_netOutput]
    rfl
  | branchIfZero | branchIfNegative | branchIfOverflow | branchIfCarry => exact withoutIo_netBranch _ t
  | _ => rfl

theorem withoutIo_finish (op : Opcode) {t : State} (hq : ∀ m ∈ t.q, m = .ioHandler) :
    withoutIo (finish op t) = withoutIo (executeNet op t) := by
  by_cases hop : op = .endRun
  · rw [hop]; rfl
  · have hnone : t.q.filter (· ≠ .ioHandler) = [] := by simpa using hq
    rw [finish_of_ne_endRun hop]
    simp only [withoutIo, State.setQ, List.filter_append, hnone, List.append_nil]

/-! ## An instruction with and without the request -/

/-- The state without the request is one in which no request waits. -/
theorem ready_withoutIo {mode : MachineMode} {s : State} (h : ReadyIo mode s) : Ready mode (withoutIo s) := by
  obtain ⟨hr, hm, hq⟩ := h
  refine ⟨hr, hm, ?_, rfl⟩
  rw [OnlyHandler] at hq
  cases hack : s.ioAck <;> simp [withoutIo, hq, hack]

/-- Where the Body begins, the arbiter and its handlers are all that the request has changed. -/
theorem withoutIo_arbitrated_operandNet {i : Instr} {s : State} (h : ReadyIo i.machineMode s) :
    withoutIo (arbitrated (operandNet i s)).queueHandlers = operandNet i (withoutIo s) := by
  have hq : (withoutIo s).q = [] := (ready_withoutIo h).2.2.1
  have hset : withoutIo ((arbitrated (operandNet i s)).setQ [])
      = (withoutIo (arbitrated (operandNet i s))).setQ [] := rfl
  rw [State.queueHandlers, withoutIo_setQ_handlers, hset, withoutIo_arbitrated, withoutIo_operandNet, ← operandNet_setQ]
  rw [← hq]
  rfl

theorem queueHandlers_q {t : State} : ∀ m ∈ t.queueHandlers.q, m = .ioHandler := by
  intro m hm
  simp only [State.queueHandlers, State.setQ_q, State.handlers] at hm
  split at hm <;> simp_all

/-- An instruction but `input` ends as without the request, up to what the handler writes. -/
theorem exec_withoutIo {i : Instr} {s t : State} (hop : i.opcode ≠ .input) (h : ReadyIo i.machineMode s)
    (ht : exec i s = .next t) : ∃ u, exec i (withoutIo s) = .next u ∧ withoutIo t = withoutIo u := by
  rw [exec_of_readyIo h] at ht
  cases Host.Outcome.next.inj ht
  refine ⟨_, exec_of_ready (ready_withoutIo h), ?_⟩
  rw [withoutIo_finish _ queueHandlers_q, withoutIo_executeNet hop, withoutIo_arbitrated_operandNet h]

/-- ACC set to a fixed value: what an `input` may end with. -/
def State.clearAcc (s : State) : State := { s with acc := 0#8 }

theorem withoutIo_clearAcc (s : State) : withoutIo s.clearAcc = (withoutIo s).clearAcc := rfl

/-- An `input` ends as without the request, up to that and ACC. -/
theorem exec_input_withoutIo {i : Instr} {s t : State} (hop : i.opcode = .input) (h : ReadyIo i.machineMode s)
    (ht : exec i s = .next t) :
    ∃ u, exec i (withoutIo s) = .next u ∧ withoutIo t.clearAcc = withoutIo u.clearAcc := by
  have hnet (a : State) : withoutIo (netInput a).clearAcc = withoutIo (netInput (withoutIo a)).clearAcc := rfl
  rw [exec_of_readyIo h, hop] at ht
  cases Host.Outcome.next.inj ht
  refine ⟨_, exec_of_ready (ready_withoutIo h), ?_⟩
  rw [withoutIo_clearAcc, withoutIo_finish _ queueHandlers_q, ← withoutIo_clearAcc, hop]
  simp only [executeNet]
  rw [hnet, withoutIo_arbitrated_operandNet h]

/-! ## The fetch with and without the request -/

theorem atFetchIo_withoutIo {mode : MachineMode} {s : State} (h : AtFetchIo mode s) : AtFetch mode (withoutIo s) := by
  obtain ⟨hr, hm, hq⟩ := h
  refine ⟨hr, hm, ?_, rfl⟩
  cases hack : s.ioAck <;> simp [withoutIo, hq, hack]

theorem withoutIo_fetched (s : State) : withoutIo (fetched s) = fetched (withoutIo s) := by
  have hmode : (withoutIo s).mode = s.mode := rfl
  cases hm : s.mode <;> simp only [fetched, hmode, hm] <;> rfl

theorem withoutIo_fetchedIo (s : State) : withoutIo (fetchedIo s) = fetched (withoutIo s) := by
  rw [fetchedIo, withoutIo_handlerBehind, withoutIo_fetched, withoutIo_arbitratedInFetch]

theorem withoutIo_firstByteRead (s : State) :
    withoutIo (firstByteRead s) = withoutIo (firstByteRead (withoutIo s)) := by
  have hbytes (u : State) : withoutIo (bytesRead 0 (u.setClk false)) = bytesRead 0 ((withoutIo u).setClk false) := rfl
  rw [firstByteRead, firstByteRead, hbytes, hbytes, withoutIo_arbitratedInFetch, withoutIo_arbitratedInFetch,
    withoutIo_withoutIo]

theorem withoutIo_faultState (s : State) : withoutIo (faultState s) = withoutIo (faultState (withoutIo s)) := by
  have hmode : (withoutIo s).mode = s.mode := rfl
  have hlen : lengthAt (withoutIo s) = lengthAt s := rfl
  have hfetched : withoutIo (fetchedIo s) = withoutIo (fetchedIo (withoutIo s)) := by
    rw [withoutIo_fetchedIo, withoutIo_fetchedIo, withoutIo_withoutIo]
  unfold faultState
  rw [hmode, hlen]
  split
  · exact hfetched
  · split
    · exact hfetched
    · exact withoutIo_firstByteRead s

/-- Settles O41: every phase of the instruction cycle goes through `withoutIo`. -/
theorem handlerNeverDisturbsAnInstruction : Obligations.HandlerNeverDisturbsAnInstruction := by
  refine ⟨fun i s t hop h ht => exec_withoutIo hop h ht, fun mode s t h ht => ?_⟩
  have hquiet := atFetchIo_withoutIo h
  have hclear {t u : State} (h : withoutIo t = withoutIo u) : withoutIo t.clearAcc = withoutIo u.clearAcc :=
    congrArg State.clearAcc h
  cases hi : instrAt s with
  | none =>
    have hquietIo : AtFetchIo mode (withoutIo s) := ⟨hquiet.1, hquiet.2.1, hquiet.2.2.1⟩
    obtain ⟨-, hstep, -⟩ := step_of_instrAt_none h hi
    obtain ⟨-, hstep', -⟩ := step_of_instrAt_none hquietIo hi
    cases Host.Outcome.next.inj (hstep.symm.trans ht)
    have hsame : withoutIo ((faultState s).raise (.decode (faultAt s)))
        = withoutIo ((faultState (withoutIo s)).raise (.decode (faultAt (withoutIo s)))) := by
      rw [withoutIo_raise, withoutIo_raise, withoutIo_faultState]
      rfl
    exact ⟨_, hstep', fun _ => hsame, hclear hsame⟩
  | some i =>
    have hready : ReadyIo i.machineMode (fetchedIo s) := by
      rw [(code_of_instrAt hi).1, h.2.1]
      exact readyIo_fetchedIo h
    have hstep : step (withoutIo s) = exec i (withoutIo (fetchedIo s)) := by
      rw [withoutIo_fetchedIo]
      exact step_of_atFetch hquiet hi
    rw [step_of_atFetchIo h hi] at ht
    by_cases hop : i.opcode = .input
    · obtain ⟨u, hu, hsame⟩ := exec_input_withoutIo hop hready ht
      exact ⟨u, hstep.trans hu, fun hne => absurd hop (hne i rfl), hsame⟩
    · obtain ⟨u, hu, hsame⟩ := exec_withoutIo hop hready ht
      exact ⟨u, hstep.trans hu, fun _ => hsame, hclear hsame⟩

end Sys2Proof.Machine
